-- ==== Sys2Proof/Word.lean ====
section
/-! DEFINITION. The word types of the block (00_scope R11, 10_state R20): 32-bit words, bytes, 7-bit state codes,
5-bit bit indices. -/

namespace Sys2Proof

/-- A word is `REG_W` = 32 bits (R11). -/
abbrev Word := BitVec 32

/-- The byte of R64's little-endian layout. -/
abbrev Byte := BitVec 8

/-- A state code, the 7 bits of `ST` (R22, R90). -/
abbrev Code := BitVec 7

/-- A bit position or bit index, 0 to 31 (R20 `GB`, R93 `pos`). -/
abbrev BitPos := BitVec 5

end Sys2Proof
end

