-- ==== Sys2Proof/Syntax.lean ====
section
/-! DEFINITION. The 36 steps (30_encoding R97), the step kinds with their operands (R92), the field descriptors' names
(10_state R30) and the value selectors (R95). A step has no operand bits: its operands are fixed by its row. -/

namespace Sys2Proof

/-- One constructor per row of the step table R97, in the table's order. -/
inductive Instr where
  | idle | s1a | s1b | s2a | s2b | o1a | o1b | o2a | o2b | o2c | o3a | o3b | o3c | o4a | o4b | o5a | o5b
  | s4a | s4b | halt | done
  | p1 | p2 | p3 | p4 | p5 | p6
  | s5 | s6a | s6b | s7 | s8a | s8b | s9a | s9b
  | g1
  deriving DecidableEq, Repr

/-- The four units (R10, R91). -/
inductive UnitName where
  | csq | pce | ptf | cgt
  deriving DecidableEq, Repr

/-- The three register blocks (R68). -/
inductive RegBlock where
  | pwr | rcc | flash
  deriving DecidableEq, Repr

/-- The 21 Register Fields of R30, in its order. -/
inductive FieldId where
  | pwrclkEn | vos | hsiOn | hsiRdy | bkpWpdis | lseDrv | lseOn | lsesysEn | lsesysFlag | hsi48On | hsi48Rdy
  | pllOn | pllRdy | pllCfg | pllSysoutEn | flashWs | ahbPre | sysclkSw | sysclkSws | apb1Pre | apb2Pre
  deriving DecidableEq, Repr

/-- Every field, in R30's order. -/
def FieldId.all : List FieldId :=
  [.pwrclkEn, .vos, .hsiOn, .hsiRdy, .bkpWpdis, .lseDrv, .lseOn, .lsesysEn, .lsesysFlag, .hsi48On, .hsi48Rdy,
   .pllOn, .pllRdy, .pllCfg, .pllSysoutEn, .flashWs, .ahbPre, .sysclkSw, .sysclkSws, .apb1Pre, .apb2Pre]

/-- The status fields, whose value the environment lets through (R30 owners `env` and `blk+echo`, R80 (c)). -/
inductive StatusId where
  | hsiRdy | bkpWpdis | lseOn | lsesysFlag | hsi48Rdy | pllRdy | sysclkSws
  deriving DecidableEq, Repr

/-- Every status field, in R30's order. -/
def StatusId.all : List StatusId :=
  [.hsiRdy, .bkpWpdis, .lseOn, .lsesysFlag, .hsi48Rdy, .pllRdy, .sysclkSws]

/-- The Register Field a status field is. -/
def StatusId.field : StatusId → FieldId
  | .hsiRdy => .hsiRdy
  | .bkpWpdis => .bkpWpdis
  | .lseOn => .lseOn
  | .lsesysFlag => .lsesysFlag
  | .hsi48Rdy => .hsi48Rdy
  | .pllRdy => .pllRdy
  | .sysclkSws => .sysclkSws

/-- The twelve value selectors of R95. -/
inductive ValSel where
  | zero | one | vosTarget | lseDrvLowest | pllCfg | wsTarget | ahbSafe | ahbFinal | swPll | swsPll
  | apb1Final | apb2Final
  deriving DecidableEq, Repr

/-- A step's descriptor operand: one of the 21 fields, or the computed `F_GATE` (R93, R110). -/
inductive FieldRef where
  | field (f : FieldId)
  | gate
  deriving DecidableEq, Repr

/-- A step's kind with its operands (R92). -/
inductive StepForm where
  | setf (F : FieldRef) (V : ValSel) (next : Code)
  | rdbk (F : FieldRef) (next : Code)
  | wait (F : FieldRef) (V : ValSel) (next : Code)
  | skeq (F : FieldRef) (V : ValSel) (next alt : Code)
  | skge (F : FieldRef) (V : ValSel) (next alt : Code)
  | skle (F : FieldRef) (V : ValSel) (next alt : Code)
  | ctrl
  deriving DecidableEq, Repr

end Sys2Proof
end

