-- ==== Sys2Proof/Config.lean ====
section
/-! DEFINITION. What an implementation fixes: the binding of 00_scope R8 as plain data, TESTBIND of 95_test_vectors as
the one binding the spec writes out, and the open constants no proof can evaluate. `REG_W` is 32 (R8, R11) and is no
field. Functions of R8 are finite tables (log entry 13). -/

namespace Sys2Proof

/-- A Register Field `(addr, mask, pos)` (R12, R93). -/
structure Descriptor where
  addr : Nat
  mask : Word
  pos : BitPos
  deriving DecidableEq, Repr, Inhabited

/-- The 21 descriptors `F_*` (R8, R30). -/
structure FieldMap where
  pwrclkEn : Descriptor
  vos : Descriptor
  hsiOn : Descriptor
  hsiRdy : Descriptor
  bkpWpdis : Descriptor
  lseDrv : Descriptor
  lseOn : Descriptor
  lsesysEn : Descriptor
  lsesysFlag : Descriptor
  hsi48On : Descriptor
  hsi48Rdy : Descriptor
  pllOn : Descriptor
  pllRdy : Descriptor
  pllCfg : Descriptor
  pllSysoutEn : Descriptor
  flashWs : Descriptor
  ahbPre : Descriptor
  sysclkSw : Descriptor
  sysclkSws : Descriptor
  apb1Pre : Descriptor
  apb2Pre : Descriptor
  deriving DecidableEq, Repr, Inhabited

/-- An address range of `BLOCK_OF` (R8, R68). -/
structure BlockRange where
  lo : Nat
  hi : Nat
  block : RegBlock
  deriving DecidableEq, Repr

/-- `BLOCK_OF` as a total function: the first range that holds the address, else `otherwise` (R8, R68). -/
structure BlockMap where
  ranges : List BlockRange
  otherwise : RegBlock
  deriving DecidableEq, Repr

/-- `DRAIN_SCOPE` (R8, R70). -/
inductive DrainScope where
  | all | target
  deriving DecidableEq, Repr

/-- One row of `GATE_TABLE`: identity to bank and bit (R190). -/
structure GateEntry where
  id : Nat
  bank : Fin 3
  bit : Nat
  deriving DecidableEq, Repr

/-- One sub-field of `V_PLL_CFG`: where its code stands and which divider value a code means; a code in no row means
itself (R8 `pll_tuple`, R40). -/
structure PllSubField where
  mask : Word
  pos : BitPos
  rows : List (Nat × Nat)
  deriving DecidableEq, Repr, Inhabited

/-- The six sub-fields of the PLL Configuration (R40). -/
structure PllLayout where
  src : PllSubField
  m : PllSubField
  n : PllSubField
  p : PllSubField
  q : PllSubField
  r : PllSubField
  deriving DecidableEq, Repr, Inhabited

/-- The PLL Configuration tuple (R40, R47). -/
structure PllTuple where
  src : Nat
  m : Nat
  n : Nat
  p : Nat
  q : Nat
  r : Nat
  deriving DecidableEq, Repr, Inhabited

/-- A divide-ratio function of prescaler codes: the first row of a code, else `otherwise` (R8 `div_ahb`, `div_apb`). -/
structure DivTable where
  rows : List (Nat × Nat)
  otherwise : Nat
  deriving DecidableEq, Repr, Inhabited

/-- A row of a wait-state table: the highest frequency for which `ws` wait-states are enough. -/
structure WsRow where
  upTo : Rat
  ws : Nat
  deriving DecidableEq, Repr

/-- `ws_required` (R8, R243): one wait-state for every `q` Hz begun after the first, or a table read from the top. -/
inductive WsLaw where
  | perStep (q : Rat)
  | table (rows : List WsRow) (above : Nat)
  deriving DecidableEq, Repr

/-- A binding: every parameter of R8 but `REG_W`. -/
structure BindingData where
  aw : Nat
  fields : FieldMap
  blocks : BlockMap
  vVosTarget : Word
  vLseDrvLowest : Word
  vPllCfg : Word
  vWsTarget : Word
  vAhbSafe : Word
  vAhbFinal : Word
  vSwPll : Word
  vSwsPll : Word
  vApb1Final : Word
  vApb2Final : Word
  gateTable : List GateEntry
  bankAddr : Vector Nat 3
  idw : Nat
  pollMax : Word
  drainScope : DrainScope
  fRef : Rat
  fReset : Rat
  pllLayout : PllLayout
  divAhb : DivTable
  divApb : DivTable
  wsLaw : WsLaw
  fHclkMax : Rat
  fPclk1Max : Rat
  fPclk2Max : Rat
  deriving DecidableEq, Repr

/-- TESTBIND, the synthetic binding of 95_test_vectors section 2 (D35), with `POLL_MAX` 0. -/
def testbind : BindingData where
  aw := 32
  fields :=
    { pwrclkEn := ⟨0x14, 0x10000000, 28⟩
      vos := ⟨0x40, 0x00000600, 9⟩
      hsiOn := ⟨0x00, 0x00000001, 0⟩
      hsiRdy := ⟨0x00, 0x00000002, 1⟩
      bkpWpdis := ⟨0x40, 0x00000100, 8⟩
      lseDrv := ⟨0x10, 0x00000018, 3⟩
      lseOn := ⟨0x10, 0x00000001, 0⟩
      lsesysEn := ⟨0x10, 0x00000080, 7⟩
      lsesysFlag := ⟨0x10, 0x00000800, 11⟩
      hsi48On := ⟨0x0C, 0x00000001, 0⟩
      hsi48Rdy := ⟨0x0C, 0x00000002, 1⟩
      pllOn := ⟨0x00, 0x00000100, 8⟩
      pllRdy := ⟨0x00, 0x00000200, 9⟩
      pllCfg := ⟨0x08, 0x03FFFFF3, 0⟩
      pllSysoutEn := ⟨0x08, 0x10000000, 28⟩
      flashWs := ⟨0x80, 0x0000000F, 0⟩
      ahbPre := ⟨0x04, 0x000000F0, 4⟩
      sysclkSw := ⟨0x04, 0x00000003, 0⟩
      sysclkSws := ⟨0x04, 0x0000000C, 2⟩
      apb1Pre := ⟨0x04, 0x00000700, 8⟩
      apb2Pre := ⟨0x04, 0x00003800, 11⟩ }
  blocks := { ranges := [⟨0x40, 0x7F, .pwr⟩, ⟨0x80, 0xBF, .flash⟩], otherwise := .rcc }
  vVosTarget := 0
  vLseDrvLowest := 0
  vPllCfg := 0x0123B711
  vWsTarget := 5
  vAhbSafe := 0xF
  vAhbFinal := 0
  vSwPll := 3
  vSwsPll := 3
  vApb1Final := 0
  vApb2Final := 0
  gateTable := [⟨0x01, 0, 17⟩, ⟨0x02, 0, 21⟩, ⟨0x03, 1, 12⟩, ⟨0x04, 2, 14⟩]
  bankAddr := #v[0x14, 0x18, 0x1C]
  idw := 8
  pollMax := 0
  drainScope := .all
  fRef := 4000000
  fReset := 4000000
  pllLayout :=
    { src := ⟨0x00000003, 0, []⟩
      m := ⟨0x000000F0, 4, []⟩
      n := ⟨0x00007F00, 8, []⟩
      p := ⟨0x000F8000, 15, []⟩
      q := ⟨0x00700000, 20, []⟩
      r := ⟨0x03800000, 23, []⟩ }
  divAhb := { rows := [(8, 2), (9, 4), (10, 8), (11, 16), (12, 32), (13, 64), (14, 128), (15, 256)], otherwise := 1 }
  divApb := { rows := [(4, 2), (5, 4), (6, 8), (7, 16)], otherwise := 1 }
  wsLaw := .perStep 20000000
  fHclkMax := 110000000
  fPclk1Max := 110000000
  fPclk2Max := 110000000

/-- FREE VALUE (log entry 7): the PLL output where the tuple's `M * R` is 0. R47 divides by `M * R` and gives no value
there. -/
opaque Config.fPllUnstated : PllTuple → Rat

/-- OPEN CONSTANT (log entry 3): how many reads after a change of its driver each status field still answers with the
old value, `none` for NEVER. No rule bounds it (R82, R252). -/
opaque Config.latency : StatusId → Option Nat

end Sys2Proof
end

