-- ==== Sys2Proof/Decode.lean ====
section
/-! DEFINITION. State codes to steps and back (30_encoding R90, R91, R97, R106), the step table's operand columns (R97),
the graph of successors (R108), and the pseudo-instructions (R104). -/

namespace Sys2Proof

/-- The step a 7-bit code stands for; `none` for each of the 92 illegal codes (R90, R97, R106). -/
def decode (c : Code) : Option Instr :=
  match c.toNat with
  | 0x00 => some .idle
  | 0x01 => some .s1a
  | 0x02 => some .s1b
  | 0x03 => some .s2a
  | 0x04 => some .s2b
  | 0x05 => some .o1a
  | 0x06 => some .o1b
  | 0x07 => some .o2a
  | 0x08 => some .o2b
  | 0x09 => some .o2c
  | 0x0A => some .o3a
  | 0x0B => some .o3b
  | 0x0C => some .o3c
  | 0x0D => some .o4a
  | 0x0E => some .o4b
  | 0x0F => some .o5a
  | 0x10 => some .o5b
  | 0x11 => some .s4a
  | 0x12 => some .s4b
  | 0x1E => some .halt
  | 0x1F => some .done
  | 0x20 => some .p1
  | 0x21 => some .p2
  | 0x22 => some .p3
  | 0x23 => some .p4
  | 0x24 => some .p5
  | 0x25 => some .p6
  | 0x40 => some .s5
  | 0x41 => some .s6a
  | 0x42 => some .s6b
  | 0x43 => some .s7
  | 0x44 => some .s8a
  | 0x45 => some .s8b
  | 0x46 => some .s9a
  | 0x47 => some .s9b
  | 0x60 => some .g1
  | _ => none

/-- The units' two bits, `ST[6:5]` (R91). -/
def UnitName.bits : UnitName → BitVec 2
  | .csq => 0
  | .pce => 1
  | .ptf => 2
  | .cgt => 3

/-- The unit a step belongs to (R97 column `unit`). -/
def Instr.unit : Instr → UnitName
  | .idle | .s1a | .s1b | .s2a | .s2b | .o1a | .o1b | .o2a | .o2b | .o2c | .o3a | .o3b | .o3c | .o4a | .o4b
  | .o5a | .o5b | .s4a | .s4b | .halt | .done => .csq
  | .p1 | .p2 | .p3 | .p4 | .p5 | .p6 => .pce
  | .s5 | .s6a | .s6b | .s7 | .s8a | .s8b | .s9a | .s9b => .ptf
  | .g1 => .cgt

/-- The step's index inside its unit, `ST[4:0]` (R91). -/
def Instr.index : Instr → BitVec 5
  | .idle => 0x00 | .s1a => 0x01 | .s1b => 0x02 | .s2a => 0x03 | .s2b => 0x04
  | .o1a => 0x05 | .o1b => 0x06 | .o2a => 0x07 | .o2b => 0x08 | .o2c => 0x09
  | .o3a => 0x0A | .o3b => 0x0B | .o3c => 0x0C | .o4a => 0x0D | .o4b => 0x0E
  | .o5a => 0x0F | .o5b => 0x10 | .s4a => 0x11 | .s4b => 0x12 | .halt => 0x1E | .done => 0x1F
  | .p1 => 0x00 | .p2 => 0x01 | .p3 => 0x02 | .p4 => 0x03 | .p5 => 0x04 | .p6 => 0x05
  | .s5 => 0x00 | .s6a => 0x01 | .s6b => 0x02 | .s7 => 0x03 | .s8a => 0x04 | .s8b => 0x05
  | .s9a => 0x06 | .s9b => 0x07
  | .g1 => 0x00

/-- The code of a step: its unit's bits above its index (R91). -/
def encode (i : Instr) : Code := i.unit.bits ++ i.index

/-- Every step, in the table's order. -/
def Instr.all : List Instr :=
  [.idle, .s1a, .s1b, .s2a, .s2b, .o1a, .o1b, .o2a, .o2b, .o2c, .o3a, .o3b, .o3c, .o4a, .o4b, .o5a, .o5b,
   .s4a, .s4b, .halt, .done, .p1, .p2, .p3, .p4, .p5, .p6, .s5, .s6a, .s6b, .s7, .s8a, .s8b, .s9a, .s9b, .g1]

/-- The columns `kind`, `F`, `V`, `next`, `alt` of the step table R97. -/
def Instr.form : Instr → StepForm
  | .idle => .ctrl
  | .s1a => .setf (.field .pwrclkEn) .one 0x02
  | .s1b => .rdbk (.field .pwrclkEn) 0x03
  | .s2a => .setf (.field .vos) .vosTarget 0x04
  | .s2b => .rdbk (.field .vos) 0x05
  | .o1a => .setf (.field .hsiOn) .one 0x06
  | .o1b => .wait (.field .hsiRdy) .one 0x07
  | .o2a => .skeq (.field .bkpWpdis) .one 0x08 0x0A
  | .o2b => .setf (.field .bkpWpdis) .one 0x09
  | .o2c => .wait (.field .bkpWpdis) .one 0x0A
  | .o3a => .setf (.field .lseDrv) .lseDrvLowest 0x0B
  | .o3b => .setf (.field .lseOn) .one 0x0C
  | .o3c => .wait (.field .lseOn) .one 0x0D
  | .o4a => .setf (.field .lsesysEn) .zero 0x0E
  | .o4b => .wait (.field .lsesysFlag) .zero 0x0F
  | .o5a => .setf (.field .hsi48On) .one 0x10
  | .o5b => .wait (.field .hsi48Rdy) .one 0x20
  | .s4a => .skge (.field .flashWs) .wsTarget 0x12 0x40
  | .s4b => .setf (.field .flashWs) .wsTarget 0x40
  | .halt => .ctrl
  | .done => .ctrl
  | .p1 => .setf (.field .pllOn) .zero 0x21
  | .p2 => .wait (.field .pllRdy) .zero 0x22
  | .p3 => .setf (.field .pllCfg) .pllCfg 0x23
  | .p4 => .setf (.field .pllOn) .one 0x24
  | .p5 => .setf (.field .pllSysoutEn) .one 0x25
  | .p6 => .wait (.field .pllRdy) .one 0x11
  | .s5 => .setf (.field .ahbPre) .ahbSafe 0x41
  | .s6a => .setf (.field .sysclkSw) .swPll 0x42
  | .s6b => .wait (.field .sysclkSws) .swsPll 0x43
  | .s7 => .setf (.field .ahbPre) .ahbFinal 0x44
  | .s8a => .skle (.field .flashWs) .wsTarget 0x45 0x46
  | .s8b => .setf (.field .flashWs) .wsTarget 0x46
  | .s9a => .setf (.field .apb1Pre) .apb1Final 0x47
  | .s9b => .setf (.field .apb2Pre) .apb2Final 0x1F
  | .g1 => .setf .gate .one 0x1F

/-- The codes a step's row lets `ST` become when the step completes (R97 `next`, `alt`; R120, R139 for IDLE and DONE;
nothing leaves HALT, R140). -/
def Instr.successors : Instr → List Code
  | .idle => [0x01]
  | .done => [0x60]
  | .halt => []
  | i => match i.form with
    | .setf _ _ n | .rdbk _ n | .wait _ _ n => [n]
    | .skeq _ _ n a | .skge _ _ n a | .skle _ _ n a => [n, a]
    | .ctrl => []

/-- The eight WAIT steps: they can hang (R201) and their codes are the timeout causes (R204). -/
def Instr.isWait (i : Instr) : Bool :=
  match i.form with
  | .wait .. => true
  | _ => false

/-- The SETF steps, the ones with a write half (R98). -/
def Instr.isSetf (i : Instr) : Bool :=
  match i.form with
  | .setf .. => true
  | _ => false

/-- The pseudo-instruction `initOsc`, without or with the bracketed steps (R104). -/
def initOscSteps (unprotect : Bool) : List Instr :=
  [.o1a, .o1b, .o2a] ++ (if unprotect then [.o2b, .o2c] else []) ++
  [.o3a, .o3b, .o3c, .o4a, .o4b, .o5a, .o5b, .p1, .p2, .p3, .p4, .p5, .p6]

/-- The pseudo-instruction `initCLK`, without or with the bracketed steps (R104). -/
def initClkSteps (unprotect raiseWs lowerWs : Bool) : List Instr :=
  [.s1a, .s1b, .s2a, .s2b] ++ initOscSteps unprotect ++ [.s4a] ++ (if raiseWs then [.s4b] else []) ++
  [.s5, .s6a, .s6b, .s7, .s8a] ++ (if lowerWs then [.s8b] else []) ++ [.s9a, .s9b, .done]

/-- The instruction of a table word: the word's low `nbits` bits, a state code when they are below 128. -/
def decodeTableWord (nbits w : Nat) : Option Instr :=
  let v := w % 2 ^ nbits
  if v < 128 then decode (BitVec.ofNat 7 v) else none

end Sys2Proof
end

