-- ==== Sys2Proof/Machine/Operands.lean ====
section
/-! DEFINITION. Operand forms: `fld` and `ins` (00_scope R12), descriptor and value look-up (30_encoding R93, R95), the
computed descriptor `F_GATE` (R110), `BLOCK_OF` and the table functions of R8. -/

namespace Sys2Proof.Machine

/-- `fld(F, w) = (w & F.mask) >> F.pos` (R12). -/
def fld (F : Descriptor) (w : Word) : Word := (w &&& F.mask) >>> F.pos.toNat

/-- `ins(F, w, v) = (w & ~F.mask) | ((v << F.pos) & F.mask)` (R12); excess bits of `v` drop out (R98). -/
def ins (F : Descriptor) (w v : Word) : Word := (w &&& ~~~F.mask) ||| ((v <<< F.pos.toNat) &&& F.mask)

/-- What of a value a field can hold, and so what a read of the field returns (R12, R98). -/
def cut (F : Descriptor) (v : Word) : Word := fld F (ins F 0 v)

/-- The descriptor of a field under a binding (R30, R93). -/
def descOf (B : BindingData) : FieldId → Descriptor
  | .pwrclkEn => B.fields.pwrclkEn
  | .vos => B.fields.vos
  | .hsiOn => B.fields.hsiOn
  | .hsiRdy => B.fields.hsiRdy
  | .bkpWpdis => B.fields.bkpWpdis
  | .lseDrv => B.fields.lseDrv
  | .lseOn => B.fields.lseOn
  | .lsesysEn => B.fields.lsesysEn
  | .lsesysFlag => B.fields.lsesysFlag
  | .hsi48On => B.fields.hsi48On
  | .hsi48Rdy => B.fields.hsi48Rdy
  | .pllOn => B.fields.pllOn
  | .pllRdy => B.fields.pllRdy
  | .pllCfg => B.fields.pllCfg
  | .pllSysoutEn => B.fields.pllSysoutEn
  | .flashWs => B.fields.flashWs
  | .ahbPre => B.fields.ahbPre
  | .sysclkSw => B.fields.sysclkSw
  | .sysclkSws => B.fields.sysclkSws
  | .apb1Pre => B.fields.apb1Pre
  | .apb2Pre => B.fields.apb2Pre

/-- `val(V)` (R95). -/
def valOf (B : BindingData) : ValSel → Word
  | .zero => 0
  | .one => 1
  | .vosTarget => B.vVosTarget
  | .lseDrvLowest => B.vLseDrvLowest
  | .pllCfg => B.vPllCfg
  | .wsTarget => B.vWsTarget
  | .ahbSafe => B.vAhbSafe
  | .ahbFinal => B.vAhbFinal
  | .swPll => B.vSwPll
  | .swsPll => B.vSwsPll
  | .apb1Final => B.vApb1Final
  | .apb2Final => B.vApb2Final

/-- The computed descriptor `F_GATE` held in `GA` and `GB` (R110). `GA` has `AW` bits (R20), so its low `AW` bits
address the bus. -/
def gateDesc (B : BindingData) (GA : Nat) (GB : BitPos) : Descriptor :=
  { addr := GA % 2 ^ B.aw, mask := (1 : Word) <<< GB.toNat, pos := GB }

/-- `GATE_TABLE(id)` for the `IDW`-bit identity (R190). -/
def gateLookup (B : BindingData) (id : Nat) : Option GateEntry :=
  B.gateTable.find? fun e => e.id == id % 2 ^ B.idw

/-- `BLOCK_OF(addr)` (R68). -/
def blockOf (B : BindingData) (addr : Nat) : RegBlock :=
  match B.blocks.ranges.find? fun r => decide (r.lo ≤ addr) && decide (addr ≤ r.hi) with
  | some r => r.block
  | none => B.blocks.otherwise

/-- The divide ratio of a prescaler code (R8). -/
def DivTable.ratio (t : DivTable) (code : Nat) : Nat := (t.rows.lookup code).getD t.otherwise

/-- The divider value a sub-field's code means (R8 `pll_tuple`). -/
def PllSubField.value (f : PllSubField) (w : Word) : Nat :=
  let c := ((w &&& f.mask) >>> f.pos.toNat).toNat
  (f.rows.lookup c).getD c

/-- `pll_tuple(w)` (R8, R47). -/
def pllTuple (B : BindingData) (w : Word) : PllTuple where
  src := PllSubField.value B.pllLayout.src w
  m := PllSubField.value B.pllLayout.m w
  n := PllSubField.value B.pllLayout.n w
  p := PllSubField.value B.pllLayout.p w
  q := PllSubField.value B.pllLayout.q w
  r := PllSubField.value B.pllLayout.r w

/-- `ws_required(f)` (R8, R243). -/
def wsRequired (B : BindingData) (f : Rat) : Nat :=
  match B.wsLaw with
  | .perStep q => ((f / q).ceil - 1).toNat
  | .table rows above =>
    match rows.find? fun r => decide (f ≤ r.upTo) with
    | some r => r.ws
    | none => above

/-- `F_LSESYS_FLAG` is the enable bit itself (R36). -/
def lsesysAliased (B : BindingData) : Bool := decide (B.fields.lsesysFlag = B.fields.lsesysEn)

end Sys2Proof.Machine
end

