-- ==== Sys2Proof/Machine/BindingChecks.lean ====
section
/-! DEFINITION. The well-formedness checks of a binding, one definition per item of 00_scope R9, and the typing R8 asks
of the table functions. -/

namespace Sys2Proof.Machine

/-- An address is a multiple of `REG_W/8` and below `2^AW` (R9 (a)). -/
def addrOk (B : BindingData) (a : Nat) : Bool := decide (a % 4 = 0) && decide (a < 2 ^ B.aw)

/-- R9 (a): every descriptor address. -/
def checkAddrs (B : BindingData) : Bool := FieldId.all.all fun f => addrOk B (descOf B f).addr

/-- One contiguous run of ones whose lowest set bit is at `pos` (R9 (b)). -/
def contiguousAt (mask : Word) (pos : BitPos) : Bool :=
  let run := mask >>> pos.toNat
  decide (run ≠ 0) && decide (run &&& (run + 1) = 0) && decide (run <<< pos.toNat = mask)

/-- R9 (b): the mask's shape; `F_PLL_CFG` has `pos` 0 and any non-zero mask. -/
def checkMasks (B : BindingData) : Bool :=
  FieldId.all.all fun f =>
    let d := descOf B f
    if f = .pllCfg then decide (d.mask ≠ 0) && decide (d.pos = 0) else contiguousAt d.mask d.pos

/-- A value fits a descriptor: `((v << F.pos) & ~F.mask) = 0` (R9 (c)) with no bit of `v` lost in the shift, since a
value too wide for its field cannot occur (R98; log entry 15). -/
def fits (F : Descriptor) (v : Word) : Bool :=
  decide ((v <<< F.pos.toNat) &&& ~~~F.mask = 0) && decide ((v <<< F.pos.toNat) >>> F.pos.toNat = v)

/-- R9 (c): every value a SETF row writes fits its descriptor. -/
def checkValues (B : BindingData) : Bool :=
  Instr.all.all fun i =>
    match i.form with
    | .setf (.field f) V _ => fits (descOf B f) (valOf B V)
    | _ => true

/-- R9 (d): `V_PLL_CFG` lies under its mask. -/
def checkPllCfg (B : BindingData) : Bool := decide (B.vPllCfg &&& B.fields.pllCfg.mask = B.vPllCfg)

/-- R40: the mask of `F_PLL_CFG` is the union of the six sub-field masks. -/
def checkPllLayout (B : BindingData) : Bool :=
  let L := B.pllLayout
  decide (L.src.mask ||| L.m.mask ||| L.n.mask ||| L.p.mask ||| L.q.mask ||| L.r.mask = B.fields.pllCfg.mask)

/-- R9 (e): divide-by-1 is final, and the safe code divides most among the codes of the field. -/
def checkAhb (B : BindingData) : Bool :=
  decide (DivTable.ratio B.divAhb B.vAhbFinal.toNat = 1) &&
  (List.range ((B.fields.ahbPre.mask >>> B.fields.ahbPre.pos.toNat).toNat + 1)).all fun c =>
    decide (DivTable.ratio B.divAhb c ≤ DivTable.ratio B.divAhb B.vAhbSafe.toNat)

/-- R9 (f): the output enable is apart from the configuration when both share an address. -/
def checkSysout (B : BindingData) : Bool :=
  decide (B.fields.pllSysoutEn.addr = B.fields.pllCfg.addr →
    B.fields.pllSysoutEn.mask &&& B.fields.pllCfg.mask = 0)

/-- The one pair that may coincide: `F_LSESYS_FLAG` and `F_LSESYS_EN` (R9 (g), R36). -/
def mayAlias (B : BindingData) (f g : FieldId) : Bool :=
  (decide (f = .lsesysFlag ∧ g = .lsesysEn) || decide (f = .lsesysEn ∧ g = .lsesysFlag)) &&
  decide (descOf B f = descOf B g)

/-- R9 (g): distinct descriptors at one address have disjoint masks. -/
def checkDisjoint (B : BindingData) : Bool :=
  FieldId.all.all fun f => FieldId.all.all fun g =>
    decide (f = g) || decide ((descOf B f).addr ≠ (descOf B g).addr) ||
    decide ((descOf B f).mask &&& (descOf B g).mask = 0) || mayAlias B f g

/-- R9 (h): gate bits are below `REG_W`, bank addresses as in (a). -/
def checkGates (B : BindingData) : Bool :=
  (B.gateTable.all fun e => decide (e.bit < 32)) && B.bankAddr.all (addrOk B)

/-- R8's types: divide ratios are naturals from 1 up. -/
def checkRatios (B : BindingData) : Bool :=
  [B.divAhb, B.divApb].all fun t => decide (1 ≤ t.otherwise) && t.rows.all fun r => decide (1 ≤ r.2)

/-- R8's types: frequencies are not negative. -/
def checkFrequencies (B : BindingData) : Bool :=
  [B.fRef, B.fReset, B.fHclkMax, B.fPclk1Max, B.fPclk2Max].all fun f => decide (0 ≤ f)

end Sys2Proof.Machine
end

