-- ==== Sys2Proof/WellFormed.lean ====
section
/-! DEFINITION. Well-formed bindings (00_scope R9). A step has no operand bits, so every step is well-formed and what R9
checks is the binding. `Binding` pairs the data with the check: the model gives an ill-formed binding no meaning at all
(R9, R65, U14; log entry 2). -/

namespace Sys2Proof

open Machine

/-- R9 (a) to (h), with R40's mask of the PLL Configuration and the types of R8 (log entry 15). -/
def BindingData.wf (B : BindingData) : Bool :=
  checkAddrs B && checkMasks B && checkValues B && checkPllCfg B && checkAhb B && checkSysout B && checkDisjoint B &&
  checkGates B && checkPllLayout B && checkRatios B && checkFrequencies B

/-- A well-formed binding. The defaults only show that one exists (TESTBIND), which a bodyless constant of this type
needs; no definition of the model takes them. -/
structure Binding where
  data : BindingData := testbind
  ok : data.wf = true := by decide +kernel
  deriving DecidableEq, Repr, Inhabited

/-- OPEN CONSTANT (log entry 2): the binding of the machine that `State.reset` describes. R8 fixes none. -/
opaque Config.binding : Binding

end Sys2Proof
end

