-- ==== Sys2Proof/Machine/State.lean ====
section
/-! DEFINITION. The machine's state as plain data: the block's registers (10_state R20), its input ports (R26), the
environment (R50, 20_memory R69, R80, R81), the trace (R14), the binding (R8) and the schedule of the other agents' acts
(R17); the reasons a step could stop; the state after reset (R55, R230). -/

namespace Sys2Proof.Machine

/-- REGS as canonical cells (R50 (a), R64): addresses strictly rising, no cell that equals what an unlisted address
reads as. -/
abbrev Memory := List Host.Cell

/-- A write accepted by the fabric and not yet applied (R69). -/
structure PostedWrite where
  addr : Nat
  data : Word
  deriving DecidableEq, Repr

/-- An event of the trace (R14, R62, R63), or the event `gate_ack_o` with the `HIT` it gives (R26, R192, R193). -/
inductive Event where
  | read (addr : Nat) (data : Word)
  | write (addr : Nat) (data : Word)
  | gateAck (hit : Bool)
  deriving DecidableEq, Repr

/-- `LAT[S]` (`none` is NEVER) and `CNT[S]` (`none` when no countdown runs) of one status field (R80). -/
structure Timer where
  lat : Option Nat
  cnt : Option Nat
  deriving DecidableEq, Repr

/-- The timers of the seven status fields (R80). -/
structure Timers where
  hsiRdy : Timer
  bkpWpdis : Timer
  lseOn : Timer
  lsesysFlag : Timer
  hsi48Rdy : Timer
  pllRdy : Timer
  sysclkSws : Timer
  deriving DecidableEq, Repr

/-- The environment's state (R50, R80, R81). `posting` says whether an acknowledged write waits in `POSTED` until R70
forces it (R69), or is applied at once as REFENV does (R80 (a)); log entry 4. -/
structure Env where
  regs : Memory
  posted : List PostedWrite
  visBkpWpdis : Word
  visLseOn : Word
  visLsesysFlag : Word
  timers : Timers
  swsInit : Word
  posting : Bool
  violPllCfg : Bool
  violWs : Bool
  violFmax : Bool
  violPwrclk : Bool
  deriving DecidableEq, Repr

/-- The input ports' levels (R26). -/
structure Ports where
  rst : Bool
  start : Bool
  busAck : Bool
  gateReq : Bool
  gateId : Nat
  deriving DecidableEq, Repr

/-- One act of one agent, in the order the schedule gives them (R17; log entry 5). -/
inductive Act where
  /-- The block's clock edge. -/
  | edge
  /-- The host sets `rst_i` (R230). -/
  | setRst (level : Bool)
  /-- The host sets `start_i` (R120). -/
  | setStart (level : Bool)
  /-- The fabric sets `bus_ack_i` (R27, R202). -/
  | setAck (level : Bool)
  /-- A driver raises `gate_req_i` with an identity, unless a request is waiting (R191). -/
  | gateRequest (id : Nat)
  /-- The environment applies the oldest posted write of a scope class (R70 (b)). -/
  | applyPosted (block : RegBlock)
  /-- The environment lets a status field take the value its driver asks for (ENV_RO of R78; log entry 18). -/
  | settle (S : StatusId)
  /-- The environment sets a status field to any value; ENV_RO admits its driver's value only (R78, U20, U22). -/
  | status (S : StatusId) (v : Word)
  /-- Another master's write is applied; ENV_SOLE keeps it off the binding's registers during bring-up (R78, U13, U19). -/
  | otherWrite (addr : Nat) (data : Word)
  /-- The environment changes a register's stored word by itself; ENV_HOLD and ENV_RO say which bits (R66, R77, R78). -/
  | poke (addr : Nat) (data : Word)
  deriving DecidableEq, Repr

/-- The state. The ten registers in capitals are R20's; `binding`, `sched` are the model's own. -/
structure State where
  binding : Binding
  ST : Code
  PH : Bool
  T : Word
  PCNT : Word
  FAIL : Code
  DN : Bool
  TO : Bool
  HIT : Bool
  GA : Nat
  GB : BitPos
  ports : Ports
  env : Env
  trace : List Event
  sched : List Act
  deriving DecidableEq, Repr

/-- The parameters the state's machine has. -/
abbrev State.bind (s : State) : BindingData := s.binding.data

/-- Why a step could stop with a fault: NO reason exists. Timeout and an illegal code enter HALT (R106, R203), a hazard
sets a sticky flag and the run goes on (R81, R205), a silent bus leaves the block waiting (R202); log entry 6. Safe:
nothing raises it. -/
inductive Fault where
  deriving DecidableEq, Repr

/-- Why a step could be refused. -/
inductive Refusal where
  /-- Raised by an arm of `exec` whose instruction has no meaning yet: by none. Safe. -/
  | notModelled (mnemonic : String)
  deriving DecidableEq, Repr

/-- The outcome of a step. -/
abbrev Result := Host.Outcome State Fault Refusal

/-- The input ports after reset: all low but the bus acknowledge (log entry 8). -/
def Ports.idle : Ports :=
  { rst := false, start := false, busAck := true, gateReq := false, gateId := 0 }

/-- A timer of the open latency with no countdown running (log entry 3). -/
def Timer.open (S : StatusId) : Timer := { lat := Config.latency S, cnt := none }

/-- The environment beside a block that has just been reset: nothing listed in REGS (log entry 1), nothing posted (R55),
no violation (R81). -/
def Env.atReset : Env where
  regs := []
  posted := []
  visBkpWpdis := 0
  visLseOn := 0
  visLsesysFlag := 0
  timers :=
    { hsiRdy := .open .hsiRdy
      bkpWpdis := .open .bkpWpdis
      lseOn := .open .lseOn
      lsesysFlag := .open .lsesysFlag
      hsi48Rdy := .open .hsi48Rdy
      pllRdy := .open .pllRdy
      sysclkSws := .open .sysclkSws }
  swsInit := 0
  posting := true
  violPllCfg := false
  violWs := false
  violFmax := false
  violPwrclk := false

/-- The block just after reset (R55) under any binding, beside any environment. -/
def State.resetWith (B : Binding) (e : Env) : State where
  binding := B
  ST := 0x00
  PH := false
  T := 0x00000000
  PCNT := 0
  FAIL := 0x00
  DN := false
  TO := false
  HIT := false
  GA := 0
  GB := 0
  ports := Ports.idle
  env := e
  trace := []
  sched := []

/-- The machine right after reset (R55, R230), its binding open (log entry 2). -/
def State.reset : State := State.resetWith Config.binding Env.atReset

end Sys2Proof.Machine
end

