-- ==== Sys2Proof/Machine/Memory.lean ====
section
/-! DEFINITION. REGS as byte cells: reading and writing a byte, the canonical form, and the little-endian word of
20_memory R64. -/

namespace Sys2Proof.Machine

/-- What an unlisted address reads as (log entry 1). -/
def unlistedByte : Byte := 0

/-- The byte at an address. -/
def readByte : Memory → Nat → Byte
  | [], _ => unlistedByte
  | c :: m, a => if c.1 = a then c.2 else readByte m a

/-- A cell put before the first cell of a higher address. -/
def insertCell : Memory → Nat → Byte → Memory
  | [], a, b => [(a, b)]
  | c :: m, a, b => if a < c.1 then (a, b) :: c :: m else c :: insertCell m a b

/-- Write one byte: no cell of the address stays, and one is listed unless it reads as an unlisted address does. -/
def writeByte (m : Memory) (a : Nat) (b : Byte) : Memory :=
  let rest := m.filter fun c => c.1 != a
  if b = unlistedByte then rest else insertCell rest a b

/-- The canonical form: addresses strictly rising, no cell that reads as an unlisted address. -/
def memoryWf : Memory → Bool
  | [] => true
  | c :: m => decide (c.2 ≠ unlistedByte) && (m.all fun d => decide (c.1 < d.1)) && memoryWf m

/-- The word at a byte address: byte `addr + i` holds bits `8i+7 : 8i` (R64). -/
def readWord (m : Memory) (a : Nat) : Word :=
  readByte m (a + 3) ++ readByte m (a + 2) ++ readByte m (a + 1) ++ readByte m a

/-- Store a word at a byte address (R61, R64). -/
def writeWord (m : Memory) (a : Nat) (w : Word) : Memory :=
  let m := writeByte m a (w.extractLsb' 0 8)
  let m := writeByte m (a + 1) (w.extractLsb' 8 8)
  let m := writeByte m (a + 2) (w.extractLsb' 16 8)
  writeByte m (a + 3) (w.extractLsb' 24 8)

/-- `fld(F, REGS)`: a field's value in the stored registers. -/
def fieldVal (B : BindingData) (m : Memory) (f : FieldId) : Word :=
  fld (descOf B f) (readWord m (descOf B f).addr)

end Sys2Proof.Machine
end

