-- ==== Sys2Proof/Machine/Clocks.lean ====
section
/-! DEFINITION. The derived clock frequencies (10_state R47, R48) and their upper bounds during the switch
(70_reset_and_hazards R240), as exact rationals. The block computes none of them (R49). -/

namespace Sys2Proof.Machine

/-- `f_pll(w) = F_REF * N / (M * R)` (R47). Where `M * R` is 0 the spec gives no value: the free value of log entry 7. -/
def fPll (B : BindingData) (w : Word) : Rat :=
  let t := pllTuple B w
  if t.m * t.r = 0 then Config.fPllUnstated t else B.fRef * t.n / (t.m * t.r)

/-- The PLLCFG word of the stored registers (R48): the bits under `F_PLL_CFG.mask`, the union of the sub-fields (R40). -/
def pllCfgWord (B : BindingData) (m : Memory) : Word := fieldVal B m .pllCfg

/-- The switch to the PLL has been requested (R240 `sw`). -/
def switchRequested (B : BindingData) (m : Memory) : Bool := decide (fieldVal B m .sysclkSw = B.vSwPll)

/-- The switch to the PLL is reported complete (R240 `sws`). -/
def switchReported (B : BindingData) (m : Memory) : Bool := decide (fieldVal B m .sysclkSws = B.vSwsPll)

/-- The AHB divide ratio in force (R48). -/
def ahbRatio (B : BindingData) (m : Memory) : Nat := DivTable.ratio B.divAhb (fieldVal B m .ahbPre).toNat

/-- The APB1 divide ratio in force (R48). -/
def apb1Ratio (B : BindingData) (m : Memory) : Nat := DivTable.ratio B.divApb (fieldVal B m .apb1Pre).toNat

/-- The APB2 divide ratio in force (R48). -/
def apb2Ratio (B : BindingData) (m : Memory) : Nat := DivTable.ratio B.divApb (fieldVal B m .apb2Pre).toNat

/-- `f_sysclk` (R48). -/
def fSysclk (B : BindingData) (m : Memory) : Rat :=
  if switchReported B m then fPll B (pllCfgWord B m) else B.fReset

/-- `f_hclk` (R48). -/
def fHclk (B : BindingData) (m : Memory) : Rat := fSysclk B m / ahbRatio B m

/-- `f_pclk1` (R48). -/
def fPclk1 (B : BindingData) (m : Memory) : Rat := fHclk B m / apb1Ratio B m

/-- `f_pclk2` (R48). -/
def fPclk2 (B : BindingData) (m : Memory) : Rat := fHclk B m / apb2Ratio B m

/-- `f_sysclk_ub` (R240). DESIGN CHOICE where SYSCLK already runs from the PLL and the sequence turns the PLL off (R231,
U18: effect unknown): the bound is still computed from the PLL Configuration (log entry 17). -/
def fSysclkUb (B : BindingData) (m : Memory) : Rat :=
  if switchReported B m then fPll B (pllCfgWord B m)
  else if switchRequested B m then max B.fReset (fPll B (pllCfgWord B m))
  else B.fReset

/-- `f_hclk_ub` (R240). -/
def fHclkUb (B : BindingData) (m : Memory) : Rat := fSysclkUb B m / ahbRatio B m

/-- `f_pclk1_ub` (R240). -/
def fPclk1Ub (B : BindingData) (m : Memory) : Rat := fHclkUb B m / apb1Ratio B m

/-- `f_pclk2_ub` (R240). -/
def fPclk2Ub (B : BindingData) (m : Memory) : Rat := fHclkUb B m / apb2Ratio B m

/-- Some clock bound is above its rated maximum: what breaks INV_FMAX (R241). -/
def fmaxBroken (B : BindingData) (m : Memory) : Bool :=
  decide (B.fHclkMax < fHclkUb B m) || decide (B.fPclk1Max < fPclk1Ub B m) || decide (B.fPclk2Max < fPclk2Ub B m)

/-- The flash wait-states are fewer than the clock bound needs: what breaks INV_WS (R243). -/
def wsBroken (B : BindingData) (m : Memory) : Bool :=
  decide ((fieldVal B m .flashWs).toNat < wsRequired B (fSysclkUb B m))

end Sys2Proof.Machine
end

