-- ==== Sys2Proof/Machine/Flags.lean ====
section
/-! DEFINITION. Flag computations: the block's `DN` and `HIT` (10_state R23), and the environment's sticky violation
flags (20_memory R81). `TO` is set by entering HALT, in Ops. -/

namespace Sys2Proof.Machine

/-- `DN <- 1` (R177). -/
def raiseDN (s : State) : State := { s with DN := true }

/-- The end of a gate request: `HIT` is written, `gate_ack_o` is given, and the driver, which holds its request until
then, drops it (R26, R192, R193; log entry 9). -/
def ackGate (hit : Bool) (s : State) : State :=
  { s with HIT := hit, trace := s.trace ++ [.gateAck hit], ports := { s.ports with gateReq := false } }

/-- VIOL_WS and VIOL_FMAX after an applied write or a change of a status field (R81). -/
def noteClocks (B : BindingData) (e : Env) : Env :=
  { e with violWs := e.violWs || wsBroken B e.regs, violFmax := e.violFmax || fmaxBroken B e.regs }

/-- VIOL_PWRCLK when a transaction reaches a PWR-block address with the interface clock off (R81, R245). -/
def notePwr (B : BindingData) (addr : Nat) (e : Env) : Env :=
  { e with violPwrclk := e.violPwrclk ||
      (decide (blockOf B addr = .pwr) && decide (fieldVal B e.regs .pwrclkEn = 0)) }

end Sys2Proof.Machine
end

