-- ==== Sys2Proof/Machine/Environment.lean ====
section
/-! DEFINITION. The environment: status fields and their countdowns (20_memory R80), the effect of an applied write by
owner class (R37, R77) with backup-domain protection (R75) and the PLL configuration lock (R76), posted writes and the
drain rule (R69, R70), and the answer to a read. -/

namespace Sys2Proof.Machine

/-- One status field's timer. -/
def timerOf (t : Timers) : StatusId → Timer
  | .hsiRdy => t.hsiRdy
  | .bkpWpdis => t.bkpWpdis
  | .lseOn => t.lseOn
  | .lsesysFlag => t.lsesysFlag
  | .hsi48Rdy => t.hsi48Rdy
  | .pllRdy => t.pllRdy
  | .sysclkSws => t.sysclkSws

/-- Replace `CNT[S]`. -/
def setCnt (t : Timers) (S : StatusId) (c : Option Nat) : Timers :=
  match S with
  | .hsiRdy => { t with hsiRdy := { t.hsiRdy with cnt := c } }
  | .bkpWpdis => { t with bkpWpdis := { t.bkpWpdis with cnt := c } }
  | .lseOn => { t with lseOn := { t.lseOn with cnt := c } }
  | .lsesysFlag => { t with lsesysFlag := { t.lsesysFlag with cnt := c } }
  | .hsi48Rdy => { t with hsi48Rdy := { t.hsi48Rdy with cnt := c } }
  | .pllRdy => { t with pllRdy := { t.pllRdy with cnt := c } }
  | .sysclkSws => { t with sysclkSws := { t.sysclkSws with cnt := c } }

/-- Whether a status field has the owner class `blk+echo`: a stored and a visible value (R30, R36, R37). -/
def isEcho (B : BindingData) : StatusId → Bool
  | .bkpWpdis | .lseOn => true
  | .lsesysFlag => lsesysAliased B
  | _ => false

/-- The value a read of a status field returns: the visible value of an echo field, as far as the field holds it, and
the stored bits of an `env` field (R37, R80). -/
def current (B : BindingData) (e : Env) (S : StatusId) : Word :=
  if isEcho B S then
    cut (descOf B S.field)
      (match S with
        | .bkpWpdis => e.visBkpWpdis
        | .lseOn => e.visLseOn
        | _ => e.visLsesysFlag)
  else fieldVal B e.regs S.field

/-- Make a status field show a value (R37). -/
def setCurrent (B : BindingData) (e : Env) (S : StatusId) (v : Word) : Env :=
  if isEcho B S then
    match S with
    | .bkpWpdis => { e with visBkpWpdis := v }
    | .lseOn => { e with visLseOn := v }
    | _ => { e with visLsesysFlag := v }
  else
    let F := descOf B S.field
    { e with regs := writeWord e.regs F.addr (ins F (readWord e.regs F.addr) v) }

/-- `tv(S)`: what a status field's driver asks for (R80 (c)). DESIGN CHOICE outside the reference environment: R78 names
the code matching `F_SYSCLK_SW`, and the spec gives that code for the PLL only; for every other code it is the initial
status in every environment (log entry 18). -/
def target (B : BindingData) (e : Env) (S : StatusId) : Word :=
  match S with
  | .hsiRdy => fieldVal B e.regs .hsiOn
  | .hsi48Rdy => fieldVal B e.regs .hsi48On
  | .pllRdy => fieldVal B e.regs .pllOn
  | .sysclkSws => if fieldVal B e.regs .sysclkSw = B.vSwPll then B.vSwsPll else e.swsInit
  | .lsesysFlag => fieldVal B e.regs .lsesysEn
  | .bkpWpdis => fieldVal B e.regs .bkpWpdis
  | .lseOn => fieldVal B e.regs .lseOn

/-- The status field takes its target value and its countdown stops (R80 (e)); the clocks are judged (R81). -/
def settle (B : BindingData) (S : StatusId) (e : Env) : Env :=
  let e' := setCurrent B e S (target B e S)
  noteClocks B { e' with timers := setCnt e'.timers S none }

/-- A read of a status field's address: a countdown at 0 ends, a longer one goes down by one (R80 (e)). -/
def tickOne (B : BindingData) (addr : Nat) (e : Env) (S : StatusId) : Env :=
  if (descOf B S.field).addr = addr then
    match (timerOf e.timers S).cnt with
    | none => e
    | some 0 => settle B S e
    | some (k + 1) => { e with timers := setCnt e.timers S (some k) }
  else e

/-- Every status field at the address read (R80 (e)). -/
def tick (B : BindingData) (addr : Nat) (e : Env) : Env := StatusId.all.foldl (tickOne B addr) e

/-- A write has been applied: `CNT[S] := LAT[S]` where it makes the target differ from the value shown (R80 (d); log
entry 11). `before` and `after` are the environments around the write. -/
def startOne (B : BindingData) (before : Env) (after : Env) (S : StatusId) : Env :=
  if target B after S ≠ target B before S ∧ target B after S ≠ current B after S then
    { after with timers := setCnt after.timers S (timerOf after.timers S).lat }
  else after

/-- Every status field whose target the write moved (R80 (d)). -/
def startCountdowns (B : BindingData) (before after : Env) : Env := StatusId.all.foldl (startOne B before) after

/-- The union of the masks of those listed fields that live at an address. -/
def maskAt (B : BindingData) (addr : Nat) (fs : List FieldId) : Word :=
  fs.foldl (fun w f => if (descOf B f).addr = addr then w ||| (descOf B f).mask else w) 0

/-- The `env`-owned fields: status flags whose bits ignore a write (R30, R37). -/
def envFields (B : BindingData) : List FieldId :=
  [.hsiRdy, .hsi48Rdy, .pllRdy, .sysclkSws] ++ if lsesysAliased B then [] else [.lsesysFlag]

/-- The backup-domain fields a write to which R75 guards; an aliased `F_LSESYS_FLAG` is `F_LSESYS_EN`. -/
def backupFields : List FieldId := [.lseDrv, .lseOn, .lsesysEn]

/-- The PLL counts as enabled: its enable or its ready flag is set (R76). -/
def pllEnabled (B : BindingData) (m : Memory) : Bool :=
  decide (fieldVal B m .pllOn = 1) || decide (fieldVal B m .pllRdy = 1)

/-- A write that would change a configuration bit while the PLL is enabled (R76). -/
def pllCfgBroken (B : BindingData) (m : Memory) (p : PostedWrite) : Bool :=
  decide (p.addr = B.fields.pllCfg.addr) &&
  decide ((readWord m p.addr ^^^ p.data) &&& B.fields.pllCfg.mask ≠ 0) && pllEnabled B m

/-- The bits of the addressed register that a write leaves as they are (R75, R76, R77). The value of `F_BKP_WPDIS` that a
read would return decides on the backup domain (R75). -/
def keptMask (B : BindingData) (e : Env) (p : PostedWrite) : Word :=
  maskAt B p.addr (envFields B) |||
  (if current B e .bkpWpdis = 0 then maskAt B p.addr backupFields else 0) |||
  (if pllCfgBroken B e.regs p then B.fields.pllCfg.mask else 0)

/-- The word a register holds after a write is applied to it (R77). -/
def storedWord (B : BindingData) (e : Env) (p : PostedWrite) : Word :=
  (readWord e.regs p.addr &&& keptMask B e p) ||| (p.data &&& ~~~keptMask B e p)

/-- Apply a write at its target (R77) with R75, R76, the countdowns of R80 (d) and the flags of R81. -/
def applyWrite (B : BindingData) (e : Env) (p : PostedWrite) : Env :=
  let reached := notePwr B p.addr e
  let stored :=
    { reached with
      regs := writeWord e.regs p.addr (storedWord B e p)
      violPllCfg := e.violPllCfg || pllCfgBroken B e.regs p }
  noteClocks B (startCountdowns B e stored)

/-- `scope(addr)` of R70. -/
def inScope (B : BindingData) (addr : Nat) (p : PostedWrite) : Bool :=
  match B.drainScope with
  | .all => true
  | .target => decide (blockOf B p.addr = blockOf B addr)

/-- Before a read is answered, the posted writes of its scope are applied, oldest first (R70 (a)). -/
def drain (B : BindingData) (addr : Nat) (e : Env) : Env :=
  (e.posted.filter (inScope B addr)).foldl (applyWrite B)
    { e with posted := e.posted.filter fun p => !inScope B addr p }

/-- The scope class a register block names: every entry for ALL, the block's own for TARGET (R70 (b)). -/
def inClass (B : BindingData) (b : RegBlock) (p : PostedWrite) : Bool :=
  match B.drainScope with
  | .all => true
  | .target => decide (blockOf B p.addr = b)

/-- The environment applies the oldest posted write of a scope class, if there is one (R70 (b)). -/
def applyOldest (B : BindingData) (b : RegBlock) (e : Env) : Env :=
  match e.posted.find? (inClass B b) with
  | none => e
  | some p => applyWrite B { e with posted := e.posted.eraseP (inClass B b) } p

/-- An acknowledged write joins `POSTED` (R63, R69); an environment that does not post applies it at once, after any
older one of its scope (R80 (a)). -/
def acceptWrite (B : BindingData) (p : PostedWrite) (e : Env) : Env :=
  let e' := { e with posted := e.posted ++ [p] }
  if e.posting then e' else drain B p.addr e'

/-- The environment's side of a read: drain, the power-interface check, the countdowns (R70 (a), R80 (e), R81). -/
def serveRead (B : BindingData) (addr : Nat) (e : Env) : Env := tick B addr (notePwr B addr (drain B addr e))

/-- Put an echo field's visible value into the answer if the field lives at the address (R80 (f)). -/
def overlay (B : BindingData) (e : Env) (addr : Nat) (w : Word) (S : StatusId) : Word :=
  if isEcho B S ∧ (descOf B S.field).addr = addr then ins (descOf B S.field) w (current B e S) else w

/-- The answer to a read: the stored word with the visible values of the echo fields (R80 (f)). -/
def answer (B : BindingData) (e : Env) (addr : Nat) : Word :=
  StatusId.all.foldl (overlay B e addr) (readWord e.regs addr)

end Sys2Proof.Machine
end

