-- ==== Sys2Proof/Machine/Ops.lean ====
section
/-! DEFINITION. The shared operations: the two transactions (20_memory R62, R63), the step kinds (30_encoding R98 to
R103), entering HALT (60_exceptions R203, 30_encoding R106) and, beside it, the only way out of it, reset
(70_reset_and_hazards R230), the control states' moves (R120, R192, R193), the fetch, and the ports (10_state R26). -/

namespace Sys2Proof.Machine

/-- The descriptor a step's operand names (R93, R110). -/
def resolve (s : State) : FieldRef → Descriptor
  | .field f => descOf s.bind f
  | .gate => gateDesc s.bind s.GA s.GB

/-- `T <- MemRead(addr, 4)`, with its event (R62). -/
def memRead (addr : Nat) (s : State) : State :=
  let e := serveRead s.bind addr s.env
  let d := answer s.bind e addr
  { s with env := e, T := d, trace := s.trace ++ [.read addr d] }

/-- `MemWrite(addr, 4, v)`, with its event (R63). -/
def memWrite (addr : Nat) (v : Word) (s : State) : State :=
  { s with env := acceptWrite s.bind ⟨addr, v⟩ s.env, trace := s.trace ++ [.write addr v] }

/-- A transaction's move happens only when the bus acknowledges; until then the block holds its request (R27, R202). -/
def onAck (move : State → State) (s : State) : State := if s.ports.busAck then move s else s

/-- `PCNT <- 0; ST <- next`: a step completes (R98 to R103). -/
def goto (next : Code) (s : State) : State := { s with PCNT := 0, ST := next }

/-- TAKING THE EXCEPTION: `FAIL <- ST; TO <- 1; ST <- 0x1E; PH <- 0`, `PCNT` and `T` kept (R203, R208); the same move
for an illegal code (R106). -/
def enterHalt (s : State) : State := { s with FAIL := s.ST, TO := true, ST := 0x1E, PH := false }

/-- RETURN FROM IT: reset alone leaves HALT (R209). Every register of R20 takes its value of R55; the external
registers, `POSTED`, the ports' levels and the trace stay (R230, R231). -/
def blockReset (s : State) : State :=
  { s with
    ST := 0x00, PH := false, T := 0x00000000, PCNT := 0, FAIL := 0x00, DN := false, TO := false, HIT := false,
    GA := 0, GB := 0 }

/-- SETF's write half, then whatever the step adds when its write is acknowledged (R98, R177, R192). -/
def setfWrite (F : Descriptor) (v : Word) (next : Code) (finish : State → State) (s : State) : State :=
  finish (goto next { memWrite F.addr (ins F s.T v) s with PH := false })

/-- SETF (R98): the read half when `PH` is 0, the write half when it is 1. `finish` is what the step adds at the
acknowledgement of its write: `DN` for S9B, `HIT` and `gate_ack_o` for G1, nothing for the others. -/
def setf (F : FieldRef) (V : ValSel) (next : Code) (finish : State → State) : State → State :=
  onAck fun s =>
    if s.PH then setfWrite (resolve s F) (valOf s.bind V) next finish s
    else { memRead (resolve s F).addr s with PH := true }

/-- RDBK (R99). -/
def rdbk (F : FieldRef) (next : Code) : State → State :=
  onAck fun s => goto next (memRead (resolve s F).addr s)

/-- WAIT (R100): the match is tested before the bound (R207). -/
def wait (F : FieldRef) (V : ValSel) (next : Code) : State → State :=
  onAck fun s =>
    let r := memRead (resolve s F).addr s
    if fld (resolve s F) r.T = valOf s.bind V then goto next r
    else if s.bind.pollMax = 0 then r
    else
      let r' := { r with PCNT := r.PCNT + 1 }
      if r'.PCNT = s.bind.pollMax then enterHalt r' else r'

/-- A skip step under a comparison of the field read with the value (R101 to R103). -/
def skipIf (cmp : Word → Word → Bool) (F : FieldRef) (V : ValSel) (next alt : Code) : State → State :=
  onAck fun s =>
    let r := memRead (resolve s F).addr s
    goto (if cmp (fld (resolve s F) r.T) (valOf s.bind V) then alt else next) r

/-- SKEQ (R101). -/
def skeq : FieldRef → ValSel → Code → Code → State → State := skipIf fun x v => decide (x = v)

/-- SKGE, unsigned (R102, R107). -/
def skge : FieldRef → ValSel → Code → Code → State → State := skipIf fun x v => decide (v.toNat ≤ x.toNat)

/-- SKLE, unsigned (R103, R107). -/
def skle : FieldRef → ValSel → Code → Code → State → State := skipIf fun x v => decide (x.toNat ≤ v.toNat)

/-- IDLE's move (R120). -/
def idleMove (s : State) : State :=
  if !s.ports.rst && s.ports.start then { s with PH := false, PCNT := 0, ST := 0x01 } else s

/-- DONE's move: a gate request that hits goes to G1, one that misses is acknowledged at once, and without a request
nothing happens (R139, R191 to R193). -/
def doneMove (s : State) : State :=
  if s.ports.gateReq then
    match gateLookup s.bind s.ports.gateId with
    | some g =>
      { s with GA := s.bind.bankAddr.get g.bank, GB := BitVec.ofNat 5 g.bit, PH := false, ST := 0x60 }
    | none => ackGate false s
  else s

/-- The step `ST` codes: the block's 'fetch' (R22, R74, R90). -/
def fetch (s : State) : Option Instr := decode s.ST

/-- A transaction the block requests (R94). -/
inductive BusCmd where
  | read (addr : Nat)
  | write (addr : Nat) (wdata : Word)
  deriving DecidableEq, Repr

/-- What the bus ports carry in a state: `bus_req_o`, `bus_we_o`, `bus_addr_o`, `bus_wdata_o` (R26, R27, R94). -/
def busCmd (s : State) : Option BusCmd :=
  match (fetch s).map Instr.form with
  | some (.setf F V _) =>
    let d := resolve s F
    some (if s.PH then .write d.addr (ins d s.T (valOf s.bind V)) else .read d.addr)
  | some (.rdbk F _) | some (.wait F _ _) | some (.skeq F _ _ _) | some (.skge F _ _ _) | some (.skle F _ _ _) =>
    some (.read (resolve s F).addr)
  | some .ctrl | none => none

/-- `bus_req_o` (R26). -/
def busReqO (s : State) : Bool := (busCmd s).isSome

/-- `busy_o`: `ST` is none of IDLE, DONE, HALT (R26). -/
def busyO (s : State) : Bool := decide (s.ST ≠ 0x00) && decide (s.ST ≠ 0x1F) && decide (s.ST ≠ 0x1E)

/-- `done_o` (R26). -/
def doneO (s : State) : Bool := s.DN

/-- `timeout_o` (R26). -/
def timeoutO (s : State) : Bool := s.TO

/-- `state_o` (R26). -/
def stateO (s : State) : Code := s.ST

/-- `fail_o` (R26). -/
def failO (s : State) : Code := s.FAIL

/-- `gate_hit_o` (R26). -/
def gateHitO (s : State) : Bool := s.HIT

end Sys2Proof.Machine
end

