-- ==== Sys2Proof/Machine/Cgt.lean ====
section
/-! DEFINITION. The step of the clock-gate port (43_clock_gate_port R192). -/

namespace Sys2Proof.Machine

/-- G1: set the enable bit of a gate request that hits; `HIT` and `gate_ack_o` at the acknowledgement of the write (R192). -/
def execG1 (s : State) : Result := .next (setf .gate .one 0x1F (ackGate true) s)

end Sys2Proof.Machine
end

