-- ==== Sys2Proof/Machine/Csq.lean ====
section
/-! DEFINITION. The steps of the clock_sequencer (40_clock_sequencer R120 to R140). -/

namespace Sys2Proof.Machine

/-- IDLE: waits for `start_i`, then goes to S1A (R120). -/
def execIdle (s : State) : Result := .next (idleMove s)

/-- S1A: enable the power-interface clock (R121). -/
def execS1a (s : State) : Result := .next (setf (.field .pwrclkEn) .one 0x02 id s)

/-- S1B: read back the register just written; the data is discarded (R122). -/
def execS1b (s : State) : Result := .next (rdbk (.field .pwrclkEn) 0x03 s)

/-- S2A: configure voltage scaling (R123). -/
def execS2a (s : State) : Result := .next (setf (.field .vos) .vosTarget 0x04 id s)

/-- S2B: read back the voltage-scaling register; no comparison (R124). -/
def execS2b (s : State) : Result := .next (rdbk (.field .vos) 0x05 s)

/-- O1A: enable HSI (R125). -/
def execO1a (s : State) : Result := .next (setf (.field .hsiOn) .one 0x06 id s)

/-- O1B: wait for HSI ready (R126). -/
def execO1b (s : State) : Result := .next (wait (.field .hsiRdy) .one 0x07 s)

/-- O2A: skip O2B and O2C when the backup-domain protection is already disabled (R127). -/
def execO2a (s : State) : Result := .next (skeq (.field .bkpWpdis) .one 0x08 0x0A s)

/-- O2B: disable the backup-domain write protection (R128). -/
def execO2b (s : State) : Result := .next (setf (.field .bkpWpdis) .one 0x09 id s)

/-- O2C: wait until the flag reflects it (R129). -/
def execO2c (s : State) : Result := .next (wait (.field .bkpWpdis) .one 0x0A s)

/-- O3A: LSE drive strength to its lowest setting (R130). -/
def execO3a (s : State) : Result := .next (setf (.field .lseDrv) .lseDrvLowest 0x0B id s)

/-- O3B: enable LSE (R131). -/
def execO3b (s : State) : Result := .next (setf (.field .lseOn) .one 0x0C id s)

/-- O3C: wait until the LSE ENABLE flag echoes set, not a ready flag (R132). -/
def execO3c (s : State) : Result := .next (wait (.field .lseOn) .one 0x0D s)

/-- O4A: disable the LSE-as-system-clock mode (R133). -/
def execO4a (s : State) : Result := .next (setf (.field .lsesysEn) .zero 0x0E id s)

/-- O4B: wait until that mode's flag clears (R134). -/
def execO4b (s : State) : Result := .next (wait (.field .lsesysFlag) .zero 0x0F s)

/-- O5A: enable the internal 48 MHz oscillator (R135). -/
def execO5a (s : State) : Result := .next (setf (.field .hsi48On) .one 0x10 id s)

/-- O5B: wait for its ready flag, then hand over to the PCE (R136). -/
def execO5b (s : State) : Result := .next (wait (.field .hsi48Rdy) .one 0x20 s)

/-- S4A: skip S4B when the flash wait-states are at least the target (R137). -/
def execS4a (s : State) : Result := .next (skge (.field .flashWs) .wsTarget 0x12 0x40 s)

/-- S4B: raise the flash wait-states to the target (R138). -/
def execS4b (s : State) : Result := .next (setf (.field .flashWs) .wsTarget 0x40 id s)

/-- HALT: no transaction, no gate request, `start_i` ignored; only reset leaves it (R140). -/
def execHalt (s : State) : Result := .next s

/-- DONE: serves gate requests, ignores `start_i` (R139, R191 to R193). -/
def execDone (s : State) : Result := .next (doneMove s)

end Sys2Proof.Machine
end

