-- ==== Sys2Proof/Machine/Pce.lean ====
section
/-! DEFINITION. The steps of the pll_config_engine (41_pll_config_engine R150 to R155). -/

namespace Sys2Proof.Machine

/-- P1: disable the PLL (R150). DESIGN CHOICE: it goes on the same way where SYSCLK already runs from the PLL after a reset
of the block alone; what the chip then does is unknown (R231, U18; log entry 17). -/
def execP1 (s : State) : Result := .next (setf (.field .pllOn) .zero 0x21 id s)

/-- P2: wait until the PLL ready flag clears (R151). -/
def execP2 (s : State) : Result := .next (wait (.field .pllRdy) .zero 0x22 s)

/-- P3: program the PLL configuration in one masked write (R152). -/
def execP3 (s : State) : Result := .next (setf (.field .pllCfg) .pllCfg 0x23 id s)

/-- P4: enable the PLL (R153). -/
def execP4 (s : State) : Result := .next (setf (.field .pllOn) .one 0x24 id s)

/-- P5: enable the PLL's SYSCLK output (R154). -/
def execP5 (s : State) : Result := .next (setf (.field .pllSysoutEn) .one 0x25 id s)

/-- P6: wait for PLL ready, then hand back to the CSQ (R155). -/
def execP6 (s : State) : Result := .next (wait (.field .pllRdy) .one 0x11 s)

end Sys2Proof.Machine
end

