-- ==== Sys2Proof/Machine/Ptf.lean ====
section
/-! DEFINITION. The steps of the prescaler_transition_fsm (42_prescaler_transition_fsm R170 to R177). -/

namespace Sys2Proof.Machine

/-- S5: cap the AHB prescaler (R170). -/
def execS5 (s : State) : Result := .next (setf (.field .ahbPre) .ahbSafe 0x41 id s)

/-- S6A: select the PLL as SYSCLK source (R171). -/
def execS6a (s : State) : Result := .next (setf (.field .sysclkSw) .swPll 0x42 id s)

/-- S6B: wait until the switch status reports the PLL (R172). -/
def execS6b (s : State) : Result := .next (wait (.field .sysclkSws) .swsPll 0x43 s)

/-- S7: restore the AHB prescaler to divide-by-1 (R173). -/
def execS7 (s : State) : Result := .next (setf (.field .ahbPre) .ahbFinal 0x44 id s)

/-- S8A: skip S8B when the flash wait-states are at most the target (R174). -/
def execS8a (s : State) : Result := .next (skle (.field .flashWs) .wsTarget 0x45 0x46 s)

/-- S8B: lower the flash wait-states to the target (R175). -/
def execS8b (s : State) : Result := .next (setf (.field .flashWs) .wsTarget 0x46 id s)

/-- S9A: set the final APB1 prescaler (R176). -/
def execS9a (s : State) : Result := .next (setf (.field .apb1Pre) .apb1Final 0x47 id s)

/-- S9B: set the final APB2 prescaler and finish: `DN` at the acknowledgement of the write (R177). -/
def execS9b (s : State) : Result := .next (setf (.field .apb2Pre) .apb2Final 0x1F raiseDN s)

end Sys2Proof.Machine
end

