-- ==== Sys2Proof/Machine/Dispatch.lean ====
section
/-! DEFINITION. One arm per step of the table (30_encoding R97): the block's move in that step. -/

namespace Sys2Proof.Machine

def exec (i : Instr) (s : State) : Host.Outcome State Fault Refusal :=
  match i with
  | .idle => Sys2Proof.Machine.execIdle s
  | .s1a => Sys2Proof.Machine.execS1a s
  | .s1b => Sys2Proof.Machine.execS1b s
  | .s2a => Sys2Proof.Machine.execS2a s
  | .s2b => Sys2Proof.Machine.execS2b s
  | .o1a => Sys2Proof.Machine.execO1a s
  | .o1b => Sys2Proof.Machine.execO1b s
  | .o2a => Sys2Proof.Machine.execO2a s
  | .o2b => Sys2Proof.Machine.execO2b s
  | .o2c => Sys2Proof.Machine.execO2c s
  | .o3a => Sys2Proof.Machine.execO3a s
  | .o3b => Sys2Proof.Machine.execO3b s
  | .o3c => Sys2Proof.Machine.execO3c s
  | .o4a => Sys2Proof.Machine.execO4a s
  | .o4b => Sys2Proof.Machine.execO4b s
  | .o5a => Sys2Proof.Machine.execO5a s
  | .o5b => Sys2Proof.Machine.execO5b s
  | .s4a => Sys2Proof.Machine.execS4a s
  | .s4b => Sys2Proof.Machine.execS4b s
  | .halt => Sys2Proof.Machine.execHalt s
  | .done => Sys2Proof.Machine.execDone s
  | .p1 => Sys2Proof.Machine.execP1 s
  | .p2 => Sys2Proof.Machine.execP2 s
  | .p3 => Sys2Proof.Machine.execP3 s
  | .p4 => Sys2Proof.Machine.execP4 s
  | .p5 => Sys2Proof.Machine.execP5 s
  | .p6 => Sys2Proof.Machine.execP6 s
  | .s5 => Sys2Proof.Machine.execS5 s
  | .s6a => Sys2Proof.Machine.execS6a s
  | .s6b => Sys2Proof.Machine.execS6b s
  | .s7 => Sys2Proof.Machine.execS7 s
  | .s8a => Sys2Proof.Machine.execS8a s
  | .s8b => Sys2Proof.Machine.execS8b s
  | .s9a => Sys2Proof.Machine.execS9a s
  | .s9b => Sys2Proof.Machine.execS9b s
  | .g1 => Sys2Proof.Machine.execG1 s

end Sys2Proof.Machine
end

