-- ==== Sys2Proof/Machine/Agents.lean ====
section
/-! DEFINITION. What each agent's act does to the machine (00_scope R17): the block's clock edge with the priority of
60_exceptions R207, the host's and the driver's port changes (10_state R26), the environment's own acts (20_memory R70
(b), R78). -/

namespace Sys2Proof.Machine

/-- The block's clock edge: reset before everything (R207, R230), then the step that `ST` codes, and HALT for an illegal
code (R106). -/
def clockEdge (s : State) : Result :=
  if s.ports.rst then .next (blockReset s)
  else
    match fetch s with
    | some i => exec i s
    | none => .next (enterHalt s)

/-- A driver's request: `gate_id_i` is stable while `gate_req_i` is held, so a second one does not get in (R26, R191). -/
def requestGate (id : Nat) (s : State) : State :=
  if s.ports.gateReq then s
  else { s with ports := { s.ports with gateReq := true, gateId := id % 2 ^ s.bind.idw } }

/-- A status field set by the environment to any value, judged as R81 says. -/
def setStatus (B : BindingData) (S : StatusId) (v : Word) (e : Env) : Env := noteClocks B (setCurrent B e S v)

/-- A register's stored word changed by the environment itself, judged as R81 says. -/
def pokeReg (B : BindingData) (addr : Nat) (w : Word) (e : Env) : Env :=
  noteClocks B { e with regs := writeWord e.regs addr w }

/-- One act of one agent. -/
def perform (a : Act) (s : State) : Result :=
  match a with
  | .edge => clockEdge s
  | .setRst b => .next { s with ports := { s.ports with rst := b } }
  | .setStart b => .next { s with ports := { s.ports with start := b } }
  | .setAck b => .next { s with ports := { s.ports with busAck := b } }
  | .gateRequest id => .next (requestGate id s)
  | .applyPosted b => .next { s with env := applyOldest s.bind b s.env }
  | .settle S => .next { s with env := settle s.bind S s.env }
  | .status S v => .next { s with env := setStatus s.bind S v s.env }
  | .otherWrite a w => .next { s with env := applyWrite s.bind s.env ⟨a, w⟩ }
  | .poke a w => .next { s with env := pokeReg s.bind a w s.env }

/-- The next act of the schedule, or the block's clock edge when the schedule is empty (log entry 5). -/
def move (s : State) : Result :=
  match s.sched with
  | [] => clockEdge s
  | a :: rest => perform a { s with sched := rest }

/-- The state in which the block is about to take the step of a code: `ST` holds it, `PH` is 0 as on entry to every step
(R24; R20 counts `PH` to the program counter), and nothing else moves first. -/
def enterCode (c : Code) (s : State) : State :=
  { s with ST := c, PH := false, ports := { s.ports with rst := false }, sched := [] }

end Sys2Proof.Machine
end

