-- ==== Sys2Proof/Machine/Step.lean ====
section
/-! DEFINITION. One step of the machine, and the placing of a step code where the next step fetches it: in `ST` itself
(10_state R22, 20_memory R74). -/

namespace Sys2Proof.Machine

/-- One step: one act of one agent, or one move of the block. -/
def step (s : State) : Host.Outcome State Fault Refusal := move s

/-- The table word's low 7 bits placed in `ST` (log entry 14). -/
def State.withFetchWord (s : State) (nbits w : Nat) : State :=
  enterCode (BitVec.ofNat 7 (w % 2 ^ nbits)) s

end Sys2Proof.Machine
end

