-- ==== Sys2Proof/Safety.lean ====
section
/-! DEFINITION. The terms claims use: what marks a run as gone wrong (20_memory R81, 60_exceptions R200, R205), the start-up
requirements BOOT_OK (70_reset_and_hazards R232) and BIND_SAFE (R233), runs, the safety premises ENV_HOLD, ENV_RO,
ENV_SOLE (20_memory R78) and the nine liveness premises (R79), the invariants INV_FMAX, INV_WS, INV_PLLCFG, INV_PWRCLK
(R241, R243, R244, R245), what DONE guarantees (R246), and the block's own control invariant (10_state R22 to R25). -/

namespace Sys2Proof.Machine

/-- The run is marked as gone wrong: the block is in HALT by a failure (R200), or the environment has seen a violation
(R81). -/
def Marked (s : State) : Prop :=
  s.TO = true ∨ s.env.violPllCfg = true ∨ s.env.violWs = true ∨ s.env.violFmax = true ∨ s.env.violPwrclk = true

/-- A safe state: nothing marks the run. -/
def SafeState (s : State) : Prop := ¬ Marked s

/-- INV_FMAX in an environment state (R241). -/
abbrev InvFmax (B : BindingData) (m : Memory) : Prop :=
  fHclkUb B m ≤ B.fHclkMax ∧ fPclk1Ub B m ≤ B.fPclk1Max ∧ fPclk2Ub B m ≤ B.fPclk2Max

/-- INV_WS in an environment state (R243). -/
abbrev InvWs (B : BindingData) (m : Memory) : Prop :=
  wsRequired B (fSysclkUb B m) ≤ (fieldVal B m .flashWs).toNat

/-- The register block the table of R30 gives a field. -/
def blockColumn : FieldId → RegBlock
  | .vos | .bkpWpdis => .pwr
  | .flashWs => .flash
  | _ => .rcc

/-- `BLOCK_OF` gives every field the block of R30's table and every bank register RCC (R45, R68). -/
def BlocksAgree (B : BindingData) : Prop :=
  (∀ f, blockOf B (descOf B f).addr = blockColumn f) ∧ ∀ b : Fin 3, blockOf B (B.bankAddr.get b) = .rcc

/-- No gate bit lies under a descriptor but `F_PWRCLK_EN` (R195 allows that one). -/
def GateBitsApart (B : BindingData) : Prop :=
  ∀ g ∈ B.gateTable, ∀ f, f ≠ .pwrclkEn → (descOf B f).addr = B.bankAddr.get g.bank →
    (descOf B f).mask &&& ((1 : Word) <<< g.bit) = 0

/-- The fields of one bit in the table of R30. -/
def oneBitField : FieldId → Bool
  | .vos | .lseDrv | .pllCfg | .flashWs | .ahbPre | .sysclkSw | .sysclkSws | .apb1Pre | .apb2Pre => false
  | _ => true

/-- The binding gives every one-bit field of R30 a mask of one bit, which R9 does not ask. -/
def WidthsAgree (B : BindingData) : Prop :=
  ∀ f, oneBitField f = true → (descOf B f).mask = (1 : Word) <<< (descOf B f).pos.toNat

/-- A field lies in the backup domain (R75). -/
def backupDomain (B : BindingData) (f : FieldId) : Bool :=
  decide (f ∈ backupFields) || (decide (f = .lsesysFlag) && lsesysAliased B)

/-- A byte address lies in the word at an address (R61). -/
def InWord (a x : Nat) : Prop := a ≤ x ∧ x < a + 4

/-- BIND_SAFE (a) to (e) (R233); no rule can check (f). -/
structure BindSafe (B : BindingData) : Prop where
  wsTarget : wsRequired B (fPll B B.vPllCfg) ≤ B.vWsTarget.toNat
  hclk : fPll B B.vPllCfg ≤ B.fHclkMax
  capped : max B.fReset (fPll B B.vPllCfg) / DivTable.ratio B.divAhb B.vAhbSafe.toNat ≤ B.fHclkMax
  pclk1 : fPll B B.vPllCfg / DivTable.ratio B.divApb B.vApb1Final.toNat ≤ B.fPclk1Max
  pclk2 : fPll B B.vPllCfg / DivTable.ratio B.divApb B.vApb2Final.toNat ≤ B.fPclk2Max
  monotone : ∀ f g, f ≤ g → wsRequired B f ≤ wsRequired B g

/-- `V_WS_TARGET = ws_required(f_t)`: what BIND_SAFE (a) asks beyond safety, for the postcondition 'flash timing matches'
(R233). -/
def FlashTimingMatches (B : BindingData) : Prop := B.vWsTarget.toNat = wsRequired B (fPll B B.vPllCfg)

/-- BOOT_OK (b), (d) to (g) (R232). (a) holds of every binding by its type; (c) is `SoleSoFar`. By (d) no claim speaks of
a start with SYSCLK already on the PLL, of which R231 gives no effect (U18; log entry 17). -/
structure BootOk (s : State) : Prop where
  blockJustReset : blockReset s = s
  resetLow : s.ports.rst = false
  switchNotPll : switchRequested s.bind s.env.regs = false
  statusNotPll : switchReported s.bind s.env.regs = false
  waitStates : InvWs s.bind s.env.regs
  ratings : InvFmax s.bind s.env.regs
  apb1AtFinal : fPll s.bind s.bind.vPllCfg / apb1Ratio s.bind s.env.regs ≤ s.bind.fPclk1Max
  apb2AtFinal : fPll s.bind s.bind.vPllCfg / apb2Ratio s.bind s.env.regs ≤ s.bind.fPclk2Max
  drained : s.env.posted = []

/-- No countdown runs (R80). -/
def NoCountdown (t : Timers) : Prop := ∀ S, (timerOf t S).cnt = none

/-- The environment as R80 and R81 start it: `swsInit` is the initial status, echo fields show their stored values, no
countdown runs, no violation is flagged. -/
structure EnvStarts (B : BindingData) (e : Env) : Prop where
  swsInit : e.swsInit = fieldVal B e.regs .sysclkSws
  echoShown : ∀ S, isEcho B S = true → current B e S = target B e S
  still : NoCountdown e.timers
  noPllCfg : e.violPllCfg = false
  noWs : e.violWs = false
  noFmax : e.violFmax = false
  noPwrclk : e.violPwrclk = false

/-! ### Runs -/

/-- `k` steps of the machine. -/
def runFor : Nat → State → Result
  | 0, s => .next s
  | k + 1, s =>
    match step s with
    | .next t => runFor k t
    | .fault r => .fault r
    | .refused r => .refused r

/-- `t` is a state of a run from `s`. -/
def Reaches (s t : State) : Prop := ∃ k, runFor k s = .next t

/-- `t` is a state of a run from `s` whose states so far all met a premise on what moves next. -/
inductive ReachesUnder (P : State → Prop) (s : State) : State → Prop where
  | refl : ReachesUnder P s s
  | tail {t u : State} : ReachesUnder P s t → P t → step t = .next u → ReachesUnder P s u

/-- The state after `k` steps; a step that answered with no next state would end there (none does, log entry 6). -/
def stateAfter : Nat → State → State
  | 0, s => s
  | k + 1, s =>
    match step s with
    | .next t => stateAfter k t
    | _ => s

/-! ### The safety premises of R78, on the act about to move -/

/-- The fields whose stored bits are the block's: owners `blk` and `blk+echo` (R30, R37). -/
def BlockOwned (B : BindingData) (f : FieldId) : Prop := f ∉ envFields B

/-- ENV_HOLD (R78): the environment by itself changes no bit that belongs to the block. -/
def EnvHold (s : State) : Act → Prop
  | .poke a w => ∀ f, BlockOwned s.bind f →
      fieldVal s.bind (pokeReg s.bind a w s.env).regs f = fieldVal s.bind s.env.regs f
  | _ => True

/-- Every status field shows afterwards what it showed before, or what its driver asked for. -/
def StatusFollows (B : BindingData) (before after : Env) : Prop :=
  ∀ S, current B after S = current B before S ∨ current B after S = target B before S

/-- ENV_RO (R78): the environment moves a status field only toward its driver, whatever kind of act does it. Which code
matches an `F_SYSCLK_SW` other than the PLL's is the model's choice (`target`, log entry 18). -/
def EnvRo (s : State) : Act → Prop
  | .poke a w => StatusFollows s.bind s.env (pokeReg s.bind a w s.env)
  | .status S v => StatusFollows s.bind s.env (setStatus s.bind S v s.env)
  | _ => True

/-- A word at a byte address overlaps a register of the binding (R9, R78). -/
def TouchesBinding (B : BindingData) (a : Nat) : Prop :=
  (∃ f, (descOf B f).addr < a + 4 ∧ a < (descOf B f).addr + 4) ∨
  ∃ b : Fin 3, B.bankAddr.get b < a + 4 ∧ a < B.bankAddr.get b + 4

/-- ENV_SOLE (R78): no other agent writes a register of the binding between leaving IDLE and entering DONE. -/
def EnvSole (s : State) : Act → Prop
  | .otherWrite a _ => TouchesBinding s.bind a → s.ST = 0x00 ∨ s.ST = 0x1F ∨ s.ST = 0x60
  | _ => True

/-- ENV_SOLE with what extends it at both ends: from reset on (BOOT_OK (c), R232), and after DONE up to the state a claim
looks at (R254). Writes elsewhere are free. -/
def SoleSoFar (s : State) : Act → Prop
  | .otherWrite a _ => ¬ TouchesBinding s.bind a
  | _ => True

/-- The act does not reset the block (R231: a claim is about one start of the sequence). -/
def NoReset : Act → Prop
  | .setRst b => b = false
  | _ => True

/-- The act about to move meets a premise. The block's own edge, of an empty schedule, meets every one. -/
def NextAct (P : State → Act → Prop) (s : State) : Prop := ∀ a rest, s.sched = a :: rest → P s a

/-- What the safety claims of R242 to R246 assume of every act of a run. -/
def EnvPremises : State → Prop := NextAct fun s a => EnvHold s a ∧ EnvRo s a ∧ EnvSole s a ∧ SoleSoFar s a ∧ NoReset a

/-- Another master's write stays off the PWR block too, of which INV_PWRCLK (R245) speaks as a whole. -/
def OffPowerBlock (s : State) : Act → Prop
  | .otherWrite a _ => blockOf s.bind a ≠ .pwr
  | _ => True

/-- A gate request with this identity sets this bit of the bank register at this address (R190, R192). -/
def AsksForBit (B : BindingData) (id a n : Nat) : Prop :=
  ∃ g, gateLookup B id = some g ∧ B.bankAddr.get g.bank = a ∧ g.bit = n

/-- The act leaves a bit of the word at an address as it is: no change by itself, no other master's write, no gate request
for that bit. -/
def LeavesBit (a n : Nat) (s : State) : Act → Prop
  | .poke x w => (readWord (pokeReg s.bind x w s.env).regs a).getLsbD n = (readWord s.env.regs a).getLsbD n
  | .otherWrite x w =>
    (readWord (applyWrite s.bind s.env ⟨x, w⟩).regs a).getLsbD n = (readWord s.env.regs a).getLsbD n
  | .gateRequest id => ¬ AsksForBit s.bind id a n
  | _ => True

/-- What the safety claims of R242 to R246 assume of a start state. -/
structure BringUpPremises (s : State) : Prop where
  boot : BootOk s
  start : EnvStarts s.bind s.env
  blocks : BlocksAgree s.bind
  gates : GateBitsApart s.bind
  widths : WidthsAgree s.bind

/-! ### The liveness premises of R79 -/

/-- LIVE of one WAIT step: if from some moment on the block stays in the step for ever, then some read it makes there
returns the awaited value (R79). -/
def Live (i : Instr) (s : State) : Prop :=
  ∀ f V next, i.form = .wait (.field f) V next →
    ∀ n, (∀ k, n ≤ k → (stateAfter k s).ST = encode i) →
      ∃ k d, n ≤ k ∧
        (stateAfter (k + 1) s).trace = (stateAfter k s).trace ++ [.read (descOf s.bind f).addr d] ∧
        fld (descOf s.bind f) d = valOf s.bind V

/-- The block moves next, not another agent. -/
def BlockMovesNext (s : State) : Prop := s.sched = [] ∨ ∃ rest, s.sched = .edge :: rest

/-- LIVE(BUS): every requested transaction is eventually acknowledged (R79). -/
def LiveBus (s : State) : Prop :=
  ∀ n, busReqO (stateAfter n s) = true →
    ∃ k, n ≤ k ∧ BlockMovesNext (stateAfter k s) ∧ (stateAfter k s).ports.rst = false ∧
      (stateAfter k s).ports.busAck = true

/-- The nine named liveness premises of R79 over the run from a state. -/
structure LivePremises (s : State) : Prop where
  o1b : Live .o1b s
  o2c : Live .o2c s
  o3c : Live .o3c s
  o4b : Live .o4b s
  o5b : Live .o5b s
  p2 : Live .p2 s
  p6 : Live .p6 s
  s6b : Live .s6b s
  bus : LiveBus s

/-! ### What a run ends with -/

/-- Every posted write applied, oldest first (R70 (c), R254). -/
def flush (B : BindingData) (e : Env) : Env := e.posted.foldl (applyWrite B) { e with posted := [] }

/-- The rows of R246's table, but the last, on the stored registers and the visible values. -/
structure DoneGuarantee (B : BindingData) (e : Env) : Prop where
  pwrclkEn : fieldVal B e.regs .pwrclkEn = 1
  vos : fieldVal B e.regs .vos = B.vVosTarget
  hsiOn : fieldVal B e.regs .hsiOn = 1
  hsiRdy : fieldVal B e.regs .hsiRdy = 1
  bkpWpdis : current B e .bkpWpdis = 1
  lseDrv : fieldVal B e.regs .lseDrv = B.vLseDrvLowest
  lseOn : current B e .lseOn = 1
  lsesysEn : fieldVal B e.regs .lsesysEn = 0
  lsesysFlag : current B e .lsesysFlag = 0
  hsi48On : fieldVal B e.regs .hsi48On = 1
  hsi48Rdy : fieldVal B e.regs .hsi48Rdy = 1
  pllCfg : fieldVal B e.regs .pllCfg = B.vPllCfg
  pllOn : fieldVal B e.regs .pllOn = 1
  pllSysoutEn : fieldVal B e.regs .pllSysoutEn = 1
  pllRdy : fieldVal B e.regs .pllRdy = 1
  flashWs : fieldVal B e.regs .flashWs = B.vWsTarget
  ahbPre : fieldVal B e.regs .ahbPre = B.vAhbFinal
  sysclkSw : fieldVal B e.regs .sysclkSw = B.vSwPll
  sysclkSws : fieldVal B e.regs .sysclkSws = B.vSwsPll
  apb1Pre : fieldVal B e.regs .apb1Pre = B.vApb1Final
  apb2Pre : fieldVal B e.regs .apb2Pre = B.vApb2Final

/-- Every status field shows what its driver asks for (R80). -/
def StatusSettled (B : BindingData) (e : Env) : Prop := ∀ S, current B e S = target B e S

/-- What a SETF step over a field does in each half of a row (R98): the read half, then the write half. -/
def ReadsThenWrites (i : Instr) (f : FieldId) (v : BindingData → Word) (next : Code) : Prop :=
  ∀ s : State, s.ports.busAck = true →
    (s.PH = false → exec i s = .next { memRead (descOf s.bind f).addr s with PH := true }) ∧
    (s.PH = true →
      exec i s = .next
        { memWrite (descOf s.bind f).addr (ins (descOf s.bind f) s.T (v s.bind)) s with
          PH := false, PCNT := 0, ST := next })

/-- What a WAIT step does with each answer (R100, R203): the match is tested before the bound. -/
def PollsUntil (i : Instr) (f : FieldId) (v : BindingData → Word) (next : Code) : Prop :=
  ∀ s : State, s.ports.busAck = true →
    let r := memRead (descOf s.bind f).addr s
    (fld (descOf s.bind f) r.T = v s.bind → exec i s = .next { r with PCNT := 0, ST := next }) ∧
    (fld (descOf s.bind f) r.T ≠ v s.bind → s.bind.pollMax = 0 → exec i s = .next r) ∧
    (fld (descOf s.bind f) r.T ≠ v s.bind → s.bind.pollMax ≠ 0 → s.PCNT + 1 ≠ s.bind.pollMax →
      exec i s = .next { r with PCNT := s.PCNT + 1 }) ∧
    (fld (descOf s.bind f) r.T ≠ v s.bind → s.bind.pollMax ≠ 0 → s.PCNT + 1 = s.bind.pollMax →
      exec i s = .next { r with PCNT := s.bind.pollMax, FAIL := s.ST, TO := true, ST := 0x1E, PH := false })

/-- The step a code stands for is a WAIT step. -/
def waitCode (c : Code) : Bool := ((decode c).map Instr.isWait).getD false

/-- The step a code stands for is a SETF step. -/
def setfCode (c : Code) : Bool := ((decode c).map Instr.isSetf).getD false

/-- The block's control invariant: `ST` is a listed code (R22, R108), `PH` is 1 only inside a SETF step (R24), `PCNT`
counts only inside a WAIT step or stands at `POLL_MAX` in HALT (R25, R203), `TO` and `FAIL` say HALT and its cause
(R23, R203, R204), `DN` says bring-up is over (R23, R139), and `GA`, `GB` hold a table row's descriptor in G1 (R110). -/
structure ControlInv (s : State) : Prop where
  listed : (decode s.ST).isSome = true
  phase : s.PH = true → setfCode s.ST = true
  pollIdle : s.PCNT ≠ 0 → waitCode s.ST = true ∨ s.ST = 0x1E
  pollBound : waitCode s.ST = true → s.PCNT ≠ 0 → s.PCNT.toNat < s.bind.pollMax.toNat
  haltCount : s.ST = 0x1E → s.PCNT = s.bind.pollMax ∧ s.bind.pollMax ≠ 0
  timeout : s.TO = true ↔ s.ST = 0x1E
  noCause : s.TO = false → s.FAIL = 0
  cause : s.TO = true → waitCode s.FAIL = true
  finished : s.DN = true ↔ (s.ST = 0x1F ∨ s.ST = 0x60)
  hitAfterDone : s.HIT = true → s.DN = true
  gate : s.ST = 0x60 → ∃ g ∈ s.bind.gateTable, s.GA = s.bind.bankAddr.get g.bank ∧ s.GB = BitVec.ofNat 5 g.bit

end Sys2Proof.Machine
end

