-- ==== Sys2Proof/Certificates/Slice0/Obligations.lean ====
section
/-! DEFINITION. The statements for the provers. Each docstring names the rules it rests on. `Binding` holds only
well-formed bindings (00_scope R9), so a statement over a state or over a binding's data assumes R9 and no more. -/

open Sys2Proof Sys2Proof.Machine

/-! ### Codes (30_encoding) -/

/-- R90, R91, R97, R106: codes and steps agree in both directions, the unit and the index are the code's two parts, and
92 codes stand for no step. -/
def Obligations.StepCodesRoundTrip : Prop :=
  (∀ i, decode (encode i) = some i) ∧ (∀ c i, decode c = some i → encode i = c) ∧
  (∀ c i, decode c = some i → c.extractLsb' 5 2 = i.unit.bits ∧ c.extractLsb' 0 5 = i.index) ∧
  ((List.range 128).filter fun n => (decode (BitVec.ofNat 7 n)).isNone).length = 92

/-- R97: some of the table's codes written out in bits, and an illegal one. -/
def Obligations.WrittenCodesDecode : Prop :=
  decode 0b0000000#7 = some .idle ∧ decode 0b0000001#7 = some .s1a ∧ decode 0b0000111#7 = some .o2a ∧
  decode 0b0010000#7 = some .o5b ∧ decode 0b0010001#7 = some .s4a ∧ decode 0b0011110#7 = some .halt ∧
  decode 0b0011111#7 = some .done ∧ decode 0b0100000#7 = some .p1 ∧ decode 0b0100101#7 = some .p6 ∧
  decode 0b1000000#7 = some .s5 ∧ decode 0b1000111#7 = some .s9b ∧ decode 0b1100000#7 = some .g1 ∧
  decode 0b0010011#7 = none

/-- R104: the expansions of `initCLK` are paths of the table from S1A to DONE, with each bracketed group in or out. -/
def Obligations.BringUpPathsFollowTable : Prop :=
  ∀ u r l, (initClkSteps u r l).head? = some .s1a ∧ (initClkSteps u r l).getLast? = some .done ∧
    List.IsChain (fun i j => encode j ∈ i.successors) (initClkSteps u r l)

/-- R22, R90 and log entry 5: when the code in `ST` is a listed step's and the block is clocked, one step of the machine
is `exec` of that step; an act `edge` at the head of the schedule clocks the block too. -/
def Obligations.StepRunsDecodedStep : Prop :=
  ∀ (s : State) (i : Instr), decode s.ST = some i → s.ports.rst = false →
    (s.sched = [] → step s = exec i s) ∧
    (∀ rest, s.sched = .edge :: rest → step s = exec i { s with sched := rest })

/-- R106 and log entry 5: at an illegal code the block requests nothing and, when clocked, moves to HALT; an act `edge` at
the head of the schedule clocks the block too. -/
def Obligations.IllegalCodeEntersHalt : Prop :=
  ∀ s : State, decode s.ST = none → s.ports.rst = false →
    busCmd s = none ∧
    (s.sched = [] → step s = .next { s with FAIL := s.ST, TO := true, ST := 0x1E, PH := false }) ∧
    (∀ rest, s.sched = .edge :: rest →
      step s = .next { s with FAIL := s.ST, TO := true, ST := 0x1E, PH := false, sched := rest })

/-- Log entry 14: the code of a step, placed by `withFetchWord`, is the instruction its table word decodes to, and the
next step runs it with `PH` 0. -/
def Obligations.PlacedCodeRunsNext : Prop :=
  ∀ (i : Instr) (s : State), decodeTableWord 8 (encode i).toNat = some i ∧
    (s.withFetchWord 8 (encode i).toNat).PH = false ∧
    step (s.withFetchWord 8 (encode i).toNat) = exec i (s.withFetchWord 8 (encode i).toNat)

/-! ### The steps, one next state each -/

/-- R121, R123, R125, R128, R130, R131, R133, R135, R138: both halves of the SETF steps of the CSQ. -/
def Obligations.CsqSetfStepsReadThenWrite : Prop :=
  ReadsThenWrites .s1a .pwrclkEn (fun _ => 1) 0x02 ∧
  ReadsThenWrites .s2a .vos (fun B => B.vVosTarget) 0x04 ∧
  ReadsThenWrites .o1a .hsiOn (fun _ => 1) 0x06 ∧
  ReadsThenWrites .o2b .bkpWpdis (fun _ => 1) 0x09 ∧
  ReadsThenWrites .o3a .lseDrv (fun B => B.vLseDrvLowest) 0x0B ∧
  ReadsThenWrites .o3b .lseOn (fun _ => 1) 0x0C ∧
  ReadsThenWrites .o4a .lsesysEn (fun _ => 0) 0x0E ∧
  ReadsThenWrites .o5a .hsi48On (fun _ => 1) 0x10 ∧
  ReadsThenWrites .s4b .flashWs (fun B => B.vWsTarget) 0x40

/-- R150, R152 to R154: both halves of the SETF steps of the PCE. -/
def Obligations.PceSetfStepsReadThenWrite : Prop :=
  ReadsThenWrites .p1 .pllOn (fun _ => 0) 0x21 ∧
  ReadsThenWrites .p3 .pllCfg (fun B => B.vPllCfg) 0x23 ∧
  ReadsThenWrites .p4 .pllOn (fun _ => 1) 0x24 ∧
  ReadsThenWrites .p5 .pllSysoutEn (fun _ => 1) 0x25

/-- R170, R171, R173, R175, R176: both halves of the SETF steps of the PTF but S9B. -/
def Obligations.PtfSetfStepsReadThenWrite : Prop :=
  ReadsThenWrites .s5 .ahbPre (fun B => B.vAhbSafe) 0x41 ∧
  ReadsThenWrites .s6a .sysclkSw (fun B => B.vSwPll) 0x42 ∧
  ReadsThenWrites .s7 .ahbPre (fun B => B.vAhbFinal) 0x44 ∧
  ReadsThenWrites .s8b .flashWs (fun B => B.vWsTarget) 0x46 ∧
  ReadsThenWrites .s9a .apb1Pre (fun B => B.vApb1Final) 0x47

/-- R177: S9B's write sets `DN` together with the move to DONE. -/
def Obligations.LastStepSetsDone : Prop :=
  ∀ s : State, s.ports.busAck = true →
    let F := s.bind.fields.apb2Pre
    (s.PH = false → exec .s9b s = .next { memRead F.addr s with PH := true }) ∧
    (s.PH = true →
      exec .s9b s = .next
        { memWrite F.addr (ins F s.T s.bind.vApb2Final) s with PH := false, PCNT := 0, ST := 0x1F, DN := true })

/-- R110, R192: G1 writes `T | (1 << GB)` at the bank register held in `GA`, then gives `HIT` and `gate_ack_o`; that the
request falls with the acknowledgement is log entry 9, and the event in the trace log entry 10. -/
def Obligations.GateStepSetsItsBit : Prop :=
  ∀ s : State, s.ports.busAck = true → s.GA < 2 ^ s.bind.aw →
    (s.PH = false → exec .g1 s = .next { memRead s.GA s with PH := true }) ∧
    (s.PH = true →
      let w := memWrite s.GA (s.T ||| ((1 : Word) <<< s.GB.toNat)) s
      exec .g1 s = .next
        { w with
          PH := false, PCNT := 0, ST := 0x1F, HIT := true, trace := w.trace ++ [.gateAck true],
          ports := { s.ports with gateReq := false } })

/-- R99, R122, R124: the read-backs S1B and S2B latch the word, compare nothing and go on. -/
def Obligations.ReadBackStepsGoOn : Prop :=
  ∀ s : State, s.ports.busAck = true →
    exec .s1b s = .next { memRead s.bind.fields.pwrclkEn.addr s with PCNT := 0, ST := 0x03 } ∧
    exec .s2b s = .next { memRead s.bind.fields.vos.addr s with PCNT := 0, ST := 0x05 }

/-- R126, R129, R132, R134, R136, R151, R155, R172 with R100, R201, R203: the eight WAIT steps under each answer. -/
def Obligations.WaitStepsPoll : Prop :=
  PollsUntil .o1b .hsiRdy (fun _ => 1) 0x07 ∧
  PollsUntil .o2c .bkpWpdis (fun _ => 1) 0x0A ∧
  PollsUntil .o3c .lseOn (fun _ => 1) 0x0D ∧
  PollsUntil .o4b .lsesysFlag (fun _ => 0) 0x0F ∧
  PollsUntil .o5b .hsi48Rdy (fun _ => 1) 0x20 ∧
  PollsUntil .p2 .pllRdy (fun _ => 0) 0x22 ∧
  PollsUntil .p6 .pllRdy (fun _ => 1) 0x11 ∧
  PollsUntil .s6b .sysclkSws (fun B => B.vSwsPll) 0x43

/-- R127, R137, R174: O2A skips at equality, S4A at the target or above, S8A at the target or below. -/
def Obligations.SkipStepsCompare : Prop :=
  ∀ s : State, s.ports.busAck = true →
    let b := memRead s.bind.fields.bkpWpdis.addr s
    let f := memRead s.bind.fields.flashWs.addr s
    exec .o2a s = .next { b with PCNT := 0, ST := if fld s.bind.fields.bkpWpdis b.T = 1 then 0x0A else 0x08 } ∧
    exec .s4a s = .next
      { f with PCNT := 0, ST := if s.bind.vWsTarget ≤ fld s.bind.fields.flashWs f.T then 0x40 else 0x12 } ∧
    exec .s8a s = .next
      { f with PCNT := 0, ST := if fld s.bind.fields.flashWs f.T ≤ s.bind.vWsTarget then 0x46 else 0x45 }

/-- R120: IDLE starts when `rst_i` is 0 and `start_i` is 1, and otherwise stays. -/
def Obligations.IdleWaitsForStart : Prop :=
  ∀ s : State,
    (s.ports.rst = false ∧ s.ports.start = true → exec .idle s = .next { s with PH := false, PCNT := 0, ST := 0x01 }) ∧
    (¬(s.ports.rst = false ∧ s.ports.start = true) → exec .idle s = .next s)

/-- R139, R192, R193: DONE without a request stays; a request that hits goes to G1 with the row's bank and bit; a request
that misses is acknowledged with `HIT` 0, and nothing in the environment changes. That the request falls with the
acknowledgement is log entry 9, and the event in the trace log entry 10. -/
def Obligations.DoneServesGateRequests : Prop :=
  ∀ s : State,
    (s.ports.gateReq = false → exec .done s = .next s) ∧
    (∀ g, s.ports.gateReq = true → gateLookup s.bind s.ports.gateId = some g →
      exec .done s = .next
        { s with GA := s.bind.bankAddr.get g.bank, GB := BitVec.ofNat 5 g.bit, PH := false, ST := 0x60 }) ∧
    (s.ports.gateReq = true → gateLookup s.bind s.ports.gateId = none →
      exec .done s = .next
        { s with HIT := false, trace := s.trace ++ [.gateAck false], ports := { s.ports with gateReq := false } })

/-- R140: HALT does nothing, whatever `start_i` and the gate port say. -/
def Obligations.HaltDoesNothing : Prop := ∀ s : State, exec .halt s = .next s

/-- R27, R202: while the bus does not acknowledge, a step that issues transactions changes nothing and its request
stands. -/
def Obligations.SilentBusHoldsTheBlock : Prop :=
  ∀ (i : Instr) (s : State), decode s.ST = some i → i.form ≠ .ctrl → s.ports.busAck = false →
    exec i s = .next s ∧ busReqO s = true

/-- R98: the kind SETF over every operand. The read half latches the word, the write half issues the masked word, even
where it equals the word read; bits outside the mask go out as read, and the values the table writes fit their fields;
a silent bus keeps the block in the step. -/
def Obligations.SetfKindReadsThenWrites : Prop :=
  ∀ (F : FieldRef) (V : ValSel) (next : Code) (s : State),
    let D := resolve s F
    let w := ins D s.T (valOf s.bind V)
    (s.ports.busAck = false → setf F V next id s = s) ∧
    (s.ports.busAck = true → s.PH = false → setf F V next id s = { memRead D.addr s with PH := true }) ∧
    (s.ports.busAck = true → s.PH = true →
      setf F V next id s = { memWrite D.addr w s with PH := false, PCNT := 0, ST := next } ∧
      (setf F V next id s).trace = s.trace ++ [.write D.addr w]) ∧
    w &&& ~~~D.mask = s.T &&& ~~~D.mask ∧
    (∀ i f n, Instr.form i = .setf (.field f) V n → fits (descOf s.bind f) (valOf s.bind V) = true)

/-- R100: the kind WAIT over every operand. A match completes; a mismatch repeats for ever with `POLL_MAX` 0, and else
counts; the count that reaches `POLL_MAX` enters HALT with the step's code as the cause. -/
def Obligations.WaitKindMatchesBeforeTheBound : Prop :=
  ∀ (F : FieldRef) (V : ValSel) (next : Code) (s : State), s.ports.busAck = true →
    let r := memRead (resolve s F).addr s
    wait F V next s =
      if fld (resolve s F) r.T = valOf s.bind V then { r with PCNT := 0, ST := next }
      else if s.bind.pollMax = 0 then r
      else if s.PCNT + 1 = s.bind.pollMax then
        { r with PCNT := s.PCNT + 1, FAIL := s.ST, TO := true, ST := 0x1E, PH := false }
      else { r with PCNT := s.PCNT + 1 }

/-- R101, R102, R103: the three skip kinds over every operand. -/
def Obligations.SkipKindsCompareUnsigned : Prop :=
  ∀ (F : FieldRef) (V : ValSel) (next alt : Code) (s : State), s.ports.busAck = true →
    let r := memRead (resolve s F).addr s
    let x := fld (resolve s F) r.T
    skeq F V next alt s = { r with PCNT := 0, ST := if x = valOf s.bind V then alt else next } ∧
    skge F V next alt s = { r with PCNT := 0, ST := if valOf s.bind V ≤ x then alt else next } ∧
    skle F V next alt s = { r with PCNT := 0, ST := if x ≤ valOf s.bind V then alt else next }

/-! ### Fields and registers -/

/-- R12, R98: bits outside the mask stay as read, writing back what was read changes nothing, the last insertion wins,
and what fits is what is read again. -/
def Obligations.FieldInsertionLaws : Prop :=
  ∀ F : Descriptor, contiguousAt F.mask F.pos = true → ∀ w v u : Word,
    ins F w v &&& ~~~F.mask = w &&& ~~~F.mask ∧ ins F w (fld F w) = w ∧ ins F (ins F w v) u = ins F w u ∧
    (fits F v = true → fld F (ins F w v) = v)

/-- R62, R67, R70 (a), (c): a read applies the posted writes of its scope, oldest first, and keeps the rest in order; then
only status fields of the word read can change, and none does where no countdown stands at 0 there; the answer is latched
in `T` and in the trace. -/
def Obligations.ReadDrainsItsScope : Prop :=
  ∀ (a : Nat) (s : State), let scope := s.env.posted.filter (inScope s.bind a)
    let rest := s.env.posted.filter (fun p => !inScope s.bind a p)
    let d := scope.foldl (applyWrite s.bind) { s.env with posted := rest }
    let t := memRead a s
    t.env.posted = rest ∧
    (∀ x, ¬ InWord a x → readByte t.env.regs x = readByte d.regs x) ∧
    ((∀ S, (descOf s.bind S.field).addr = a → (timerOf d.timers S).cnt ≠ some 0) → t.env.regs = d.regs) ∧
    t.T = answer s.bind t.env a ∧ t.trace = s.trace ++ [.read a t.T]

/-- R75, R76, R77: what an applied write leaves in each field at its address, by owner class and protection; bits under
no field take the write's bits, and bytes elsewhere stay. -/
def Obligations.AppliedWriteByOwner : Prop :=
  ∀ (b : Binding) (e : Env) (p : PostedWrite),
    (∀ f, (descOf b.data f).addr = p.addr →
      fieldVal b.data (applyWrite b.data e p).regs f =
        if f ∈ envFields b.data ∨ (current b.data e .bkpWpdis = 0 ∧ backupDomain b.data f = true) ∨
            (f = .pllCfg ∧ pllCfgBroken b.data e.regs p = true)
        then fieldVal b.data e.regs f
        else fld (descOf b.data f) p.data) ∧
    (∀ n, (∀ f, (descOf b.data f).addr = p.addr → (descOf b.data f).mask.getLsbD n = false) →
      (readWord (applyWrite b.data e p).regs p.addr).getLsbD n = p.data.getLsbD n) ∧
    (∀ x, ¬ InWord p.addr x → readByte (applyWrite b.data e p).regs x = readByte e.regs x)

/-- R76, R81: a write that would change a configuration bit while the PLL is enabled or ready leaves the configuration
and sets VIOL_PLLCFG; one that presents the stored bits sets nothing. -/
def Obligations.PllConfigurationLock : Prop :=
  ∀ (b : Binding) (e : Env) (p : PostedWrite), p.addr = b.data.fields.pllCfg.addr →
    fieldVal b.data e.regs .pllOn = 1 ∨ fieldVal b.data e.regs .pllRdy = 1 →
    fieldVal b.data (applyWrite b.data e p).regs .pllCfg = fieldVal b.data e.regs .pllCfg ∧
    ((applyWrite b.data e p).violPllCfg = true ↔
      e.violPllCfg = true ∨ fld b.data.fields.pllCfg p.data ≠ fieldVal b.data e.regs .pllCfg)

/-- R80 (f), R37: an answer shows an echo field's visible value and every other field's stored value. -/
def Obligations.AnswerShowsVisibleValues : Prop :=
  ∀ (b : Binding) (e : Env),
    (∀ S, isEcho b.data S = true →
      fld (descOf b.data S.field) (answer b.data e (descOf b.data S.field).addr) = current b.data e S) ∧
    (∀ f, (∀ S, isEcho b.data S = true → descOf b.data S.field ≠ descOf b.data f) →
      fld (descOf b.data f) (answer b.data e (descOf b.data f).addr) = fieldVal b.data e.regs f)

/-- R80 (e): with `CNT[S]` at `k` and nothing posted, `k` reads of the address still show the old value and the next one
shows what the driver asks for. -/
def Obligations.CountdownCountsReads : Prop :=
  ∀ (b : Binding) (e : Env) (S : StatusId) (k : Nat), e.posted = [] → (timerOf e.timers S).cnt = some k →
    fits (descOf b.data S.field) (target b.data e S) = true →
    (∀ j ≤ k, current b.data ((serveRead b.data (descOf b.data S.field).addr)^[j] e) S = current b.data e S) ∧
    current b.data ((serveRead b.data (descOf b.data S.field).addr)^[k + 1] e) S = target b.data e S

/-- R80 (d), log entry 11: an applied write starts a status field's countdown at its latency where it moves what the
driver asks for, to something other than the value shown, and leaves every other countdown. -/
def Obligations.DriverWriteStartsTheCountdown : Prop :=
  ∀ (B : BindingData) (e : Env) (p : PostedWrite) (S : StatusId), let e' := applyWrite B e p
    (timerOf e'.timers S).cnt =
      if target B e' S ≠ target B e S ∧ target B e' S ≠ current B e' S then (timerOf e.timers S).lat
      else (timerOf e.timers S).cnt

/-- R81, log entry 12: when each violation flag is set. VIOL_PWRCLK: a transaction reaches the PWR block (a read once its
drain is done, a write when it is applied) while F_PWRCLK_EN is 0. VIOL_WS and VIOL_FMAX: after an applied write, a change
of a status field, or a change of a stored word by itself, the new REGS breaks INV_WS or INV_FMAX. VIOL_PLLCFG (R76): an
applied write to the address of F_PLL_CFG presents other configuration bits while F_PLL_ON or F_PLL_RDY is 1. -/
def Obligations.ViolationFlagsAreRaised : Prop :=
  ∀ (B : BindingData) (e : Env),
    (∀ a, let d := drain B a e
      ((serveRead B a e).violPwrclk = true ↔
        d.violPwrclk = true ∨ (blockOf B a = .pwr ∧ fieldVal B d.regs .pwrclkEn = 0)) ∧
      (e.posted = [] → ((serveRead B a e).violPwrclk = true ↔
        e.violPwrclk = true ∨ (blockOf B a = .pwr ∧ fieldVal B e.regs .pwrclkEn = 0))) ∧
      (serveRead B a e).violPllCfg = d.violPllCfg) ∧
    (∀ p, let w := applyWrite B e p
      (w.violPwrclk = true ↔ e.violPwrclk = true ∨ (blockOf B p.addr = .pwr ∧ fieldVal B e.regs .pwrclkEn = 0)) ∧
      (w.violPllCfg = true ↔ e.violPllCfg = true ∨
        (p.addr = B.fields.pllCfg.addr ∧
          p.data &&& B.fields.pllCfg.mask ≠ readWord e.regs p.addr &&& B.fields.pllCfg.mask ∧
          (fieldVal B e.regs .pllOn = 1 ∨ fieldVal B e.regs .pllRdy = 1))) ∧
      (w.violWs = true ↔ e.violWs = true ∨ ¬ InvWs B w.regs) ∧
      (w.violFmax = true ↔ e.violFmax = true ∨ ¬ InvFmax B w.regs)) ∧
    (∀ S a v, ∀ c ∈ [settle B S e, setStatus B S v e, pokeReg B a v e],
      (c.violWs = true ↔ e.violWs = true ∨ ¬ InvWs B c.regs) ∧
      (c.violFmax = true ↔ e.violFmax = true ∨ ¬ InvFmax B c.regs) ∧
      c.violPwrclk = e.violPwrclk ∧ c.violPllCfg = e.violPllCfg)

/-- R70 (b), (c): the environment applies the first posted write of a class, before any later one of that class. -/
def Obligations.OldestOfAClassIsAppliedFirst : Prop :=
  ∀ (B : BindingData) (c : RegBlock) (e : Env) (older younger : List PostedWrite) (p : PostedWrite),
    e.posted = older ++ p :: younger → (∀ q ∈ older, inClass B c q = false) → inClass B c p = true →
    applyOldest B c e = applyWrite B { e with posted := older ++ younger } p

/-- R67, R70: a read changes no byte outside the word it addresses and the words of the posted writes it drains; where
no countdown stands at 0 there and nothing is drained, REGS is unchanged. -/
def Obligations.ReadTouchesOnlyDrainedAndStatusWords : Prop :=
  ∀ (a : Nat) (s : State),
    (∀ x, ¬ InWord a x → (∀ p ∈ s.env.posted, inScope s.bind a p = true → ¬ InWord p.addr x) →
      readByte (memRead a s).env.regs x = readByte s.env.regs x) ∧
    ((∀ S, (descOf s.bind S.field).addr = a → (timerOf s.env.timers S).cnt ≠ some 0) →
      (∀ p ∈ s.env.posted, inScope s.bind a p = false) → (memRead a s).env.regs = s.env.regs)

/-- R63, R69, R80 (a), log entry 4: the write half of a SETF step stores to the four bytes of its descriptor's address
and to no other byte; while the write stays posted it stores nothing. -/
def Obligations.SetfStoresOnlyItsWord : Prop :=
  ∀ (i : Instr) (F : FieldRef) (V : ValSel) (next : Code) (s t : State), i.form = .setf F V next →
    s.ports.busAck = true → s.PH = true → exec i s = .next t →
    (s.env.posting = true → t.env.regs = s.env.regs ∧
      t.env.posted = s.env.posted ++ [⟨(resolve s F).addr, ins (resolve s F) s.T (valOf s.bind V)⟩]) ∧
    (s.env.posting = false → s.env.posted = [] → t.env.posted = [] ∧
      ∀ x, ¬ InWord (resolve s F).addr x → readByte t.env.regs x = readByte s.env.regs x)

/-- R98, R77, R9 (c): where writes are applied at once (log entry 4), the write half of a SETF step leaves its value in
its field, unless protection R75 or the lock R76 keeps it out. -/
def Obligations.SetfLeavesItsValue : Prop :=
  ∀ (i : Instr) (f : FieldId) (V : ValSel) (next : Code) (s : State), i.form = .setf (.field f) V next →
    s.ports.busAck = true → s.PH = true → s.env.posting = false → s.env.posted = [] →
    (backupDomain s.bind f = true → current s.bind s.env .bkpWpdis ≠ 0) →
    (f = .pllCfg → pllEnabled s.bind s.env.regs = false) →
    ∃ t, exec i s = .next t ∧ fieldVal t.bind t.env.regs f = valOf t.bind V

/-- R72, R122: whatever was posted before, and for either drain scope, when the read-back of step 1 or 2 is answered the
write before it has taken effect, and the answer shows it. -/
def Obligations.ReadBackSeesTheWrite : Prop :=
  ∀ s : State, s.ports.busAck = true → s.PH = true →
    (∃ t u, exec .s1a s = .next t ∧ exec .s1b t = .next u ∧ fieldVal u.bind u.env.regs .pwrclkEn = 1 ∧
      fld u.bind.fields.pwrclkEn u.T = 1) ∧
    (∃ t u, exec .s2a s = .next t ∧ exec .s2b t = .next u ∧ fieldVal u.bind u.env.regs .vos = u.bind.vVosTarget ∧
      fld u.bind.fields.vos u.T = u.bind.vVosTarget)

/-- R194: for either drain scope, posted or immediate writes (log entry 4), and whatever is posted or on its way, serving
one request twice leaves REGS, once POSTED has drained, as serving it once does, but for the status bits that the
environment changes by itself; with nothing posted and no status field on its way, all of REGS. The bit is set. The
blocks and the gate bits apart are log entry 16. -/
def Obligations.GateRequestIsIdempotent : Prop :=
  ∀ (s : State) (g : GateEntry), s.sched = [] → s.ports.rst = false → s.ports.busAck = true → s.ST = 0x1F →
    s.ports.gateReq = true → gateLookup s.bind s.ports.gateId = some g → BlocksAgree s.bind → GateBitsApart s.bind →
    memoryWf s.env.regs = true → (∀ p ∈ s.env.posted, p.addr % 4 = 0) →
    ∃ t u, runFor 3 s = .next t ∧ runFor 3 { t with ports := { t.ports with gateReq := true } } = .next u ∧
      t.ST = 0x1F ∧ u.ST = 0x1F ∧ t.HIT = true ∧ u.HIT = true ∧
      let once := (flush s.bind t.env).regs
      let twice := (flush s.bind u.env).regs
      (∀ a, a % 4 = 0 → readWord twice a &&& ~~~maskAt s.bind a (envFields s.bind) =
        readWord once a &&& ~~~maskAt s.bind a (envFields s.bind)) ∧
      (s.env.posted = [] → NoCountdown s.env.timers → twice = once) ∧
      (readWord once (s.bind.bankAddr.get g.bank)).getLsbD g.bit = true

/-! ### What moves the block, and what does not -/

/-- R108: `ST` changes only along the table, to HALT from a WAIT step or an illegal code, or to IDLE by reset. -/
def Obligations.StateCodeFollowsTable : Prop :=
  ∀ s t : State, step s = .next t →
    t.ST = s.ST ∨ (s.ports.rst = true ∧ t.ST = 0x00) ∨ (∃ i, decode s.ST = some i ∧ t.ST ∈ i.successors) ∨
    (t.ST = 0x1E ∧ t.TO = true ∧ t.FAIL = s.ST ∧ (waitCode s.ST = true ∨ decode s.ST = none))

/-- R21: no step that starts with a read depends on the `T` of an earlier step. -/
def Obligations.StepsIgnoreAnEarlierLatch : Prop :=
  ∀ (i : Instr) (s : State) (x : Word), s.PH = false →
    (i.form ≠ .ctrl → s.ports.busAck = true → exec i { s with T := x } = exec i s) ∧
    (∀ t, exec i s = .next t → i.form = .ctrl ∨ s.ports.busAck = false →
      exec i { s with T := x } = .next { t with T := x })

/-- R191: outside DONE the block does not look at the gate port; only the end of G1 changes it (log entry 9). -/
def Obligations.GatePortIgnoredOutsideDone : Prop :=
  ∀ (i : Instr) (s t : State) (req : Bool) (id : Nat), i ≠ .done → i ≠ .g1 → exec i s = .next t →
    exec i { s with ports := { s.ports with gateReq := req, gateId := id } } =
      .next { t with ports := { t.ports with gateReq := req, gateId := id } }

/-- R120, R139, R140: outside IDLE the block ignores `start_i`. -/
def Obligations.StartIgnoredOutsideIdle : Prop :=
  ∀ (i : Instr) (s t : State) (level : Bool), i ≠ .idle → exec i s = .next t →
    exec i { s with ports := { s.ports with start := level } } =
      .next { t with ports := { t.ports with start := level } }

/-- R17, R26, R70 (b), R78, R191, log entries 5 and 9: an act of another agent changes the port or the environment it is
about and takes itself off the schedule; every register of R20, the binding and the trace stay. A gate request made while
one is held does not get in. -/
def Obligations.OtherAgentsLeaveTheBlock : Prop :=
  ∀ (s : State) (rest : List Act), let r := { s with sched := rest }
    (∀ b, s.sched = .setRst b :: rest → step s = .next { r with ports := { s.ports with rst := b } }) ∧
    (∀ b, s.sched = .setStart b :: rest → step s = .next { r with ports := { s.ports with start := b } }) ∧
    (∀ b, s.sched = .setAck b :: rest → step s = .next { r with ports := { s.ports with busAck := b } }) ∧
    (∀ id, s.sched = .gateRequest id :: rest → s.ports.gateReq = true → step s = .next r) ∧
    (∀ id, s.sched = .gateRequest id :: rest → s.ports.gateReq = false →
      step s = .next { r with ports := { s.ports with gateReq := true, gateId := id % 2 ^ s.bind.idw } }) ∧
    (∀ b, s.sched = .applyPosted b :: rest → step s = .next { r with env := applyOldest s.bind b s.env }) ∧
    (∀ S, s.sched = .settle S :: rest → step s = .next { r with env := settle s.bind S s.env }) ∧
    (∀ S v, s.sched = .status S v :: rest → step s = .next { r with env := setStatus s.bind S v s.env }) ∧
    (∀ a w, s.sched = .otherWrite a w :: rest → step s = .next { r with env := applyWrite s.bind s.env ⟨a, w⟩ }) ∧
    (∀ a w, s.sched = .poke a w :: rest → step s = .next { r with env := pokeReg s.bind a w s.env })

/-- R209, R140: in HALT nothing but reset changes `ST`, `TO`, `FAIL` or the trace; that a reset of the block keeps the
trace is log entry 10. -/
def Obligations.OnlyResetLeavesHalt : Prop :=
  ∀ s t : State, s.ST = 0x1E → step s = .next t →
    (t.ST = 0x1E ∧ t.TO = s.TO ∧ t.FAIL = s.FAIL ∧ t.trace = s.trace) ∨
    (s.ports.rst = true ∧ t.ST = 0x00 ∧ t.TO = false ∧ t.FAIL = 0x00 ∧ t.trace = s.trace)

/-- R23, R81: `DN` and `TO` fall only by reset, and the violation flags never fall. -/
def Obligations.FlagsAreSticky : Prop :=
  ∀ s t : State, step s = .next t →
    (s.DN = true → t.DN = true ∨ s.ports.rst = true) ∧ (s.TO = true → t.TO = true ∨ s.ports.rst = true) ∧
    (s.env.violPllCfg = true → t.env.violPllCfg = true) ∧ (s.env.violWs = true → t.env.violWs = true) ∧
    (s.env.violFmax = true → t.env.violFmax = true) ∧ (s.env.violPwrclk = true → t.env.violPwrclk = true)

/-- R62, R63, R71, R94, R192, R193: one step adds to the trace nothing, the one transaction the bus ports request, or the
acknowledgement of a gate request; a read's data is in `T` afterwards. That the acknowledgement stands in the trace is log
entry 10. -/
def Obligations.TraceRecordsTheBusPorts : Prop :=
  ∀ s t : State, step s = .next t →
    t.trace = s.trace ∨
    (∃ a, busCmd s = some (.read a) ∧ t.trace = s.trace ++ [.read a t.T]) ∨
    (∃ a w, busCmd s = some (.write a w) ∧ t.trace = s.trace ++ [.write a w]) ∨
    (∃ a w, s.ST = 0x60 ∧ busCmd s = some (.write a w) ∧ t.trace = s.trace ++ [.write a w, .gateAck t.HIT]) ∨
    (s.ST = 0x1F ∧ t.HIT = false ∧ t.trace = s.trace ++ [.gateAck false])

/-- R253: the environment enters the block's move only through the answer to its read. -/
def Obligations.MoveDependsOnTheAnswerOnly : Prop :=
  ∀ (i : Instr) (s t : State) (e : Env),
    (∀ a, answer s.bind (serveRead s.bind a s.env) a = answer s.bind (serveRead s.bind a e) a) →
    exec i s = .next t → ∃ e', exec i { s with env := e } = .next { t with env := e' }

/-! ### Reset -/

/-- R230, R231, R207: with `rst_i` high a clock edge, the schedule's or that of an empty schedule (log entry 5), gives
every block register its reset value, whatever the step was doing, lowers the outputs, and leaves the environment, the
ports and the trace; that the trace is kept is log entry 10. -/
def Obligations.ResetEdgeClearsTheBlock : Prop :=
  ∀ s : State, s.ports.rst = true →
    let t := { s with
      ST := 0x00, PH := false, T := 0, PCNT := 0, FAIL := 0x00, DN := false, TO := false, HIT := false, GA := 0,
      GB := 0 }
    (s.sched = [] → step s = .next t) ∧ (∀ rest, s.sched = .edge :: rest → step s = .next { t with sched := rest }) ∧
    busReqO t = false ∧ busyO t = false ∧ doneO t = false ∧ timeoutO t = false ∧ gateHitO t = false

/-- R55: the block's registers after reset, its outputs, and the empty `POSTED` and unset flags (R81) beside it, for
every binding. -/
def Obligations.ResetStateValues : Prop :=
  (∀ (B : Binding) (e : Env), let s := State.resetWith B e
    s.ST = 0x00 ∧ s.PH = false ∧ s.T = 0x00000000 ∧ s.PCNT = 0 ∧ s.FAIL = 0x00 ∧ s.DN = false ∧ s.TO = false ∧
    s.HIT = false ∧ s.GA = 0 ∧ s.GB = 0 ∧ busyO s = false ∧ doneO s = false ∧ timeoutO s = false ∧ stateO s = 0x00 ∧
    failO s = 0x00 ∧ busReqO s = false ∧ gateHitO s = false ∧ s.env = e) ∧
  State.reset.env.posted = [] ∧ State.reset.env.violPllCfg = false ∧ State.reset.env.violWs = false ∧
  State.reset.env.violFmax = false ∧ State.reset.env.violPwrclk = false

/-- The two invariants hold at reset (R55; that REGS lists nothing there is log entry 1). -/
def Obligations.ResetMeetsTheInvariants : Prop :=
  ControlInv State.reset ∧ memoryWf State.reset.env.regs = true

/-! ### Invariants that every step keeps -/

/-- REGS keeps its canonical form (R64, log entry 1), whatever agent moves. -/
def Obligations.RegistersStayCanonical : Prop :=
  ∀ s t : State, memoryWf s.env.regs = true → step s = .next t → memoryWf t.env.regs = true

/-- R22 to R25, R108, R203, R204: the block's control invariant. -/
def Obligations.ControlInvariantIsKept : Prop :=
  ∀ s t : State, ControlInv s → step s = .next t → ControlInv t

/-! ### What the sequence guarantees

A run claim is about every state that a run reaches while its acts meet `EnvPremises` (R78, R232 (c), R254). The premises
on the binding that R9 does not check, and what counts as the block's bits, are log entry 16. -/

/-- R245: no transaction of a run reaches the PWR block before its interface clock is on, for either drain scope, where
other masters keep off the PWR block; when a transaction reaches it is log entry 12. Log entry 16: the premises. -/
def Obligations.PowerInterfaceIsNeverUnclocked : Prop :=
  ∀ s t : State, BringUpPremises s → ReachesUnder (fun x => EnvPremises x ∧ NextAct OffPowerBlock x) s t →
    t.env.violPwrclk = false

/-- R156, R244: no write of a run changes the PLL configuration while the PLL is enabled, for either drain scope. Log
entry 16: the premises. -/
def Obligations.PllConfigurationOnlyWhileOff : Prop :=
  ∀ s t : State, BringUpPremises s → ReachesUnder EnvPremises s t → t.env.violPllCfg = false

/-- R178 (b), R171: in a run, while the switch to the PLL is committed and not yet reported, the AHB prescaler holds its
safe code. Log entry 16: the premises. -/
def Obligations.AhbIsCappedDuringTheSwitch : Prop :=
  ∀ s t : State, BringUpPremises s → ReachesUnder EnvPremises s t → switchRequested t.bind t.env.regs = true →
    switchReported t.bind t.env.regs = false → fieldVal t.bind t.env.regs .ahbPre = t.bind.vAhbSafe

/-- R241, R242: the clock bounds of a run stay within the rated maxima, for either drain scope. Log entry 16: the
premises. -/
def Obligations.ClocksStayRated : Prop :=
  ∀ s t : State, BringUpPremises s → BindSafe s.bind → ReachesUnder EnvPremises s t →
    InvFmax t.bind t.env.regs ∧ t.env.violFmax = false

/-- R243: with `DRAIN_SCOPE` = ALL the flash wait-states of a run are never too few. Log entry 16: the premises. -/
def Obligations.WaitStatesSufficeUnderAll : Prop :=
  ∀ s t : State, BringUpPremises s → BindSafe s.bind → s.bind.drainScope = .all → ReachesUnder EnvPremises s t →
    InvWs t.bind t.env.regs ∧ t.env.violWs = false

/-- R243 (its caveat), PRG-5: with `DRAIN_SCOPE` = TARGET a run that meets every premise can break INV_WS. -/
def Obligations.WaitStatesCanFailUnderTarget : Prop :=
  ∃ s t : State, BringUpPremises s ∧ BindSafe s.bind ∧ s.bind.drainScope = .target ∧ ReachesUnder EnvPremises s t ∧
    t.env.violWs = true

/-- R246, R254: once `DN` is 1 and `POSTED` has drained, each field that R246's table lists has the value listed there.
Its last row: a bit under no descriptor, in any state of a run, is what it was at the start, where no other agent and no
gate request changes it. Log entry 16: the premises. -/
def Obligations.DoneGuaranteesItsTable : Prop :=
  ∀ s t : State, BringUpPremises s →
    (ReachesUnder EnvPremises s t → t.DN = true → t.env.posted = [] → DoneGuarantee t.bind t.env) ∧
    (∀ a n, a % 4 = 0 → (∀ f, (descOf s.bind f).addr = a → (descOf s.bind f).mask.getLsbD n = false) →
      (s.ports.gateReq = true → ¬ AsksForBit s.bind s.ports.gateId a n) →
      ReachesUnder (fun x => EnvPremises x ∧ NextAct (LeavesBit a n) x) s t →
      (readWord t.env.regs a).getLsbD n = (readWord s.env.regs a).getLsbD n)

/-- R246 (its last part), R233 (a): with the registers of R246's table every clock is at its target frequency, and where
`V_WS_TARGET` is what the target frequency needs, the flash timing matches. -/
def Obligations.DoneClocksAreOnTarget : Prop :=
  ∀ (b : Binding) (e : Env), DoneGuarantee b.data e →
    fSysclk b.data e.regs = fPll b.data b.data.vPllCfg ∧ fHclk b.data e.regs = fPll b.data b.data.vPllCfg ∧
    fPclk1 b.data e.regs = fPll b.data b.data.vPllCfg / DivTable.ratio b.data.divApb b.data.vApb1Final.toNat ∧
    fPclk2 b.data e.regs = fPll b.data b.data.vPllCfg / DivTable.ratio b.data.divApb b.data.vApb2Final.toNat ∧
    (FlashTimingMatches b.data → (fieldVal b.data e.regs .flashWs).toNat = wsRequired b.data (fSysclk b.data e.regs))

/-- R240: where the switch is reported, or not requested, the bounds are the derived clocks of R48. -/
def Obligations.ClockBoundsAreExactOutsideTheSwitch : Prop :=
  ∀ (B : BindingData) (m : Memory), switchReported B m = true ∨ switchRequested B m = false →
    fSysclkUb B m = fSysclk B m ∧ fHclkUb B m = fHclk B m ∧ fPclk1Ub B m = fPclk1 B m ∧ fPclk2Ub B m = fPclk2 B m

/-- R79, R254: under the nine liveness premises a run that is started and not reset, with no poll bound, reaches DONE with
`DN`, whatever the schedule's acts do meanwhile: finitely many of them, after which only the block moves (log entry 5, which
is unsafe for liveness: other agents that act for ever are not covered). BOOT_OK (d) keeps out the start of R231 and U18 (log entry 17). -/
def Obligations.LivePremisesGiveDone : Prop :=
  ∀ s : State, s.ST = 0x00 → s.PH = false → s.ports.rst = false → s.ports.start = true → s.bind.pollMax = 0 →
    switchRequested s.bind s.env.regs = false → switchReported s.bind s.env.regs = false →
    (∀ a ∈ s.sched, a ≠ .setRst true ∧ a ≠ .setStart false) → LivePremises s →
    ∃ k, (stateAfter k s).ST = 0x1F ∧ (stateAfter k s).DN = true

/-- R80, R254: a run under the reference environment, started with the bus answering, every status field settled and
every latency finite, reaches DONE with `DN`. REFENV is writes at once (log entry 4), no other agent's act (log entry 5)
and counted reads (log entry 11). -/
def Obligations.ReferenceRunCompletes : Prop :=
  ∀ s : State, BootOk s → EnvStarts s.bind s.env → StatusSettled s.bind s.env → s.env.posting = false → s.sched = [] →
    s.ports.start = true → s.ports.busAck = true → s.bind.pollMax = 0 →
    (∀ S, (timerOf s.env.timers S).lat ≠ none) → fits s.bind.fields.sysclkSws s.bind.vSwsPll = true →
    ∃ t, Reaches s t ∧ t.ST = 0x1F ∧ t.DN = true
end

