-- ==== Sys2Proof/Laws/Memory.lean ====
section
/-! SUPPORT. The laws of REGS: a byte read after a byte write, a word read after a word write, and the canonical form,
which every memory operation keeps and which makes equal memories equal data. -/

namespace Sys2Proof.Machine

theorem readByte_filter (m : Memory) (a x : Nat) :
    readByte (m.filter fun c => c.1 != a) x = if a = x then unlistedByte else readByte m x := by
  induction m with
  | nil => simp [readByte]
  | cons c m ih =>
    by_cases hc : c.1 = a
    · simp only [List.filter_cons, hc, bne_self_eq_false, Bool.false_eq_true, if_false, ih, readByte]
      split <;> rfl
    · have hb : (c.1 != a) = true := by simpa using hc
      simp only [List.filter_cons, hb, if_true, readByte, ih]
      by_cases hx : c.1 = x
      · subst hx; simp [Ne.symm hc]
      · simp [hx]

theorem readByte_insertCell (m : Memory) (a x : Nat) (b : Byte) (h : ∀ c ∈ m, c.1 ≠ a) :
    readByte (insertCell m a b) x = if a = x then b else readByte m x := by
  induction m with
  | nil => simp [insertCell, readByte]
  | cons c m ih =>
    have hc := h c (by simp)
    have hm := ih fun d hd => h d (by simp [hd])
    unfold insertCell
    split
    · simp only [readByte]
    · simp only [readByte, hm]
      by_cases hx : c.1 = x
      · subst hx; simp [Ne.symm hc]
      · simp [hx]

/-- Reading a byte after writing a byte. -/
@[simp] theorem readByte_writeByte (m : Memory) (a x : Nat) (b : Byte) :
    readByte (writeByte m a b) x = if a = x then b else readByte m x := by
  unfold writeByte
  split
  · next hb => rw [readByte_filter, hb]
  · rw [readByte_insertCell _ _ _ _ (by simp), readByte_filter]
    split <;> rfl

theorem memoryWf_cons (c : Host.Cell) (m : Memory) :
    memoryWf (c :: m) = true ↔ c.2 ≠ unlistedByte ∧ (∀ d ∈ m, c.1 < d.1) ∧ memoryWf m = true := by
  simp [memoryWf, and_assoc]

theorem memoryWf_filter (m : Memory) (p : Host.Cell → Bool) (h : memoryWf m = true) : memoryWf (m.filter p) = true := by
  induction m with
  | nil => simp [memoryWf]
  | cons c m ih =>
    obtain ⟨h1, h2, h3⟩ := (memoryWf_cons c m).1 h
    rw [List.filter_cons]
    split
    · exact (memoryWf_cons _ _).2 ⟨h1, fun d hd => h2 d (List.mem_of_mem_filter hd), ih h3⟩
    · exact ih h3

theorem mem_insertCell (m : Memory) (a : Nat) (b : Byte) (d : Host.Cell) :
    d ∈ insertCell m a b ↔ d = (a, b) ∨ d ∈ m := by
  induction m with
  | nil => simp [insertCell]
  | cons c m ih =>
    unfold insertCell
    split
    · simp
    · simp only [List.mem_cons, ih]; tauto

theorem memoryWf_insertCell (m : Memory) (a : Nat) (b : Byte) (hb : b ≠ unlistedByte) (hm : ∀ c ∈ m, c.1 ≠ a)
    (h : memoryWf m = true) : memoryWf (insertCell m a b) = true := by
  induction m with
  | nil => simp [insertCell, memoryWf, hb]
  | cons c m ih =>
    obtain ⟨h1, h2, h3⟩ := (memoryWf_cons c m).1 h
    have hca := hm c (by simp)
    unfold insertCell
    split
    · next hlt =>
      refine (memoryWf_cons _ _).2 ⟨hb, fun d hd => ?_, h⟩
      rcases List.mem_cons.1 hd with rfl | hd
      · exact hlt
      · exact lt_trans hlt (h2 d hd)
    · next hlt =>
      refine (memoryWf_cons _ _).2 ⟨h1, fun d hd => ?_, ih (fun d hd => hm d (by simp [hd])) h3⟩
      rcases (mem_insertCell m a b d).1 hd with rfl | hd
      · exact lt_of_le_of_ne (not_lt.1 hlt) hca
      · exact h2 d hd

/-- Writing a byte keeps the canonical form. -/
theorem memoryWf_writeByte (m : Memory) (a : Nat) (b : Byte) (h : memoryWf m = true) :
    memoryWf (writeByte m a b) = true := by
  unfold writeByte
  split
  · exact memoryWf_filter m _ h
  · next hb => exact memoryWf_insertCell _ a b hb (by simp) (memoryWf_filter m _ h)

/-- Writing a word keeps the canonical form. -/
theorem memoryWf_writeWord (m : Memory) (a : Nat) (w : Word) (h : memoryWf m = true) :
    memoryWf (writeWord m a w) = true := by
  unfold writeWord
  exact memoryWf_writeByte _ _ _ (memoryWf_writeByte _ _ _ (memoryWf_writeByte _ _ _ (memoryWf_writeByte _ _ _ h)))

theorem memoryWf_nil : memoryWf [] = true := rfl

theorem readByte_unlisted (m : Memory) (x : Nat) (h : ∀ c ∈ m, c.1 ≠ x) : readByte m x = unlistedByte := by
  induction m with
  | nil => rfl
  | cons c m ih =>
    simp only [readByte, h c (by simp), if_false]
    exact ih fun d hd => h d (by simp [hd])

/-- Canonical memories that read alike are the same data. -/
theorem memory_ext (m n : Memory) (hm : memoryWf m = true) (hn : memoryWf n = true)
    (h : ∀ x, readByte m x = readByte n x) : m = n := by
  induction m generalizing n with
  | nil =>
    cases n with
    | nil => rfl
    | cons d n =>
      have hd := h d.1
      simp only [readByte, if_true] at hd
      exact absurd hd.symm ((memoryWf_cons d n).1 hn).1
  | cons c m ih =>
    obtain ⟨c1, c2, c3⟩ := (memoryWf_cons c m).1 hm
    cases n with
    | nil =>
      have hc := h c.1
      simp only [readByte, if_true] at hc
      exact absurd hc c1
    | cons d n =>
      obtain ⟨d1, d2, d3⟩ := (memoryWf_cons d n).1 hn
      have hcd : c.1 = d.1 := by
        rcases lt_trichotomy c.1 d.1 with hlt | heq | hgt
        · have hx := h c.1
          simp only [readByte, if_true] at hx
          rw [if_neg (ne_of_gt hlt), readByte_unlisted n _ fun e he => (ne_of_gt (lt_trans hlt (d2 e he)))] at hx
          exact absurd hx c1
        · exact heq
        · have hx := h d.1
          simp only [readByte, if_true] at hx
          rw [if_neg (ne_of_gt hgt), readByte_unlisted m _ fun e he => (ne_of_gt (lt_trans hgt (c2 e he)))] at hx
          exact absurd hx.symm d1
      have hv : c.2 = d.2 := by
        have hx := h c.1
        simpa [readByte, hcd] using hx
      have hmn : m = n := by
        refine ih n c3 d3 fun x => ?_
        by_cases hx : c.1 = x
        · rw [readByte_unlisted m x fun e he => hx ▸ (ne_of_gt (c2 e he)),
            readByte_unlisted n x fun e he => hx ▸ hcd ▸ (ne_of_gt (d2 e he))]
        · have := h x
          simpa [readByte, hx, hcd ▸ hx] using this
      rw [Prod.ext hcd hv, hmn]

/-- Reading a byte outside the word written. -/
theorem readByte_writeWord_ne (m : Memory) (a x : Nat) (w : Word) (h : x < a ∨ a + 4 ≤ x) :
    readByte (writeWord m a w) x = readByte m x := by
  have h0 : a ≠ x := by omega
  have h1 : a + 1 ≠ x := by omega
  have h2 : a + 2 ≠ x := by omega
  have h3 : a + 3 ≠ x := by omega
  simp [writeWord, h0, h1, h2, h3]

/-- Reading the word just written. -/
@[simp] theorem readWord_writeWord_self (m : Memory) (a : Nat) (w : Word) : readWord (writeWord m a w) a = w := by
  have : readWord (writeWord m a w) a =
      (w.extractLsb' 24 8 ++ w.extractLsb' 16 8 ++ w.extractLsb' 8 8 ++ w.extractLsb' 0 8 : Word) := by
    simp [readWord, writeWord]
  rw [this]
  apply BitVec.eq_of_getLsbD_eq
  intro i hi
  simp only [BitVec.getLsbD_append, BitVec.getLsbD_extractLsb']
  split
  · next h => simp [h]
  · split
    · next h1 h2 => simp only [h2, decide_true, Bool.true_and]; congr 1; omega
    · split
      · next h1 h2 h3 => simp only [h3, decide_true, Bool.true_and]; congr 1; omega
      · next h1 h2 h3 =>
        have h4 : i - 8 - 8 - 8 < 8 := by omega
        simp only [h4, decide_true, Bool.true_and]; congr 1; omega

/-- Reading a word apart from the word written. -/
theorem readWord_writeWord_ne (m : Memory) (a x : Nat) (w : Word) (h : x + 4 ≤ a ∨ a + 4 ≤ x) :
    readWord (writeWord m a w) x = readWord m x := by
  unfold readWord
  rw [readByte_writeWord_ne m a (x + 3) w (by omega), readByte_writeWord_ne m a (x + 2) w (by omega),
    readByte_writeWord_ne m a (x + 1) w (by omega), readByte_writeWord_ne m a x w (by omega)]

/-- Aligned words at different addresses are apart. -/
theorem aligned_apart {a x : Nat} (ha : a % 4 = 0) (hx : x % 4 = 0) (h : a ≠ x) : x + 4 ≤ a ∨ a + 4 ≤ x := by omega

end Sys2Proof.Machine
end

