-- ==== Sys2Proof/Laws/Fields.lean ====
section
/-! SUPPORT. The algebra of `fld` and `ins` (00_scope R12), and what a well-formed binding gives (R9): one lemma per
check. -/

namespace Sys2Proof.Machine

/-! ### fld and ins -/

/-- `fld` sees only the bits under the mask. -/
theorem fld_congr (F : Descriptor) (w v : Word) (h : w &&& F.mask = v &&& F.mask) : fld F w = fld F v := by
  simp [fld, h]

/-- `ins` leaves every bit outside the mask. -/
theorem ins_outside (F : Descriptor) (w v : Word) : ins F w v &&& ~~~F.mask = w &&& ~~~F.mask := by
  apply BitVec.eq_of_getLsbD_eq
  intro i hi
  simp only [ins, BitVec.getLsbD_and, BitVec.getLsbD_or, BitVec.getLsbD_not, hi, decide_true, Bool.true_and]
  cases F.mask.getLsbD i <;> simp

/-- Bits under a mask disjoint from the written one are as before. -/
theorem ins_disjoint (F : Descriptor) (w v m : Word) (h : m &&& F.mask = 0) : ins F w v &&& m = w &&& m := by
  apply BitVec.eq_of_getLsbD_eq
  intro i hi
  have hb : (m &&& F.mask).getLsbD i = false := by simp [h]
  rw [BitVec.getLsbD_and, Bool.and_eq_false_iff] at hb
  simp only [ins, BitVec.getLsbD_and, BitVec.getLsbD_or, BitVec.getLsbD_not, hi, decide_true, Bool.true_and]
  rcases hb with hb | hb <;> simp [hb]

/-- A field whose mask is disjoint from the written one is as before. -/
theorem fld_ins_disjoint (F G : Descriptor) (w v : Word) (h : G.mask &&& F.mask = 0) : fld G (ins F w v) = fld G w :=
  fld_congr G _ _ (ins_disjoint F w v G.mask h)

theorem fits_iff (F : Descriptor) (v : Word) :
    fits F v = true ↔ (v <<< F.pos.toNat) &&& ~~~F.mask = 0 ∧ (v <<< F.pos.toNat) >>> F.pos.toNat = v := by
  simp [fits]

/-- A value that fits is under the mask once shifted. -/
theorem shifted_under_mask (F : Descriptor) (v : Word) (h : (v <<< F.pos.toNat) &&& ~~~F.mask = 0) :
    (v <<< F.pos.toNat) &&& F.mask = v <<< F.pos.toNat := by
  apply BitVec.eq_of_getLsbD_eq
  intro i hi
  have hb : ((v <<< F.pos.toNat) &&& ~~~F.mask).getLsbD i = false := by simp [h]
  simp only [BitVec.getLsbD_and, BitVec.getLsbD_not, hi, decide_true, Bool.true_and] at hb
  rw [BitVec.getLsbD_and]
  revert hb
  cases (v <<< F.pos.toNat).getLsbD i <;> cases F.mask.getLsbD i <;> simp

/-- `ins` under its own mask is the shifted value. -/
theorem ins_inside (F : Descriptor) (w v : Word) : ins F w v &&& F.mask = (v <<< F.pos.toNat) &&& F.mask := by
  apply BitVec.eq_of_getLsbD_eq
  intro i hi
  simp only [ins, BitVec.getLsbD_and, BitVec.getLsbD_or, BitVec.getLsbD_not, hi, decide_true, Bool.true_and]
  cases F.mask.getLsbD i <;> simp

/-- Extracting what was inserted, for a value that fits. -/
theorem fld_ins_same (F : Descriptor) (w v : Word) (h : fits F v = true) : fld F (ins F w v) = v := by
  obtain ⟨h1, h2⟩ := (fits_iff F v).1 h
  rw [fld, ins_inside, shifted_under_mask F v h1, h2]

/-- What a field can hold is what it shows after an insertion, into any word. -/
theorem fld_ins (F : Descriptor) (w v : Word) : fld F (ins F w v) = cut F v := by
  rw [cut]; exact fld_congr F _ _ (by rw [ins_inside, ins_inside])

/-- A value that fits is not cut. -/
theorem cut_of_fits (F : Descriptor) (v : Word) (h : fits F v = true) : cut F v = v := fld_ins_same F 0 v h

/-- A cut value is not cut further. -/
theorem cut_cut (F : Descriptor) (v : Word) : cut F (cut F v) = cut F v := by
  apply BitVec.eq_of_getLsbD_eq
  intro i hi
  simp only [cut, fld, ins, BitVec.getLsbD_ushiftRight, BitVec.getLsbD_and, BitVec.getLsbD_or, BitVec.getLsbD_not,
    BitVec.getLsbD_shiftLeft]
  by_cases h : F.pos.toNat + i < 32
  · cases hm : F.mask.getLsbD (F.pos.toNat + i) <;>
      simp [h, hm]
  · rw [show F.mask.getLsbD (F.pos.toNat + i) = false from BitVec.getLsbD_of_ge _ _ (by omega)]
    simp

/-! ### The stored registers -/

/-- A field's value after a store to its own register. -/
theorem fieldVal_writeWord_self (B : BindingData) (m : Memory) (f : FieldId) (w : Word) :
    fieldVal B (writeWord m (descOf B f).addr w) f = fld (descOf B f) w := by
  simp [fieldVal]

/-- A field's value after a store apart from its register. -/
theorem fieldVal_writeWord_ne (B : BindingData) (m : Memory) (f : FieldId) (a : Nat) (w : Word)
    (h : (descOf B f).addr + 4 ≤ a ∨ a + 4 ≤ (descOf B f).addr) : fieldVal B (writeWord m a w) f = fieldVal B m f := by
  simp [fieldVal, readWord_writeWord_ne m a _ w h]

/-! ### What well-formedness gives -/

theorem FieldId.mem_all (f : FieldId) : f ∈ FieldId.all := by cases f <;> decide

theorem StatusId.mem_all (S : StatusId) : S ∈ StatusId.all := by cases S <;> decide

theorem Instr.mem_all (i : Instr) : i ∈ Instr.all := by cases i <;> decide

/-- A wait-state law of one wait-state per `q` Hz is monotone (R233 (e)). -/
theorem perStep_monotone {q f g : Rat} (hq : 0 < q) (h : f ≤ g) : ((f / q).ceil - 1).toNat ≤ ((g / q).ceil - 1).toNat := by
  have h1 : f / q ≤ g / q := div_le_div_of_nonneg_right h hq.le
  have h2 : (f / q).ceil ≤ (g / q).ceil := Rat.ceil_le_iff.2 (h1.trans Rat.le_ceil)
  omega

theorem ratio_pos {t : DivTable} (ht : 1 ≤ t.otherwise ∧ ∀ r ∈ t.rows, 1 ≤ r.2) (c : Nat) :
    1 ≤ DivTable.ratio t c := by
  unfold DivTable.ratio
  cases hl : t.rows.lookup c with
  | none => simpa using ht.1
  | some v =>
    obtain ⟨k, hk⟩ : ∃ k, (k, v) ∈ t.rows := by
      have : ∀ l : List (Nat × Nat), l.lookup c = some v → ∃ k, (k, v) ∈ l := by
        intro l
        induction l with
        | nil => simp
        | cons x l ih =>
          obtain ⟨k, w⟩ := x
          rw [List.lookup_cons]
          split
          · intro e; cases e; exact ⟨k, by simp⟩
          · intro e; obtain ⟨k', hk'⟩ := ih e; exact ⟨k', by simp [hk']⟩
      exact this _ hl
    simpa using ht.2 _ hk

section wf
variable {B : BindingData} (h : B.wf = true)
include h

theorem wf_checks : checkAddrs B = true ∧ checkMasks B = true ∧ checkValues B = true ∧ checkPllCfg B = true ∧
    checkAhb B = true ∧ checkSysout B = true ∧ checkDisjoint B = true ∧ checkGates B = true ∧ checkPllLayout B = true ∧
    checkRatios B = true ∧ checkFrequencies B = true := by
  simpa [BindingData.wf, and_assoc] using h

/-- R9 (a). -/
theorem wf_addr (f : FieldId) : (descOf B f).addr % 4 = 0 ∧ (descOf B f).addr < 2 ^ B.aw := by
  have h1 := List.all_eq_true.1 (wf_checks h).1 f (FieldId.mem_all f)
  simpa [addrOk] using h1

/-- R9 (b), every field but `F_PLL_CFG`. -/
theorem wf_contiguous (f : FieldId) (hf : f ≠ .pllCfg) : contiguousAt (descOf B f).mask (descOf B f).pos = true := by
  have h1 := List.all_eq_true.1 (wf_checks h).2.1 f (FieldId.mem_all f)
  simpa [hf] using h1

/-- R9 (b), `F_PLL_CFG`. -/
theorem wf_pllCfg : B.fields.pllCfg.mask ≠ 0 ∧ B.fields.pllCfg.pos = 0 := by
  have h1 := List.all_eq_true.1 (wf_checks h).2.1 .pllCfg (FieldId.mem_all _)
  rw [if_pos rfl, Bool.and_eq_true] at h1
  exact ⟨of_decide_eq_true h1.1, of_decide_eq_true h1.2⟩

/-- R9 (c): the value a SETF row writes fits its field. -/
theorem wf_fits {i : Instr} {f : FieldId} {V : ValSel} {n : Code} (hi : i.form = .setf (.field f) V n) :
    fits (descOf B f) (valOf B V) = true := by
  have h1 := List.all_eq_true.1 (wf_checks h).2.2.1 i (Instr.mem_all i)
  simpa [hi] using h1

/-- R9 (d). -/
theorem wf_vPllCfg : B.vPllCfg &&& B.fields.pllCfg.mask = B.vPllCfg := by
  have h1 := (wf_checks h).2.2.2.1
  simpa [checkPllCfg] using h1

/-- R9 (e), divide-by-1. -/
theorem wf_ahbFinal : DivTable.ratio B.divAhb B.vAhbFinal.toNat = 1 := by
  have h1 := (wf_checks h).2.2.2.2.1
  simp only [checkAhb, Bool.and_eq_true, decide_eq_true_eq] at h1
  exact h1.1

/-- R9 (e), maximum divide. -/
theorem wf_ahbSafe (c : Nat) (hc : c ≤ (B.fields.ahbPre.mask >>> B.fields.ahbPre.pos.toNat).toNat) :
    DivTable.ratio B.divAhb c ≤ DivTable.ratio B.divAhb B.vAhbSafe.toNat := by
  have h1 := (wf_checks h).2.2.2.2.1
  simp only [checkAhb, Bool.and_eq_true, decide_eq_true_eq, List.all_eq_true, List.mem_range] at h1
  exact h1.2 c (by omega)

/-- R9 (g): fields at one address are disjoint, or are the pair that may coincide. -/
theorem wf_disjoint (f g : FieldId) (hfg : f ≠ g) (ha : (descOf B f).addr = (descOf B g).addr) :
    (descOf B f).mask &&& (descOf B g).mask = 0 ∨ mayAlias B f g = true := by
  have h1 := (wf_checks h).2.2.2.2.2.2.1
  simp only [checkDisjoint, List.all_eq_true] at h1
  have h2 := h1 f (FieldId.mem_all f) g (FieldId.mem_all g)
  simpa [hfg, ha] using h2

/-- R9 (h), bank addresses. -/
theorem wf_bankAddr (b : Fin 3) : (B.bankAddr.get b) % 4 = 0 ∧ B.bankAddr.get b < 2 ^ B.aw := by
  have h1 := (wf_checks h).2.2.2.2.2.2.2.1
  simp only [checkGates, Bool.and_eq_true, Vector.all_eq_true] at h1
  have h2 := h1.2 b.1 b.2
  simpa [addrOk, Vector.get] using h2

/-- R9 (h), bit indices. -/
theorem wf_gateBit {g : GateEntry} (hg : g ∈ B.gateTable) : g.bit < 32 := by
  have h1 := (wf_checks h).2.2.2.2.2.2.2.1
  simp only [checkGates, Bool.and_eq_true, List.all_eq_true, decide_eq_true_eq] at h1
  exact h1.1 g hg

/-- R40: the PLL Configuration's mask is the union of its six sub-fields. -/
theorem wf_pllLayout : B.pllLayout.src.mask ||| B.pllLayout.m.mask ||| B.pllLayout.n.mask ||| B.pllLayout.p.mask |||
    B.pllLayout.q.mask ||| B.pllLayout.r.mask = B.fields.pllCfg.mask := by
  simpa [checkPllLayout] using (wf_checks h).2.2.2.2.2.2.2.2.1

/-- R8: `div_ahb` is at least 1. -/
theorem wf_divAhb_pos (c : Nat) : 1 ≤ DivTable.ratio B.divAhb c := by
  have h1 := (wf_checks h).2.2.2.2.2.2.2.2.2.1
  simp [checkRatios] at h1
  exact ratio_pos ⟨h1.1.1, fun r hr => h1.1.2 r.1 r.2 hr⟩ c

/-- R8: `div_apb` is at least 1. -/
theorem wf_divApb_pos (c : Nat) : 1 ≤ DivTable.ratio B.divApb c := by
  have h1 := (wf_checks h).2.2.2.2.2.2.2.2.2.1
  simp [checkRatios] at h1
  exact ratio_pos ⟨h1.2.1, fun r hr => h1.2.2 r.1 r.2 hr⟩ c

/-- R8: frequencies are not negative. -/
theorem wf_freq_nonneg : 0 ≤ B.fRef ∧ 0 ≤ B.fReset ∧ 0 ≤ B.fHclkMax ∧ 0 ≤ B.fPclk1Max ∧ 0 ≤ B.fPclk2Max := by
  have h1 := (wf_checks h).2.2.2.2.2.2.2.2.2.2
  simpa [checkFrequencies] using h1

end wf

/-- A field's value is a code the field can hold. -/
theorem fld_le (F : Descriptor) (w : Word) : (fld F w).toNat ≤ (F.mask >>> F.pos.toNat).toNat := by
  have h : (w &&& F.mask).toNat ≤ F.mask.toNat := by
    rw [BitVec.toNat_and]; exact Nat.and_le_right
  simp only [fld, BitVec.toNat_ushiftRight, Nat.shiftRight_eq_div_pow]
  exact Nat.div_le_div_right h

end Sys2Proof.Machine
end

