-- ==== Sys2Proof/Laws/Environment.lean ====
section
/-! SUPPORT. What each operation of the environment can do, said once: `EnvKeeps` is what every one of them keeps (the
latencies, the initial switch status, the posting mode, the canonical form) and the stickiness of the violation flags;
beside it, what each does to `POSTED`, to the visible values and to REGS. -/

namespace Sys2Proof.Machine

/-- What every operation of the environment keeps. -/
structure EnvKeeps (e e' : Env) : Prop where
  swsInit : e'.swsInit = e.swsInit
  posting : e'.posting = e.posting
  lat : ∀ S, (timerOf e'.timers S).lat = (timerOf e.timers S).lat
  pllCfg : e.violPllCfg = true → e'.violPllCfg = true
  ws : e.violWs = true → e'.violWs = true
  fmax : e.violFmax = true → e'.violFmax = true
  pwrclk : e.violPwrclk = true → e'.violPwrclk = true
  wf : memoryWf e.regs = true → memoryWf e'.regs = true

theorem EnvKeeps.refl (e : Env) : EnvKeeps e e := ⟨rfl, rfl, fun _ => rfl, id, id, id, id, id⟩

theorem EnvKeeps.trans {a b c : Env} (h : EnvKeeps a b) (k : EnvKeeps b c) : EnvKeeps a c :=
  ⟨k.swsInit.trans h.swsInit, k.posting.trans h.posting, fun S => (k.lat S).trans (h.lat S), k.pllCfg ∘ h.pllCfg,
    k.ws ∘ h.ws, k.fmax ∘ h.fmax, k.pwrclk ∘ h.pwrclk, k.wf ∘ h.wf⟩

theorem EnvKeeps.foldl {α : Type} (f : Env → α → Env) (hf : ∀ e x, EnvKeeps e (f e x)) (l : List α) (e : Env) :
    EnvKeeps e (l.foldl f e) := by
  induction l generalizing e with
  | nil => exact .refl e
  | cons x l ih => exact (hf e x).trans (ih (f e x))

/-- A fold keeps what each of its steps keeps. -/
theorem foldl_same {α β : Type} (g : Env → β) (f : Env → α → Env) (hf : ∀ e x, g (f e x) = g e) (l : List α) (e : Env) :
    g (l.foldl f e) = g e := by
  induction l generalizing e with
  | nil => rfl
  | cons x l ih => exact (ih (f e x)).trans (hf e x)

/-! ### Timers -/

@[simp] theorem setCnt_lat (t : Timers) (S R : StatusId) (c : Option Nat) :
    (timerOf (setCnt t S c) R).lat = (timerOf t R).lat := by cases S <;> cases R <;> rfl

@[simp] theorem setCnt_cnt (t : Timers) (S R : StatusId) (c : Option Nat) :
    (timerOf (setCnt t S c) R).cnt = if S = R then c else (timerOf t R).cnt := by cases S <;> cases R <;> rfl

/-! ### The violation flags -/

@[simp] theorem noteClocks_regs (B : BindingData) (e : Env) : (noteClocks B e).regs = e.regs := rfl
@[simp] theorem noteClocks_posted (B : BindingData) (e : Env) : (noteClocks B e).posted = e.posted := rfl
@[simp] theorem noteClocks_timers (B : BindingData) (e : Env) : (noteClocks B e).timers = e.timers := rfl
@[simp] theorem noteClocks_visBkpWpdis (B : BindingData) (e : Env) : (noteClocks B e).visBkpWpdis = e.visBkpWpdis := rfl
@[simp] theorem noteClocks_visLseOn (B : BindingData) (e : Env) : (noteClocks B e).visLseOn = e.visLseOn := rfl
@[simp] theorem noteClocks_visLsesysFlag (B : BindingData) (e : Env) :
    (noteClocks B e).visLsesysFlag = e.visLsesysFlag := rfl
@[simp] theorem noteClocks_violPllCfg (B : BindingData) (e : Env) : (noteClocks B e).violPllCfg = e.violPllCfg := rfl
@[simp] theorem noteClocks_violPwrclk (B : BindingData) (e : Env) : (noteClocks B e).violPwrclk = e.violPwrclk := rfl
@[simp] theorem noteClocks_violWs (B : BindingData) (e : Env) :
    (noteClocks B e).violWs = (e.violWs || wsBroken B e.regs) := rfl
@[simp] theorem noteClocks_violFmax (B : BindingData) (e : Env) :
    (noteClocks B e).violFmax = (e.violFmax || fmaxBroken B e.regs) := rfl

theorem noteClocks_keeps (B : BindingData) (e : Env) : EnvKeeps e (noteClocks B e) := by
  constructor <;> simp +contextual [noteClocks]

@[simp] theorem notePwr_regs (B : BindingData) (a : Nat) (e : Env) : (notePwr B a e).regs = e.regs := rfl
@[simp] theorem notePwr_posted (B : BindingData) (a : Nat) (e : Env) : (notePwr B a e).posted = e.posted := rfl
@[simp] theorem notePwr_timers (B : BindingData) (a : Nat) (e : Env) : (notePwr B a e).timers = e.timers := rfl
@[simp] theorem notePwr_visBkpWpdis (B : BindingData) (a : Nat) (e : Env) :
    (notePwr B a e).visBkpWpdis = e.visBkpWpdis := rfl
@[simp] theorem notePwr_visLseOn (B : BindingData) (a : Nat) (e : Env) : (notePwr B a e).visLseOn = e.visLseOn := rfl
@[simp] theorem notePwr_visLsesysFlag (B : BindingData) (a : Nat) (e : Env) :
    (notePwr B a e).visLsesysFlag = e.visLsesysFlag := rfl
@[simp] theorem notePwr_violPllCfg (B : BindingData) (a : Nat) (e : Env) :
    (notePwr B a e).violPllCfg = e.violPllCfg := rfl
@[simp] theorem notePwr_violWs (B : BindingData) (a : Nat) (e : Env) : (notePwr B a e).violWs = e.violWs := rfl
@[simp] theorem notePwr_violFmax (B : BindingData) (a : Nat) (e : Env) : (notePwr B a e).violFmax = e.violFmax := rfl

theorem notePwr_keeps (B : BindingData) (a : Nat) (e : Env) : EnvKeeps e (notePwr B a e) := by
  constructor <;> simp +contextual [notePwr]

/-! ### Status fields -/

theorem setCurrent_keeps (B : BindingData) (e : Env) (S : StatusId) (v : Word) : EnvKeeps e (setCurrent B e S v) := by
  unfold setCurrent
  split
  · cases S <;> exact ⟨rfl, rfl, fun _ => rfl, id, id, id, id, id⟩
  · exact ⟨rfl, rfl, fun _ => rfl, id, id, id, id, memoryWf_writeWord _ _ _⟩

@[simp] theorem setCurrent_posted (B : BindingData) (e : Env) (S : StatusId) (v : Word) :
    (setCurrent B e S v).posted = e.posted := by
  unfold setCurrent; split
  · cases S <;> rfl
  · rfl

@[simp] theorem setCurrent_timers (B : BindingData) (e : Env) (S : StatusId) (v : Word) :
    (setCurrent B e S v).timers = e.timers := by
  unfold setCurrent; split
  · cases S <;> rfl
  · rfl

@[simp] theorem setCurrent_violPllCfg (B : BindingData) (e : Env) (S : StatusId) (v : Word) :
    (setCurrent B e S v).violPllCfg = e.violPllCfg := by
  unfold setCurrent; split
  · cases S <;> rfl
  · rfl

@[simp] theorem setCurrent_violPwrclk (B : BindingData) (e : Env) (S : StatusId) (v : Word) :
    (setCurrent B e S v).violPwrclk = e.violPwrclk := by
  unfold setCurrent; split
  · cases S <;> rfl
  · rfl

/-- Making a status field show a value stores at most in its own register. -/
theorem setCurrent_regs (B : BindingData) (e : Env) (S : StatusId) (v : Word) :
    (setCurrent B e S v).regs =
      if isEcho B S then e.regs
      else writeWord e.regs (descOf B S.field).addr
        (ins (descOf B S.field) (readWord e.regs (descOf B S.field).addr) v) := by
  unfold setCurrent
  split
  · cases S <;> rfl
  · rfl

/-- A status field made to show a value shows as much of it as the field holds (R75, R80). -/
theorem current_setCurrent (B : BindingData) (e : Env) (S : StatusId) (v : Word) :
    current B (setCurrent B e S v) S = cut (descOf B S.field) v := by
  cases h : isEcho B S
  · simp [current, setCurrent, h, fieldVal_writeWord_self, fld_ins]
  · cases S <;> first | (simp [isEcho] at h; done) | simp [current, setCurrent, h]

theorem settle_keeps (B : BindingData) (S : StatusId) (e : Env) : EnvKeeps e (settle B S e) := by
  refine (setCurrent_keeps B e S (target B e S)).trans (.trans ?_ (noteClocks_keeps B _))
  exact ⟨rfl, rfl, fun R => by simp, id, id, id, id, id⟩

@[simp] theorem settle_posted (B : BindingData) (S : StatusId) (e : Env) : (settle B S e).posted = e.posted := by
  simp [settle]

@[simp] theorem settle_regs (B : BindingData) (S : StatusId) (e : Env) :
    (settle B S e).regs = (setCurrent B e S (target B e S)).regs := rfl

@[simp] theorem settle_violPllCfg (B : BindingData) (S : StatusId) (e : Env) :
    (settle B S e).violPllCfg = e.violPllCfg := by simp [settle]

@[simp] theorem settle_violPwrclk (B : BindingData) (S : StatusId) (e : Env) :
    (settle B S e).violPwrclk = e.violPwrclk := by simp [settle]

/-- What a read of an address does to one status field: nothing, the countdown goes down, or the field settles. -/
theorem tickOne_cases (B : BindingData) (a : Nat) (e : Env) (S : StatusId) :
    tickOne B a e S = e ∨
    (∃ k, (descOf B S.field).addr = a ∧ (timerOf e.timers S).cnt = some (k + 1) ∧
      tickOne B a e S = { e with timers := setCnt e.timers S (some k) }) ∨
    ((descOf B S.field).addr = a ∧ (timerOf e.timers S).cnt = some 0 ∧ tickOne B a e S = settle B S e) := by
  unfold tickOne
  split
  · next ha =>
    split
    · exact .inl rfl
    · next h0 => exact .inr (.inr ⟨ha, h0, rfl⟩)
    · next k hk => exact .inr (.inl ⟨k, ha, hk, rfl⟩)
  · exact .inl rfl

theorem tickOne_keeps (B : BindingData) (a : Nat) (e : Env) (S : StatusId) : EnvKeeps e (tickOne B a e S) := by
  rcases tickOne_cases B a e S with h | ⟨k, -, -, h⟩ | ⟨-, -, h⟩ <;> rw [h]
  · exact .refl e
  · exact ⟨rfl, rfl, fun R => by simp, id, id, id, id, id⟩
  · exact settle_keeps B S e

theorem tick_keeps (B : BindingData) (a : Nat) (e : Env) : EnvKeeps e (tick B a e) :=
  EnvKeeps.foldl _ (tickOne_keeps B a) _ e

@[simp] theorem tickOne_posted (B : BindingData) (a : Nat) (e : Env) (S : StatusId) :
    (tickOne B a e S).posted = e.posted := by
  rcases tickOne_cases B a e S with h | ⟨k, -, -, h⟩ | ⟨-, -, h⟩ <;> rw [h]
  exact settle_posted B S e

@[simp] theorem tick_posted (B : BindingData) (a : Nat) (e : Env) : (tick B a e).posted = e.posted :=
  foldl_same Env.posted _ (fun e S => tickOne_posted B a e S) _ e

@[simp] theorem tickOne_violPllCfg (B : BindingData) (a : Nat) (e : Env) (S : StatusId) :
    (tickOne B a e S).violPllCfg = e.violPllCfg := by
  rcases tickOne_cases B a e S with h | ⟨k, -, -, h⟩ | ⟨-, -, h⟩ <;> rw [h]
  exact settle_violPllCfg B S e

@[simp] theorem tick_violPllCfg (B : BindingData) (a : Nat) (e : Env) : (tick B a e).violPllCfg = e.violPllCfg :=
  foldl_same Env.violPllCfg _ (fun e S => tickOne_violPllCfg B a e S) _ e

@[simp] theorem tickOne_violPwrclk (B : BindingData) (a : Nat) (e : Env) (S : StatusId) :
    (tickOne B a e S).violPwrclk = e.violPwrclk := by
  rcases tickOne_cases B a e S with h | ⟨k, -, -, h⟩ | ⟨-, -, h⟩ <;> rw [h]
  exact settle_violPwrclk B S e

@[simp] theorem tick_violPwrclk (B : BindingData) (a : Nat) (e : Env) : (tick B a e).violPwrclk = e.violPwrclk :=
  foldl_same Env.violPwrclk _ (fun e S => tickOne_violPwrclk B a e S) _ e

/-- A read's countdowns store at most in the word read. -/
theorem tick_readByte (B : BindingData) (a : Nat) (e : Env) (x : Nat) (hx : x < a ∨ a + 4 ≤ x) :
    readByte (tick B a e).regs x = readByte e.regs x := by
  refine foldl_same (fun e => readByte e.regs x) _ (fun e S => ?_) _ e
  rcases tickOne_cases B a e S with h | ⟨k, -, -, h⟩ | ⟨ha, -, h⟩ <;> rw [h]
  rw [settle_regs, setCurrent_regs]
  split
  · rfl
  · exact readByte_writeWord_ne _ _ _ _ (ha ▸ hx)

/-- With no countdown running a read settles nothing (R80 (e)). -/
theorem tick_still (B : BindingData) (a : Nat) (e : Env) (h : ∀ S, (timerOf e.timers S).cnt = none) :
    tick B a e = e := by
  have : ∀ l : List StatusId, l.foldl (tickOne B a) e = e := by
    intro l
    induction l with
    | nil => rfl
    | cons S l ih =>
      have hS : tickOne B a e S = e := by
        rcases tickOne_cases B a e S with h' | ⟨k, -, hk, -⟩ | ⟨-, h0, -⟩
        · exact h'
        · simp [h S] at hk
        · simp [h S] at h0
      simpa [hS] using ih
  exact this _

/-! ### Applied writes -/

theorem startOne_timersOnly (B : BindingData) (b e : Env) (S : StatusId) :
    ∃ t : Timers, (∀ R, (timerOf t R).lat = (timerOf e.timers R).lat) ∧ startOne B b e S = { e with timers := t } := by
  unfold startOne
  split
  · exact ⟨_, fun R => by simp, rfl⟩
  · exact ⟨e.timers, fun _ => rfl, rfl⟩

/-- Starting countdowns changes nothing but `CNT`. -/
theorem startCountdowns_timersOnly (B : BindingData) (b e : Env) :
    ∃ t : Timers, (∀ R, (timerOf t R).lat = (timerOf e.timers R).lat) ∧ startCountdowns B b e = { e with timers := t } := by
  have : ∀ (l : List StatusId) (e : Env), ∃ t : Timers, (∀ R, (timerOf t R).lat = (timerOf e.timers R).lat) ∧
      l.foldl (startOne B b) e = { e with timers := t } := by
    intro l
    induction l with
    | nil => exact fun e => ⟨e.timers, fun _ => rfl, rfl⟩
    | cons S l ih =>
      intro e
      obtain ⟨t, ht, he⟩ := startOne_timersOnly B b e S
      obtain ⟨u, hu, hf⟩ := ih (startOne B b e S)
      refine ⟨u, fun R => (hu R).trans (by rw [he]; exact ht R), ?_⟩
      rw [List.foldl_cons, hf, he]
  exact this _ e

/-- What applying a write does, all of it but the countdowns: the addressed word is stored, R81's flags are judged. -/
theorem applyWrite_eq (B : BindingData) (e : Env) (p : PostedWrite) :
    ∃ t : Timers, (∀ R, (timerOf t R).lat = (timerOf e.timers R).lat) ∧
      applyWrite B e p =
        noteClocks B { notePwr B p.addr e with
          regs := writeWord e.regs p.addr (storedWord B e p)
          violPllCfg := e.violPllCfg || pllCfgBroken B e.regs p
          timers := t } := by
  obtain ⟨t, ht, he⟩ := startCountdowns_timersOnly B e { notePwr B p.addr e with
          regs := writeWord e.regs p.addr (storedWord B e p)
          violPllCfg := e.violPllCfg || pllCfgBroken B e.regs p }
  refine ⟨t, ht, ?_⟩
  unfold applyWrite
  simp only [he]

@[simp] theorem applyWrite_regs (B : BindingData) (e : Env) (p : PostedWrite) :
    (applyWrite B e p).regs = writeWord e.regs p.addr (storedWord B e p) := by
  obtain ⟨t, -, h⟩ := applyWrite_eq B e p; rw [h]; rfl

@[simp] theorem applyWrite_posted (B : BindingData) (e : Env) (p : PostedWrite) :
    (applyWrite B e p).posted = e.posted := by
  obtain ⟨t, -, h⟩ := applyWrite_eq B e p; rw [h]; rfl

@[simp] theorem applyWrite_visBkpWpdis (B : BindingData) (e : Env) (p : PostedWrite) :
    (applyWrite B e p).visBkpWpdis = e.visBkpWpdis := by
  obtain ⟨t, -, h⟩ := applyWrite_eq B e p; rw [h]; rfl

@[simp] theorem applyWrite_visLseOn (B : BindingData) (e : Env) (p : PostedWrite) :
    (applyWrite B e p).visLseOn = e.visLseOn := by
  obtain ⟨t, -, h⟩ := applyWrite_eq B e p; rw [h]; rfl

@[simp] theorem applyWrite_visLsesysFlag (B : BindingData) (e : Env) (p : PostedWrite) :
    (applyWrite B e p).visLsesysFlag = e.visLsesysFlag := by
  obtain ⟨t, -, h⟩ := applyWrite_eq B e p; rw [h]; rfl

@[simp] theorem applyWrite_violPllCfg (B : BindingData) (e : Env) (p : PostedWrite) :
    (applyWrite B e p).violPllCfg = (e.violPllCfg || pllCfgBroken B e.regs p) := by
  obtain ⟨t, -, h⟩ := applyWrite_eq B e p; rw [h]; rfl

@[simp] theorem applyWrite_violPwrclk (B : BindingData) (e : Env) (p : PostedWrite) :
    (applyWrite B e p).violPwrclk =
      (e.violPwrclk || (decide (blockOf B p.addr = .pwr) && decide (fieldVal B e.regs .pwrclkEn = 0))) := by
  obtain ⟨t, -, h⟩ := applyWrite_eq B e p; rw [h]; rfl

@[simp] theorem applyWrite_violWs (B : BindingData) (e : Env) (p : PostedWrite) :
    (applyWrite B e p).violWs = (e.violWs || wsBroken B (applyWrite B e p).regs) := by
  obtain ⟨t, -, h⟩ := applyWrite_eq B e p; rw [h]; rfl

@[simp] theorem applyWrite_violFmax (B : BindingData) (e : Env) (p : PostedWrite) :
    (applyWrite B e p).violFmax = (e.violFmax || fmaxBroken B (applyWrite B e p).regs) := by
  obtain ⟨t, -, h⟩ := applyWrite_eq B e p; rw [h]; rfl

theorem applyWrite_keeps (B : BindingData) (e : Env) (p : PostedWrite) : EnvKeeps e (applyWrite B e p) := by
  obtain ⟨t, ht, h⟩ := applyWrite_eq B e p
  rw [h]
  refine .trans ?_ (noteClocks_keeps B _)
  refine ⟨rfl, rfl, ht, ?_, id, id, ?_, memoryWf_writeWord _ _ _⟩
  · intro hv; simp [hv]
  · intro hv; simp [notePwr, hv]

/-! ### Posted writes -/

theorem drain_keeps (B : BindingData) (a : Nat) (e : Env) : EnvKeeps e (drain B a e) := by
  unfold drain
  refine .trans (b := { e with posted := e.posted.filter fun p => !inScope B a p }) ?_
    (EnvKeeps.foldl _ (applyWrite_keeps B) _ _)
  exact ⟨rfl, rfl, fun _ => rfl, id, id, id, id, id⟩

/-- After a drain the entries out of scope are posted still, in their order (R70 (a)). -/
@[simp] theorem drain_posted (B : BindingData) (a : Nat) (e : Env) :
    (drain B a e).posted = e.posted.filter fun p => !inScope B a p := by
  unfold drain
  exact foldl_same Env.posted _ (fun e p => applyWrite_posted B e p) _ _

/-- With nothing posted a drain does nothing. -/
theorem drain_of_empty (B : BindingData) (a : Nat) (e : Env) (h : e.posted = []) : drain B a e = e := by
  obtain ⟨⟩ := e
  subst h
  rfl

/-- A drain stores only in the words of the entries it applies. -/
theorem drain_readByte (B : BindingData) (a : Nat) (e : Env) (x : Nat)
    (h : ∀ p ∈ e.posted, inScope B a p = true → x < p.addr ∨ p.addr + 4 ≤ x) :
    readByte (drain B a e).regs x = readByte e.regs x := by
  have : ∀ (l : List PostedWrite) (e : Env), (∀ p ∈ l, x < p.addr ∨ p.addr + 4 ≤ x) →
      readByte (l.foldl (applyWrite B) e).regs x = readByte e.regs x := by
    intro l
    induction l with
    | nil => exact fun _ _ => rfl
    | cons p l ih =>
      intro e hl
      rw [List.foldl_cons, ih _ fun q hq => hl q (by simp [hq]), applyWrite_regs]
      exact readByte_writeWord_ne _ _ _ _ (hl p (by simp))
  unfold drain
  refine this _ _ fun p hp => ?_
  rw [List.mem_filter] at hp
  exact h p hp.1 hp.2

theorem applyOldest_keeps (B : BindingData) (b : RegBlock) (e : Env) : EnvKeeps e (applyOldest B b e) := by
  unfold applyOldest
  split
  · exact .refl e
  · exact .trans (b := { e with posted := e.posted.eraseP (inClass B b) })
      ⟨rfl, rfl, fun _ => rfl, id, id, id, id, id⟩ (applyWrite_keeps B _ _)

theorem acceptWrite_keeps (B : BindingData) (p : PostedWrite) (e : Env) : EnvKeeps e (acceptWrite B p e) := by
  have h : EnvKeeps e { e with posted := e.posted ++ [p] } := ⟨rfl, rfl, fun _ => rfl, id, id, id, id, id⟩
  unfold acceptWrite
  dsimp only
  split
  · exact h
  · exact h.trans (drain_keeps B _ _)

theorem serveRead_keeps (B : BindingData) (a : Nat) (e : Env) : EnvKeeps e (serveRead B a e) :=
  ((drain_keeps B a e).trans (notePwr_keeps B a _)).trans (tick_keeps B a _)

@[simp] theorem serveRead_posted (B : BindingData) (a : Nat) (e : Env) :
    (serveRead B a e).posted = e.posted.filter fun p => !inScope B a p := by simp [serveRead]

/-- A read stores only in the words it drains and in the word it reads. -/
theorem serveRead_readByte (B : BindingData) (a : Nat) (e : Env) (x : Nat) (hx : x < a ∨ a + 4 ≤ x)
    (h : ∀ p ∈ e.posted, inScope B a p = true → x < p.addr ∨ p.addr + 4 ≤ x) :
    readByte (serveRead B a e).regs x = readByte e.regs x := by
  unfold serveRead
  rw [tick_readByte _ _ _ _ hx, notePwr_regs, drain_readByte _ _ _ _ h]

theorem setStatus_keeps (B : BindingData) (S : StatusId) (v : Word) (e : Env) : EnvKeeps e (setStatus B S v e) :=
  (setCurrent_keeps B e S v).trans (noteClocks_keeps B _)

theorem pokeReg_keeps (B : BindingData) (a : Nat) (w : Word) (e : Env) : EnvKeeps e (pokeReg B a w e) :=
  .trans (b := { e with regs := writeWord e.regs a w })
    ⟨rfl, rfl, fun _ => rfl, id, id, id, id, memoryWf_writeWord _ _ _⟩ (noteClocks_keeps B _)

/-! ### Fields under an applied write -/

theorem maskAt_nil (B : BindingData) (a : Nat) : maskAt B a [] = 0 := rfl

theorem getLsbD_maskAt (B : BindingData) (a : Nat) (fs : List FieldId) (i : Nat) :
    (maskAt B a fs).getLsbD i = fs.any fun f => decide ((descOf B f).addr = a) && (descOf B f).mask.getLsbD i := by
  have : ∀ (l : List FieldId) (w : Word),
      (l.foldl (fun w f => if (descOf B f).addr = a then w ||| (descOf B f).mask else w) w).getLsbD i =
        (w.getLsbD i || l.any fun f => decide ((descOf B f).addr = a) && (descOf B f).mask.getLsbD i) := by
    intro l
    induction l with
    | nil => simp
    | cons f l ih =>
      intro w
      rw [List.foldl_cons, ih]
      split <;> simp [*, Bool.or_assoc]
  simpa [maskAt] using this fs 0

/-- A mask disjoint from each listed field's at the address is disjoint from their union. -/
theorem and_maskAt_zero (B : BindingData) (a : Nat) (fs : List FieldId) (m : Word)
    (h : ∀ f ∈ fs, (descOf B f).addr = a → m &&& (descOf B f).mask = 0) : m &&& maskAt B a fs = 0 := by
  apply BitVec.eq_of_getLsbD_eq
  intro i hi
  rw [BitVec.getLsbD_and, getLsbD_maskAt]
  simp only [BitVec.ofNat_eq_ofNat, BitVec.getLsbD_zero, Bool.and_eq_false_iff]
  by_cases hm : m.getLsbD i = true
  · right
    rw [List.any_eq_false]
    intro f hf
    by_cases ha : (descOf B f).addr = a
    · have : (m &&& (descOf B f).mask).getLsbD i = false := by simp [h f hf ha]
      simpa [hm, ha] using this
    · simp [ha]
  · left; simpa using hm

/-- Bits a write does not keep take the written ones (R77). -/
theorem storedWord_written (B : BindingData) (e : Env) (p : PostedWrite) (m : Word) (h : m &&& keptMask B e p = 0) :
    storedWord B e p &&& m = p.data &&& m := by
  apply BitVec.eq_of_getLsbD_eq
  intro i hi
  have hb : (m &&& keptMask B e p).getLsbD i = false := by simp [h]
  rw [BitVec.getLsbD_and, Bool.and_eq_false_iff] at hb
  simp only [storedWord, BitVec.getLsbD_and, BitVec.getLsbD_or, BitVec.getLsbD_not, hi, decide_true, Bool.true_and]
  rcases hb with hb | hb <;> simp [hb]

/-- Bits a write keeps are as they were (R75, R76, R77). -/
theorem storedWord_kept (B : BindingData) (e : Env) (p : PostedWrite) (m : Word) (h : m &&& ~~~keptMask B e p = 0) :
    storedWord B e p &&& m = readWord e.regs p.addr &&& m := by
  apply BitVec.eq_of_getLsbD_eq
  intro i hi
  have hb : (m &&& ~~~keptMask B e p).getLsbD i = false := by simp [h]
  simp only [BitVec.getLsbD_and, BitVec.getLsbD_not, hi, decide_true, Bool.true_and] at hb
  simp only [storedWord, BitVec.getLsbD_and, BitVec.getLsbD_or, BitVec.getLsbD_not, hi, decide_true, Bool.true_and]
  revert hb
  cases m.getLsbD i <;> cases (keptMask B e p).getLsbD i <;> simp

end Sys2Proof.Machine
end

