-- ==== Sys2Proof/Laws/PerInstr.lean ====
section
/-! SUPPORT. One lemma per step about its row of the table (30_encoding R91, R97): its code decodes to it, the code's two
parts are its unit and its index, and every successor of its row is the code of a listed step (R108). -/

namespace Sys2Proof.Laws

/-- A step's code stands for it, splits into unit and index, and leads only to listed codes. -/
def StepRow.Statement (i : Instr) : Prop :=
  decode (encode i) = some i ∧ (encode i).extractLsb' 5 2 = i.unit.bits ∧ (encode i).extractLsb' 0 5 = i.index ∧
    ∀ c ∈ i.successors, (decode c).isSome = true

theorem StepRow.idle : StepRow.Statement .idle := by unfold StepRow.Statement; decide
theorem StepRow.s1a : StepRow.Statement .s1a := by unfold StepRow.Statement; decide
theorem StepRow.s1b : StepRow.Statement .s1b := by unfold StepRow.Statement; decide
theorem StepRow.s2a : StepRow.Statement .s2a := by unfold StepRow.Statement; decide
theorem StepRow.s2b : StepRow.Statement .s2b := by unfold StepRow.Statement; decide
theorem StepRow.o1a : StepRow.Statement .o1a := by unfold StepRow.Statement; decide
theorem StepRow.o1b : StepRow.Statement .o1b := by unfold StepRow.Statement; decide
theorem StepRow.o2a : StepRow.Statement .o2a := by unfold StepRow.Statement; decide
theorem StepRow.o2b : StepRow.Statement .o2b := by unfold StepRow.Statement; decide
theorem StepRow.o2c : StepRow.Statement .o2c := by unfold StepRow.Statement; decide
theorem StepRow.o3a : StepRow.Statement .o3a := by unfold StepRow.Statement; decide
theorem StepRow.o3b : StepRow.Statement .o3b := by unfold StepRow.Statement; decide
theorem StepRow.o3c : StepRow.Statement .o3c := by unfold StepRow.Statement; decide
theorem StepRow.o4a : StepRow.Statement .o4a := by unfold StepRow.Statement; decide
theorem StepRow.o4b : StepRow.Statement .o4b := by unfold StepRow.Statement; decide
theorem StepRow.o5a : StepRow.Statement .o5a := by unfold StepRow.Statement; decide
theorem StepRow.o5b : StepRow.Statement .o5b := by unfold StepRow.Statement; decide
theorem StepRow.s4a : StepRow.Statement .s4a := by unfold StepRow.Statement; decide
theorem StepRow.s4b : StepRow.Statement .s4b := by unfold StepRow.Statement; decide
theorem StepRow.halt : StepRow.Statement .halt := by unfold StepRow.Statement; decide
theorem StepRow.done : StepRow.Statement .done := by unfold StepRow.Statement; decide
theorem StepRow.p1 : StepRow.Statement .p1 := by unfold StepRow.Statement; decide
theorem StepRow.p2 : StepRow.Statement .p2 := by unfold StepRow.Statement; decide
theorem StepRow.p3 : StepRow.Statement .p3 := by unfold StepRow.Statement; decide
theorem StepRow.p4 : StepRow.Statement .p4 := by unfold StepRow.Statement; decide
theorem StepRow.p5 : StepRow.Statement .p5 := by unfold StepRow.Statement; decide
theorem StepRow.p6 : StepRow.Statement .p6 := by unfold StepRow.Statement; decide
theorem StepRow.s5 : StepRow.Statement .s5 := by unfold StepRow.Statement; decide
theorem StepRow.s6a : StepRow.Statement .s6a := by unfold StepRow.Statement; decide
theorem StepRow.s6b : StepRow.Statement .s6b := by unfold StepRow.Statement; decide
theorem StepRow.s7 : StepRow.Statement .s7 := by unfold StepRow.Statement; decide
theorem StepRow.s8a : StepRow.Statement .s8a := by unfold StepRow.Statement; decide
theorem StepRow.s8b : StepRow.Statement .s8b := by unfold StepRow.Statement; decide
theorem StepRow.s9a : StepRow.Statement .s9a := by unfold StepRow.Statement; decide
theorem StepRow.s9b : StepRow.Statement .s9b := by unfold StepRow.Statement; decide
theorem StepRow.g1 : StepRow.Statement .g1 := by unfold StepRow.Statement; decide

end Sys2Proof.Laws
end

