-- ==== Sys2Proof/Laws/State.lean ====
section
/-! SUPPORT. One lemma per field per state update, each true by `rfl`. -/

namespace Sys2Proof.Machine


section memRead
variable (s : State) (a : Nat)

@[simp] theorem memRead_binding : (memRead a s).binding = s.binding := rfl
@[simp] theorem memRead_ST : (memRead a s).ST = s.ST := rfl
@[simp] theorem memRead_PH : (memRead a s).PH = s.PH := rfl
@[simp] theorem memRead_T : (memRead a s).T = answer s.bind (serveRead s.bind a s.env) a := rfl
@[simp] theorem memRead_PCNT : (memRead a s).PCNT = s.PCNT := rfl
@[simp] theorem memRead_FAIL : (memRead a s).FAIL = s.FAIL := rfl
@[simp] theorem memRead_DN : (memRead a s).DN = s.DN := rfl
@[simp] theorem memRead_TO : (memRead a s).TO = s.TO := rfl
@[simp] theorem memRead_HIT : (memRead a s).HIT = s.HIT := rfl
@[simp] theorem memRead_GA : (memRead a s).GA = s.GA := rfl
@[simp] theorem memRead_GB : (memRead a s).GB = s.GB := rfl
@[simp] theorem memRead_ports : (memRead a s).ports = s.ports := rfl
@[simp] theorem memRead_env : (memRead a s).env = serveRead s.bind a s.env := rfl
@[simp] theorem memRead_trace : (memRead a s).trace = s.trace ++ [.read a (answer s.bind (serveRead s.bind a s.env) a)] := rfl
@[simp] theorem memRead_sched : (memRead a s).sched = s.sched := rfl

end memRead


section memWrite
variable (s : State) (a : Nat) (v : Word)

@[simp] theorem memWrite_binding : (memWrite a v s).binding = s.binding := rfl
@[simp] theorem memWrite_ST : (memWrite a v s).ST = s.ST := rfl
@[simp] theorem memWrite_PH : (memWrite a v s).PH = s.PH := rfl
@[simp] theorem memWrite_T : (memWrite a v s).T = s.T := rfl
@[simp] theorem memWrite_PCNT : (memWrite a v s).PCNT = s.PCNT := rfl
@[simp] theorem memWrite_FAIL : (memWrite a v s).FAIL = s.FAIL := rfl
@[simp] theorem memWrite_DN : (memWrite a v s).DN = s.DN := rfl
@[simp] theorem memWrite_TO : (memWrite a v s).TO = s.TO := rfl
@[simp] theorem memWrite_HIT : (memWrite a v s).HIT = s.HIT := rfl
@[simp] theorem memWrite_GA : (memWrite a v s).GA = s.GA := rfl
@[simp] theorem memWrite_GB : (memWrite a v s).GB = s.GB := rfl
@[simp] theorem memWrite_ports : (memWrite a v s).ports = s.ports := rfl
@[simp] theorem memWrite_env : (memWrite a v s).env = acceptWrite s.bind ⟨a, v⟩ s.env := rfl
@[simp] theorem memWrite_trace : (memWrite a v s).trace = s.trace ++ [.write a v] := rfl
@[simp] theorem memWrite_sched : (memWrite a v s).sched = s.sched := rfl

end memWrite


section goto
variable (s : State) (c : Code)

@[simp] theorem goto_binding : (goto c s).binding = s.binding := rfl
@[simp] theorem goto_ST : (goto c s).ST = c := rfl
@[simp] theorem goto_PH : (goto c s).PH = s.PH := rfl
@[simp] theorem goto_T : (goto c s).T = s.T := rfl
@[simp] theorem goto_PCNT : (goto c s).PCNT = 0 := rfl
@[simp] theorem goto_FAIL : (goto c s).FAIL = s.FAIL := rfl
@[simp] theorem goto_DN : (goto c s).DN = s.DN := rfl
@[simp] theorem goto_TO : (goto c s).TO = s.TO := rfl
@[simp] theorem goto_HIT : (goto c s).HIT = s.HIT := rfl
@[simp] theorem goto_GA : (goto c s).GA = s.GA := rfl
@[simp] theorem goto_GB : (goto c s).GB = s.GB := rfl
@[simp] theorem goto_ports : (goto c s).ports = s.ports := rfl
@[simp] theorem goto_env : (goto c s).env = s.env := rfl
@[simp] theorem goto_trace : (goto c s).trace = s.trace := rfl
@[simp] theorem goto_sched : (goto c s).sched = s.sched := rfl

end goto


section enterHalt
variable (s : State)

@[simp] theorem enterHalt_binding : (enterHalt s).binding = s.binding := rfl
@[simp] theorem enterHalt_ST : (enterHalt s).ST = 0x1E := rfl
@[simp] theorem enterHalt_PH : (enterHalt s).PH = false := rfl
@[simp] theorem enterHalt_T : (enterHalt s).T = s.T := rfl
@[simp] theorem enterHalt_PCNT : (enterHalt s).PCNT = s.PCNT := rfl
@[simp] theorem enterHalt_FAIL : (enterHalt s).FAIL = s.ST := rfl
@[simp] theorem enterHalt_DN : (enterHalt s).DN = s.DN := rfl
@[simp] theorem enterHalt_TO : (enterHalt s).TO = true := rfl
@[simp] theorem enterHalt_HIT : (enterHalt s).HIT = s.HIT := rfl
@[simp] theorem enterHalt_GA : (enterHalt s).GA = s.GA := rfl
@[simp] theorem enterHalt_GB : (enterHalt s).GB = s.GB := rfl
@[simp] theorem enterHalt_ports : (enterHalt s).ports = s.ports := rfl
@[simp] theorem enterHalt_env : (enterHalt s).env = s.env := rfl
@[simp] theorem enterHalt_trace : (enterHalt s).trace = s.trace := rfl
@[simp] theorem enterHalt_sched : (enterHalt s).sched = s.sched := rfl

end enterHalt


section blockReset
variable (s : State)

@[simp] theorem blockReset_binding : (blockReset s).binding = s.binding := rfl
@[simp] theorem blockReset_ST : (blockReset s).ST = 0 := rfl
@[simp] theorem blockReset_PH : (blockReset s).PH = false := rfl
@[simp] theorem blockReset_T : (blockReset s).T = 0 := rfl
@[simp] theorem blockReset_PCNT : (blockReset s).PCNT = 0 := rfl
@[simp] theorem blockReset_FAIL : (blockReset s).FAIL = 0 := rfl
@[simp] theorem blockReset_DN : (blockReset s).DN = false := rfl
@[simp] theorem blockReset_TO : (blockReset s).TO = false := rfl
@[simp] theorem blockReset_HIT : (blockReset s).HIT = false := rfl
@[simp] theorem blockReset_GA : (blockReset s).GA = 0 := rfl
@[simp] theorem blockReset_GB : (blockReset s).GB = 0 := rfl
@[simp] theorem blockReset_ports : (blockReset s).ports = s.ports := rfl
@[simp] theorem blockReset_env : (blockReset s).env = s.env := rfl
@[simp] theorem blockReset_trace : (blockReset s).trace = s.trace := rfl
@[simp] theorem blockReset_sched : (blockReset s).sched = s.sched := rfl

end blockReset


section raiseDN
variable (s : State)

@[simp] theorem raiseDN_binding : (raiseDN s).binding = s.binding := rfl
@[simp] theorem raiseDN_ST : (raiseDN s).ST = s.ST := rfl
@[simp] theorem raiseDN_PH : (raiseDN s).PH = s.PH := rfl
@[simp] theorem raiseDN_T : (raiseDN s).T = s.T := rfl
@[simp] theorem raiseDN_PCNT : (raiseDN s).PCNT = s.PCNT := rfl
@[simp] theorem raiseDN_FAIL : (raiseDN s).FAIL = s.FAIL := rfl
@[simp] theorem raiseDN_DN : (raiseDN s).DN = true := rfl
@[simp] theorem raiseDN_TO : (raiseDN s).TO = s.TO := rfl
@[simp] theorem raiseDN_HIT : (raiseDN s).HIT = s.HIT := rfl
@[simp] theorem raiseDN_GA : (raiseDN s).GA = s.GA := rfl
@[simp] theorem raiseDN_GB : (raiseDN s).GB = s.GB := rfl
@[simp] theorem raiseDN_ports : (raiseDN s).ports = s.ports := rfl
@[simp] theorem raiseDN_env : (raiseDN s).env = s.env := rfl
@[simp] theorem raiseDN_trace : (raiseDN s).trace = s.trace := rfl
@[simp] theorem raiseDN_sched : (raiseDN s).sched = s.sched := rfl

end raiseDN


section ackGate
variable (s : State) (h : Bool)

@[simp] theorem ackGate_binding : (ackGate h s).binding = s.binding := rfl
@[simp] theorem ackGate_ST : (ackGate h s).ST = s.ST := rfl
@[simp] theorem ackGate_PH : (ackGate h s).PH = s.PH := rfl
@[simp] theorem ackGate_T : (ackGate h s).T = s.T := rfl
@[simp] theorem ackGate_PCNT : (ackGate h s).PCNT = s.PCNT := rfl
@[simp] theorem ackGate_FAIL : (ackGate h s).FAIL = s.FAIL := rfl
@[simp] theorem ackGate_DN : (ackGate h s).DN = s.DN := rfl
@[simp] theorem ackGate_TO : (ackGate h s).TO = s.TO := rfl
@[simp] theorem ackGate_HIT : (ackGate h s).HIT = h := rfl
@[simp] theorem ackGate_GA : (ackGate h s).GA = s.GA := rfl
@[simp] theorem ackGate_GB : (ackGate h s).GB = s.GB := rfl
@[simp] theorem ackGate_ports : (ackGate h s).ports = { s.ports with gateReq := false } := rfl
@[simp] theorem ackGate_env : (ackGate h s).env = s.env := rfl
@[simp] theorem ackGate_trace : (ackGate h s).trace = s.trace ++ [.gateAck h] := rfl
@[simp] theorem ackGate_sched : (ackGate h s).sched = s.sched := rfl

end ackGate


section enterCode
variable (s : State) (c : Code)

@[simp] theorem enterCode_binding : (enterCode c s).binding = s.binding := rfl
@[simp] theorem enterCode_ST : (enterCode c s).ST = c := rfl
@[simp] theorem enterCode_PH : (enterCode c s).PH = false := rfl
@[simp] theorem enterCode_T : (enterCode c s).T = s.T := rfl
@[simp] theorem enterCode_PCNT : (enterCode c s).PCNT = s.PCNT := rfl
@[simp] theorem enterCode_FAIL : (enterCode c s).FAIL = s.FAIL := rfl
@[simp] theorem enterCode_DN : (enterCode c s).DN = s.DN := rfl
@[simp] theorem enterCode_TO : (enterCode c s).TO = s.TO := rfl
@[simp] theorem enterCode_HIT : (enterCode c s).HIT = s.HIT := rfl
@[simp] theorem enterCode_GA : (enterCode c s).GA = s.GA := rfl
@[simp] theorem enterCode_GB : (enterCode c s).GB = s.GB := rfl
@[simp] theorem enterCode_ports : (enterCode c s).ports = { s.ports with rst := false } := rfl
@[simp] theorem enterCode_env : (enterCode c s).env = s.env := rfl
@[simp] theorem enterCode_trace : (enterCode c s).trace = s.trace := rfl
@[simp] theorem enterCode_sched : (enterCode c s).sched = [] := rfl

end enterCode


end Sys2Proof.Machine
end

