-- ==== Sys2Proof/Laws/Steps.lean ====
section
/-! SUPPORT. What a step can do, said once: the seven kinds by cases, `exec` by kind, `step` by the next act, and the
induction over a run. -/

namespace Sys2Proof.Machine

/-! ### The kinds -/

theorem onAck_wait {f : State → State} {s : State} (h : s.ports.busAck = false) : onAck f s = s := by simp [onAck, h]

theorem onAck_move {f : State → State} {s : State} (h : s.ports.busAck = true) : onAck f s = f s := by simp [onAck, h]

/-- A SETF move: the bus is silent, the read half, or the write half (R98). -/
theorem setf_cases (F : FieldRef) (V : ValSel) (n : Code) (fin : State → State) (s : State) :
    (s.ports.busAck = false ∧ setf F V n fin s = s) ∨
    (s.ports.busAck = true ∧ s.PH = false ∧ setf F V n fin s = { memRead (resolve s F).addr s with PH := true }) ∨
    (s.ports.busAck = true ∧ s.PH = true ∧
      setf F V n fin s = fin (goto n
        { memWrite (resolve s F).addr (ins (resolve s F) s.T (valOf s.bind V)) s with PH := false })) := by
  cases h : s.ports.busAck <;> cases hp : s.PH <;> simp [setf, setfWrite, onAck, h, hp]

/-- An RDBK move (R99). -/
theorem rdbk_cases (F : FieldRef) (n : Code) (s : State) :
    (s.ports.busAck = false ∧ rdbk F n s = s) ∨
    (s.ports.busAck = true ∧ rdbk F n s = goto n (memRead (resolve s F).addr s)) := by
  cases h : s.ports.busAck <;> simp [rdbk, onAck, h]

/-- A WAIT move: silent bus, match, unbounded repeat, bounded repeat, or timeout (R100, R203). -/
theorem wait_cases (F : FieldRef) (V : ValSel) (n : Code) (s : State) :
    let r := memRead (resolve s F).addr s
    (s.ports.busAck = false ∧ wait F V n s = s) ∨
    (s.ports.busAck = true ∧ fld (resolve s F) r.T = valOf s.bind V ∧ wait F V n s = goto n r) ∨
    (s.ports.busAck = true ∧ fld (resolve s F) r.T ≠ valOf s.bind V ∧ s.bind.pollMax = 0 ∧ wait F V n s = r) ∨
    (s.ports.busAck = true ∧ fld (resolve s F) r.T ≠ valOf s.bind V ∧ s.bind.pollMax ≠ 0 ∧
      s.PCNT + 1 ≠ s.bind.pollMax ∧ wait F V n s = { r with PCNT := s.PCNT + 1 }) ∨
    (s.ports.busAck = true ∧ fld (resolve s F) r.T ≠ valOf s.bind V ∧ s.bind.pollMax ≠ 0 ∧
      s.PCNT + 1 = s.bind.pollMax ∧ wait F V n s = enterHalt { r with PCNT := s.PCNT + 1 }) := by
  intro r
  cases h : s.ports.busAck
  · exact .inl ⟨rfl, onAck_wait h⟩
  · have hw : wait F V n s =
        if fld (resolve s F) r.T = valOf s.bind V then goto n r
        else if s.bind.pollMax = 0 then r
        else if s.PCNT + 1 = s.bind.pollMax then enterHalt { r with PCNT := s.PCNT + 1 }
        else { r with PCNT := s.PCNT + 1 } := by
      unfold wait; rw [onAck_move h]; rfl
    rw [hw]
    split
    · next h1 => exact .inr (.inl ⟨rfl, h1, rfl⟩)
    · next h1 =>
      split
      · next h2 => exact .inr (.inr (.inl ⟨rfl, h1, h2, rfl⟩))
      · next h2 =>
        split
        · next h3 => exact .inr (.inr (.inr (.inr ⟨rfl, h1, h2, h3, rfl⟩)))
        · next h3 => exact .inr (.inr (.inr (.inl ⟨rfl, h1, h2, h3, rfl⟩)))

/-- A skip move: silent bus, or `alt` or `next` after one read (R101 to R103). -/
theorem skipIf_cases (cmp : Word → Word → Bool) (F : FieldRef) (V : ValSel) (n a : Code) (s : State) :
    let r := memRead (resolve s F).addr s
    (s.ports.busAck = false ∧ skipIf cmp F V n a s = s) ∨
    (s.ports.busAck = true ∧ cmp (fld (resolve s F) r.T) (valOf s.bind V) = true ∧ skipIf cmp F V n a s = goto a r) ∨
    (s.ports.busAck = true ∧ cmp (fld (resolve s F) r.T) (valOf s.bind V) = false ∧ skipIf cmp F V n a s = goto n r) := by
  intro r
  cases h : s.ports.busAck
  · exact .inl ⟨rfl, onAck_wait h⟩
  · have hs : skipIf cmp F V n a s = goto (if cmp (fld (resolve s F) r.T) (valOf s.bind V) then a else n) r := by
      unfold skipIf; rw [onAck_move h]
    rw [hs]
    cases hc : cmp (fld (resolve s F) r.T) (valOf s.bind V)
    · exact .inr (.inr ⟨rfl, rfl, rfl⟩)
    · exact .inr (.inl ⟨rfl, rfl, rfl⟩)

/-- IDLE's move (R120). -/
theorem idleMove_cases (s : State) :
    (s.ports.rst = false ∧ s.ports.start = true ∧ idleMove s = { s with PH := false, PCNT := 0, ST := 0x01 }) ∨
    (¬(s.ports.rst = false ∧ s.ports.start = true) ∧ idleMove s = s) := by
  cases hr : s.ports.rst <;> cases hs : s.ports.start <;> simp [idleMove, hr, hs]

/-- DONE's move: no request, a hit, or a miss (R139, R192, R193). -/
theorem doneMove_cases (s : State) :
    (s.ports.gateReq = false ∧ doneMove s = s) ∨
    (∃ g, s.ports.gateReq = true ∧ gateLookup s.bind s.ports.gateId = some g ∧
      doneMove s = { s with GA := s.bind.bankAddr.get g.bank, GB := BitVec.ofNat 5 g.bit, PH := false, ST := 0x60 }) ∨
    (s.ports.gateReq = true ∧ gateLookup s.bind s.ports.gateId = none ∧ doneMove s = ackGate false s) := by
  unfold doneMove
  cases hg : s.ports.gateReq
  · simp
  · cases hl : gateLookup s.bind s.ports.gateId <;> simp

/-- A request that hits names a row of the table (R190). -/
theorem gateLookup_mem {B : BindingData} {id : Nat} {g : GateEntry} (h : gateLookup B id = some g) :
    g ∈ B.gateTable ∧ g.id = id % 2 ^ B.idw := by
  have h1 := List.mem_of_find?_eq_some h
  have h2 := List.find?_some h
  exact ⟨h1, by simpa using h2⟩

/-! ### exec by kind -/

/-- What a SETF step adds when its write is acknowledged (R177, R192). -/
def finishOf : Instr → State → State
  | .s9b => raiseDN
  | .g1 => ackGate true
  | _ => id

/-- A step's move read off its row (R97). -/
def moveOf (i : Instr) : State → State :=
  match i.form with
  | .setf F V n => setf F V n (finishOf i)
  | .rdbk F n => rdbk F n
  | .wait F V n => wait F V n
  | .skeq F V n a => skeq F V n a
  | .skge F V n a => skge F V n a
  | .skle F V n a => skle F V n a
  | .ctrl =>
    match i with
    | .idle => idleMove
    | .done => doneMove
    | _ => id

/-- Each step's meaning is its row's move: seven kinds instead of 36 steps. -/
theorem exec_eq (i : Instr) (s : State) : exec i s = .next (moveOf i s) := by cases i <;> rfl

/-- Each step answers with a next state. -/
theorem exec_next (i : Instr) (s : State) : ∃ t, exec i s = .next t := ⟨_, exec_eq i s⟩

/-! ### step by act -/

/-- The block's clock edge: reset, a listed step, or an illegal code (R106, R207). -/
theorem clockEdge_cases (s : State) :
    (s.ports.rst = true ∧ clockEdge s = .next (blockReset s)) ∨
    (∃ i, s.ports.rst = false ∧ decode s.ST = some i ∧ clockEdge s = .next (moveOf i s)) ∨
    (s.ports.rst = false ∧ decode s.ST = none ∧ clockEdge s = .next (enterHalt s)) := by
  unfold clockEdge fetch
  cases hr : s.ports.rst
  · cases hd : decode s.ST with
    | none => simp
    | some i => simp [exec_eq]
  · simp

/-- What one act does, as a function of the state. -/
def actOf (a : Act) (s : State) : State :=
  match a with
  | .edge =>
    if s.ports.rst then blockReset s
    else match decode s.ST with
      | some i => moveOf i s
      | none => enterHalt s
  | .setRst b => { s with ports := { s.ports with rst := b } }
  | .setStart b => { s with ports := { s.ports with start := b } }
  | .setAck b => { s with ports := { s.ports with busAck := b } }
  | .gateRequest id => requestGate id s
  | .applyPosted b => { s with env := applyOldest s.bind b s.env }
  | .settle S => { s with env := settle s.bind S s.env }
  | .status S v => { s with env := setStatus s.bind S v s.env }
  | .otherWrite a w => { s with env := applyWrite s.bind s.env ⟨a, w⟩ }
  | .poke a w => { s with env := pokeReg s.bind a w s.env }

theorem perform_eq (a : Act) (s : State) : perform a s = .next (actOf a s) := by
  cases a <;> try rfl
  rcases clockEdge_cases s with ⟨hr, h⟩ | ⟨i, hr, hd, h⟩ | ⟨hr, hd, h⟩ <;> simp [perform, actOf, *]

/-- One step is one act: the block's edge when the schedule is empty, else the act at its head. -/
theorem step_eq (s : State) :
    step s = .next (match s.sched with
      | [] => actOf .edge s
      | a :: rest => actOf a { s with sched := rest }) := by
  unfold step move
  cases h : s.sched with
  | nil => exact perform_eq .edge s
  | cons a rest => exact perform_eq a _

/-- Each step of the machine answers with a next state: nothing stops it (log entry 6). -/
theorem step_next (s : State) : ∃ t, step s = .next t := ⟨_, step_eq s⟩

/-- Inversion of a step. -/
theorem step_cases {s t : State} (h : step s = .next t) :
    (s.sched = [] ∧ t = actOf .edge s) ∨ (∃ a rest, s.sched = a :: rest ∧ t = actOf a { s with sched := rest }) := by
  rw [step_eq] at h
  cases hs : s.sched with
  | nil => left; simpa [hs, eq_comm] using h
  | cons a rest => right; exact ⟨a, rest, rfl, by simpa [hs, eq_comm] using h⟩

/-! ### Runs -/

theorem runFor_succ {s t : State} (k : Nat) (h : step s = .next t) : runFor (k + 1) s = runFor k t := by
  rw [runFor, h]

theorem reaches_refl (s : State) : Reaches s s := ⟨0, rfl⟩

/-- A property that every step keeps holds of every state of a run that starts with it. -/
theorem reaches_invariant (P : State → Prop) (hP : ∀ s t, P s → step s = .next t → P t) {s t : State} (h : Reaches s t)
    (hs : P s) : P t := by
  obtain ⟨k, hk⟩ := h
  induction k generalizing s with
  | zero => cases hk; exact hs
  | succ k ih =>
    obtain ⟨u, hu⟩ := step_next s
    rw [runFor_succ k hu] at hk
    exact ih (hP s u hs hu) hk

/-- A property that every step keeps while the premise holds is true all along a run under the premise. -/
theorem reachesUnder_invariant {P : State → Prop} (I : State → Prop)
    (hI : ∀ s t, P s → I s → step s = .next t → I t) {s t : State} (h : ReachesUnder P s t) (hs : I s) : I t := by
  induction h with
  | refl => exact hs
  | tail _ hp hu ih => exact hI _ _ hp ih hu

theorem ReachesUnder.mono {P Q : State → Prop} (hPQ : ∀ s, P s → Q s) {s t : State} (h : ReachesUnder P s t) :
    ReachesUnder Q s t := by
  induction h with
  | refl => exact .refl
  | tail _ hp hu ih => exact .tail ih (hPQ _ hp) hu

theorem runFor_add (j k : Nat) {s t : State} (h : runFor j s = .next t) : runFor (j + k) s = runFor k t := by
  induction j generalizing s with
  | zero => cases h; rw [Nat.zero_add]
  | succ j ih =>
    obtain ⟨u, hu⟩ := step_next s
    rw [runFor_succ j hu] at h
    rw [Nat.succ_add, runFor_succ (j + k) hu, ih h]

/-- A run under a premise is a run. -/
theorem ReachesUnder.reaches {P : State → Prop} {s t : State} (h : ReachesUnder P s t) : Reaches s t := by
  induction h with
  | refl => exact reaches_refl s
  | tail _ _ hu ih =>
    obtain ⟨k, hk⟩ := ih
    exact ⟨k + 1, by rw [runFor_add k 1 hk, runFor_succ 0 hu]; rfl⟩

/-- `stateAfter` is the state that `runFor` answers with. -/
theorem runFor_stateAfter (k : Nat) (s : State) : runFor k s = .next (stateAfter k s) := by
  induction k generalizing s with
  | zero => rfl
  | succ k ih =>
    obtain ⟨u, hu⟩ := step_next s
    rw [runFor_succ k hu, ih u, stateAfter, hu]

theorem stateAfter_add (j k : Nat) (s : State) : stateAfter (j + k) s = stateAfter k (stateAfter j s) := by
  have h := runFor_add j k (runFor_stateAfter j s)
  rw [runFor_stateAfter, runFor_stateAfter] at h
  exact Host.Outcome.next.inj h

/-- One more step at the end of a run. -/
theorem step_stateAfter (k : Nat) (s : State) : step (stateAfter k s) = .next (stateAfter (k + 1) s) := by
  obtain ⟨u, hu⟩ := step_next (stateAfter k s)
  have h := runFor_add k 1 (runFor_stateAfter k s)
  rw [runFor_stateAfter, runFor_succ 0 hu] at h
  rw [hu, h]; rfl

theorem finishOf_sched (i : Instr) (s : State) : (finishOf i s).sched = s.sched := by cases i <;> rfl

theorem skipIf_sched (cmp : Word → Word → Bool) (F : FieldRef) (V : ValSel) (n a : Code) (s : State) :
    (skipIf cmp F V n a s).sched = s.sched := by
  rcases skipIf_cases cmp F V n a s with ⟨-, h⟩ | ⟨-, -, h⟩ | ⟨-, -, h⟩ <;> simp [h]

/-- A step's move leaves the schedule alone. -/
theorem moveOf_sched (i : Instr) (s : State) : (moveOf i s).sched = s.sched := by
  unfold moveOf
  cases i.form with
  | setf F V n =>
    rcases setf_cases F V n (finishOf i) s with ⟨-, h⟩ | ⟨-, -, h⟩ | ⟨-, -, h⟩ <;> simp [h, finishOf_sched]
  | rdbk F n => rcases rdbk_cases F n s with ⟨-, h⟩ | ⟨-, h⟩ <;> simp [h]
  | wait F V n =>
    rcases wait_cases F V n s with ⟨-, h⟩ | ⟨-, -, h⟩ | ⟨-, -, -, h⟩ | ⟨-, -, -, -, h⟩ | ⟨-, -, -, -, h⟩ <;> simp [h]
  | skeq F V n a => exact skipIf_sched _ F V n a s
  | skge F V n a => exact skipIf_sched _ F V n a s
  | skle F V n a => exact skipIf_sched _ F V n a s
  | ctrl =>
    cases i <;> try rfl
    · rcases idleMove_cases s with ⟨-, -, h⟩ | ⟨-, h⟩ <;> simp [h]
    · rcases doneMove_cases s with ⟨-, h⟩ | ⟨g, -, -, h⟩ | ⟨-, -, h⟩ <;> simp [h]

/-- With no act of another agent left, none comes back. -/
theorem step_sched {s t : State} (hs : s.sched = []) (h : step s = .next t) : t.sched = [] := by
  rcases step_cases h with ⟨-, rfl⟩ | ⟨a, rest, ha, -⟩
  · unfold actOf
    dsimp only
    split
    · exact hs
    · split
      · rw [moveOf_sched, hs]
      · exact hs
  · rw [hs] at ha; cases ha

theorem stateAfter_sched {s : State} (hs : s.sched = []) (k : Nat) : (stateAfter k s).sched = [] := by
  induction k with
  | zero => exact hs
  | succ k ih => exact step_sched ih (step_stateAfter k s)

/-- With no act of another agent left, every premise on those acts is met. -/
theorem nextAct_of_empty (P : State → Act → Prop) {s : State} (hs : s.sched = []) : NextAct P s := by
  intro a rest h
  rw [hs] at h
  cases h

/-- Where only the block moves, every state of a run is reached under every premise that an empty schedule meets. -/
theorem reachesUnder_of_empty {P : State → Prop} (hP : ∀ s, s.sched = [] → P s) {s : State} (hs : s.sched = []) (k : Nat) :
    ReachesUnder P s (stateAfter k s) := by
  induction k with
  | zero => exact .refl
  | succ k ih => exact .tail ih (hP _ (stateAfter_sched hs k)) (step_stateAfter k s)

/-- ENV_SOLE as R78 words it follows from its extension to both ends. -/
theorem SoleSoFar.envSole {s : State} {a : Act} (h : SoleSoFar s a) : EnvSole s a := by
  cases a <;> first | exact trivial | exact fun ht => absurd ht h

end Sys2Proof.Machine
end

