-- ==== Sys2Proof/Tests/Slice0.lean ====
section
/-! SUPPORT. Tests: bindings that WellFormed refuses, codes written out in bits, single steps from the vectors of
95_test_vectors (each names its vector), and for every statement with hypotheses a state that meets them. -/

namespace Sys2Proof.Tests

open Sys2Proof Sys2Proof.Machine

/-! ### States the tests start from -/

/-- TESTBIND with its proof of R9. -/
def tb : Binding := {}

/-- TESTBIND with a poll bound (PRG-3 (b), TV-K8 to TV-K10). -/
def tbPoll (n : Word) (h : ({ testbind with pollMax := n } : BindingData).wf = true := by decide +kernel) : Binding :=
  { data := { testbind with pollMax := n }, ok := h }

/-- REGS listed as words. -/
def regsOf (l : List (Nat × Word)) : Memory := l.foldl (fun m r => writeWord m r.1 r.2) []

/-- Timers of latency 0, that of F_SYSCLK_SWS as given, none running. -/
def timersOf (sws : Option Nat) : Timers :=
  let t : Timer := { lat := some 0, cnt := none }
  ⟨t, t, t, t, t, t, { t with lat := sws }⟩

/-- The reference environment (R80): writes applied at once, latency 0. -/
def refEnv (l : List (Nat × Word)) : Env :=
  { Env.atReset with regs := regsOf l, timers := timersOf (some 0), posting := false }

/-- The block in a step, beside an environment. -/
def at' (B : Binding) (c : Code) (e : Env) : State := { State.resetWith B e with ST := c }

/-- A step of `exec` as a state; a stop would leave the state as it was. -/
def after (i : Instr) (s : State) : State :=
  match exec i s with
  | .next t => t
  | _ => s

/-- The start registers of PRG-1. -/
def prg1Regs : List (Nat × Word) := [(0x04, 0x2C00), (0x08, 0x40001000), (0x10, 0x18), (0x40, 0x400), (0x80, 0x100)]

/-- The start of PRG-1; the clock switch reports at once, or never. -/
def start (reports : Bool) : State :=
  let s := State.resetWith tb { refEnv prg1Regs with timers := timersOf (if reports then some 0 else none) }
  { s with ports := { s.ports with start := true } }

/-- The end registers of PRG-1. -/
def prg1End : Env :=
  { refEnv [(0x00, 0x303), (0x04, 0xF), (0x08, 0x5123B711), (0x0C, 3), (0x10, 1), (0x14, 0x10000000), (0x40, 0x100),
      (0x80, 0x105)] with visBkpWpdis := 1, visLseOn := 1 }

/-! ### Bindings that R9 refuses -/

theorem test_testbind_wf : testbind.wf = true := by decide +kernel

/-- R9 (a): an address that is no multiple of 4. -/
theorem test_refuses_misaligned :
    ({ testbind with fields := { testbind.fields with vos := ⟨0x42, 0x600, 9⟩ } } : BindingData).wf = false := by
  decide +kernel

/-- R9 (a): an address of 2^AW or above. -/
theorem test_refuses_address_too_high : ({ testbind with aw := 7 } : BindingData).wf = false := by decide +kernel

/-- R9 (b): a mask with a hole. -/
theorem test_refuses_hole_in_mask :
    ({ testbind with fields := { testbind.fields with vos := ⟨0x40, 0xA00, 9⟩ } } : BindingData).wf = false := by
  decide +kernel

/-- R9 (b): a position that is not the mask's lowest bit; for F_PLL_CFG, a position that is not 0. -/
theorem test_refuses_wrong_position :
    ({ testbind with fields := { testbind.fields with vos := ⟨0x40, 0x600, 8⟩ } } : BindingData).wf = false ∧
    ({ testbind with fields := { testbind.fields with pllCfg := ⟨0x08, 0x03FFFFF3, 4⟩ } } : BindingData).wf = false := by
  decide +kernel

/-- R9 (c): a value wider than its field. -/
theorem test_refuses_wide_value : ({ testbind with vWsTarget := 16 } : BindingData).wf = false := by decide +kernel

/-- R9 (d): configuration bits outside the mask. -/
theorem test_refuses_config_outside_mask : ({ testbind with vPllCfg := 0x0123B719 } : BindingData).wf = false := by
  decide +kernel

/-- R9 (e): a final AHB ratio above 1, and a safe code that does not divide most. -/
theorem test_refuses_ahb_codes : ({ testbind with vAhbFinal := 8 } : BindingData).wf = false ∧
    ({ testbind with vAhbSafe := 0xE } : BindingData).wf = false := by decide +kernel

/-- R9 (f): the output enable inside the configuration mask. -/
theorem test_refuses_sysout_in_config :
    ({ testbind with fields := { testbind.fields with pllSysoutEn := ⟨0x08, 0x10, 4⟩ } } : BindingData).wf = false := by
  decide +kernel

/-- R9 (g): two fields over one bit; an aliased F_LSESYS_FLAG is let through. -/
theorem test_refuses_overlap :
    ({ testbind with fields := { testbind.fields with hsiRdy := ⟨0x00, 1, 0⟩ } } : BindingData).wf = false ∧
    ({ testbind with fields := { testbind.fields with lsesysFlag := testbind.fields.lsesysEn } } : BindingData).wf = true := by
  decide +kernel

/-- R9 (h): a gate bit of 32, and a misaligned bank. -/
theorem test_refuses_gate_rows : ({ testbind with gateTable := [⟨1, 0, 32⟩] } : BindingData).wf = false ∧
    ({ testbind with bankAddr := #v[0x14, 0x19, 0x1C] } : BindingData).wf = false := by decide +kernel

/-- R40: sub-fields whose union is not the mask of F_PLL_CFG, with a bit missing and with one too many. -/
theorem test_refuses_pll_layout :
    ({ testbind with pllLayout := { testbind.pllLayout with src := ⟨0x1, 0, []⟩ } } : BindingData).wf = false ∧
    ({ testbind with pllLayout := { testbind.pllLayout with q := ⟨0x40700000, 20, []⟩ } } : BindingData).wf = false := by
  decide +kernel

/-- R8: a divide ratio of 0, and a negative frequency. -/
theorem test_refuses_ratio_and_frequency :
    ({ testbind with divApb := { rows := [(4, 0)], otherwise := 1 } } : BindingData).wf = false ∧
    ({ testbind with fReset := -1 } : BindingData).wf = false := by decide +kernel

/-! ### Codes written out from R91 and R97: unit in bits 6:5, index in bits 4:0 -/

theorem test_decode_csq : decode (0b00#2 ++ 0b00000#5) = some .idle ∧ decode (0b00#2 ++ 0b01100#5) = some .o3c ∧
    decode (0b00#2 ++ 0b10010#5) = some .s4b ∧ decode (0b00#2 ++ 0b11110#5) = some .halt ∧
    decode (0b00#2 ++ 0b11111#5) = some .done := by decide

theorem test_decode_pce : decode (0b01#2 ++ 0b00010#5) = some .p3 ∧ decode (0b01#2 ++ 0b00101#5) = some .p6 := by decide

theorem test_decode_ptf : decode (0b10#2 ++ 0b00000#5) = some .s5 ∧ decode (0b10#2 ++ 0b00111#5) = some .s9b := by decide

theorem test_decode_cgt : decode (0b11#2 ++ 0b00000#5) = some .g1 := by decide

/-- The codes beside the listed ones are illegal. -/
theorem test_decode_illegal : decode 0x13 = none ∧ decode 0x1D = none ∧ decode 0x26 = none ∧ decode 0x3F = none ∧
    decode 0x48 = none ∧ decode 0x61 = none ∧ decode 0x7F = none := by decide

/-- Every step's code as R97 lists it. -/
theorem test_encode_table : Instr.all.map encode =
    [0x00, 0x01, 0x02, 0x03, 0x04, 0x05, 0x06, 0x07, 0x08, 0x09, 0x0A, 0x0B, 0x0C, 0x0D, 0x0E, 0x0F, 0x10, 0x11, 0x12,
     0x1E, 0x1F, 0x20, 0x21, 0x22, 0x23, 0x24, 0x25, 0x40, 0x41, 0x42, 0x43, 0x44, 0x45, 0x46, 0x47, 0x60] := by decide

/-- A table word holds no bit above the code. -/
theorem test_decodeTableWord : decodeTableWord 8 0x25 = some .p6 ∧ decodeTableWord 8 0xA5 = none ∧
    decodeTableWord 7 0xA5 = some .p6 := by decide

theorem test_withFetchWord : (State.reset.withFetchWord 8 0x25).ST = 0x25 ∧ (State.reset.withFetchWord 8 0x25).sched = [] :=
  ⟨rfl, rfl⟩

/-! ### Section 3.1 of the vectors -/

/-- TV-A1 to TV-A4, TV-A6, TV-A9. -/
theorem test_ins : ins testbind.fields.ahbPre 0x2C00 0xF = 0x2CF0 ∧ ins testbind.fields.vos 0xFFFFFFFF 0 = 0xFFFFF9FF ∧
    ins testbind.fields.pwrclkEn 0xEFFFFFFF 1 = 0xFFFFFFFF ∧ ins testbind.fields.flashWs 0x107 5 = 0x105 ∧
    ins testbind.fields.pllCfg 0xFFFFFFFF 0x0123B711 = 0xFD23B71D ∧ ins testbind.fields.sysclkSw 0 7 = 3 := by decide

/-- TV-A5, TV-A7, TV-A8. -/
theorem test_fld : fld testbind.fields.pllCfg 0x5123B711 = 0x0123B711 ∧ fld testbind.fields.sysclkSws 0x2CFF = 3 ∧
    fld testbind.fields.apb1Pre 0x2C00 = 4 ∧ fld testbind.fields.apb2Pre 0x2C00 = 5 := by decide

/-- TV-A10 to TV-A13. -/
theorem test_clocks : pllTuple testbind 0x0123B711 = ⟨1, 1, 55, 7, 2, 2⟩ ∧ fPll testbind 0x0123B711 = 110000000 ∧
    DivTable.ratio testbind.divAhb 0xF = 256 ∧ DivTable.ratio testbind.divAhb 0 = 1 ∧
    DivTable.ratio testbind.divApb 4 = 2 ∧ DivTable.ratio testbind.divApb 5 = 4 ∧ wsRequired testbind 4000000 = 0 ∧
    wsRequired testbind 20000000 = 0 ∧ wsRequired testbind 20000001 = 1 ∧ wsRequired testbind 110000000 = 5 := by
  decide +kernel

/-- R64: byte `addr + i` holds bits `8i+7 : 8i`. -/
theorem test_little_endian : regsOf [(0x80, 0x0000A1B2)] = [(0x80, 0xB2), (0x81, 0xA1)] ∧
    readWord [(0x80, 0xB2), (0x83, 0x01)] 0x80 = 0x010000B2 := by decide

/-! ### Section 3.2 of the vectors -/

/-- TV-K1, TV-K3: S5's two halves. -/
theorem test_s5 :
    let s := after .s5 (at' tb 0x40 (refEnv [(0x04, 0x2C00)]))
    let t := after .s5 s
    (s.ST = 0x40 ∧ s.PH = true ∧ s.T = 0x2C00 ∧ s.trace = [.read 0x04 0x2C00]) ∧
    (t.ST = 0x41 ∧ t.PH = false ∧ t.PCNT = 0 ∧ t.trace = [.read 0x04 0x2C00, .write 0x04 0x2CF0]) := by decide +kernel

/-- TV-K2: P1 with the PLL off still writes. -/
theorem test_p1_unchanged_word :
    let t := after .p1 (after .p1 (at' tb 0x20 (refEnv [(0x00, 0x3)])))
    t.ST = 0x21 ∧ t.trace = [.read 0x00 0x3, .write 0x00 0x3] := by decide +kernel

/-- TV-K4. -/
theorem test_s1b : (after .s1b (at' tb 0x02 (refEnv [(0x14, 0x10000000)]))).ST = 0x03 := by decide +kernel

/-- TV-K5: S2B compares nothing. -/
theorem test_s2b :
    let t := after .s2b (at' tb 0x04 { refEnv [(0x40, 0xFFFFFFFF)] with visBkpWpdis := 1 })
    t.ST = 0x05 ∧ t.T = 0xFFFFFFFF := by decide +kernel

/-- TV-K6: O1A's write, then one read of O1B. -/
theorem test_o1b :
    let t := after .o1b (after .o1a (after .o1a (at' tb 0x05 (refEnv []))))
    t.ST = 0x07 ∧ t.trace = [.read 0x00 0, .write 0x00 1, .read 0x00 3] := by decide +kernel

/-- P6 with the ready flag on its way for `k` more reads. -/
def lockingIn (B : Binding) (k : Nat) : State :=
  let e := refEnv [(0x00, 0x103)]
  at' B 0x25 { e with timers := setCnt e.timers .pllRdy (some k) }

/-- TV-K7: two mismatches, then the match; `PCNT` stays 0. -/
theorem test_p6_unbounded :
    let s := after .p6 (after .p6 (lockingIn tb 2))
    s.ST = 0x25 ∧ s.PCNT = 0 ∧ (after .p6 s).ST = 0x11 ∧ (after .p6 s).T = 0x303 := by decide +kernel

/-- TV-K8 and TV-K9: the match on the last attempt completes, and a third mismatch halts. -/
theorem test_p6_bounded :
    let s := after .p6 (after .p6 (lockingIn (tbPoll 3) 2))
    let t := after .p6 (after .p6 (after .p6 (lockingIn (tbPoll 3) 3)))
    (s.PCNT = 2 ∧ (after .p6 s).ST = 0x11 ∧ (after .p6 s).PCNT = 0 ∧ (after .p6 s).TO = false) ∧
    (t.ST = 0x1E ∧ t.TO = true ∧ t.FAIL = 0x25 ∧ t.PCNT = 3 ∧ t.T = 0x103) := by decide +kernel

/-- TV-K11: P2 waits for 0. -/
theorem test_p2 : (after .p2 (at' tb 0x21 (refEnv [(0x00, 0x203)]))).ST = 0x21 ∧
    (after .p2 (at' tb 0x21 (refEnv [(0x00, 0x003)]))).ST = 0x22 := by decide +kernel

/-- TV-K12: another source's code is no match. -/
theorem test_s6b : (after .s6b (at' tb 0x42 (refEnv [(0x04, 0x2CF7)]))).ST = 0x42 ∧
    (after .s6b (at' tb 0x42 (refEnv [(0x04, 0x2CFF)]))).ST = 0x43 := by decide +kernel

/-- TV-K13, TV-K14. -/
theorem test_o2a : (after .o2a (at' tb 0x07 { refEnv [(0x40, 0x100)] with visBkpWpdis := 1 })).ST = 0x0A ∧
    (after .o2a (at' tb 0x07 (refEnv []))).ST = 0x08 := by decide +kernel

/-- TV-K15 to TV-K17, TV-K21. -/
theorem test_s4a : (after .s4a (at' tb 0x11 (refEnv [(0x80, 0x104)]))).ST = 0x12 ∧
    (after .s4a (at' tb 0x11 (refEnv [(0x80, 0x105)]))).ST = 0x40 ∧
    (after .s4a (at' tb 0x11 (refEnv [(0x80, 0x106)]))).ST = 0x40 ∧
    (after .s4a (at' tb 0x11 (refEnv [(0x80, 0x10F)]))).ST = 0x40 := by decide +kernel

/-- TV-K18 to TV-K21. -/
theorem test_s8a : (after .s8a (at' tb 0x44 (refEnv [(0x80, 0x106)]))).ST = 0x45 ∧
    (after .s8a (at' tb 0x44 (refEnv [(0x80, 0x105)]))).ST = 0x46 ∧
    (after .s8a (at' tb 0x44 (refEnv [(0x80, 0x102)]))).ST = 0x46 ∧
    (after .s8a (at' tb 0x44 (refEnv [(0x80, 0x10F)]))).ST = 0x45 := by decide +kernel

/-- TV-K18: S8B lowers the field and keeps the unrelated bit. -/
theorem test_s8b : (after .s8b (after .s8b (at' tb 0x45 (refEnv [(0x80, 0x106)])))).env.regs = regsOf [(0x80, 0x105)] := by
  decide +kernel

/-- The block in a control state with its input ports high. -/
def waiting (c : Code) : State :=
  let s := at' tb c prg1End
  { s with ports := { s.ports with start := true, gateReq := true, gateId := 1 } }

/-- TV-K22, TV-G8: IDLE with and without `start_i`; a gate request waits. -/
theorem test_idle : (after .idle (at' tb 0x00 (refEnv []))).ST = 0x00 ∧ (after .idle (waiting 0x00)).ST = 0x01 ∧
    (after .idle (waiting 0x00)).ports.gateReq = true := by decide +kernel

/-- TV-K24. -/
theorem test_halt : after .halt (waiting 0x1E) = waiting 0x1E := by decide +kernel

/-- TV-K25. -/
theorem test_illegal_code :
    (stateAfter 1 (at' tb 0x13 (refEnv []))).ST = 0x1E ∧ (stateAfter 1 (at' tb 0x13 (refEnv []))).FAIL = 0x13 ∧
    (stateAfter 1 (at' tb 0x13 (refEnv []))).TO = true := by decide +kernel

/-- TV-K26: reset in the middle of S5. -/
theorem test_reset_mid_step :
    let s := after .s5 (at' tb 0x40 (refEnv [(0x04, 0x2C00)]))
    let t := stateAfter 1 { s with ports := { s.ports with rst := true } }
    t.ST = 0x00 ∧ t.PH = false ∧ t.T = 0 ∧ t.env = s.env ∧ t.trace = s.trace := by decide +kernel

/-- TV-K27: a protected backup field ignores a write; R75: what a read of the flag returns decides, its own bit alone. -/
theorem test_backup_protected :
    (applyWrite testbind (refEnv [(0x10, 0x18)]) ⟨0x10, 0x1⟩).regs = regsOf [(0x10, 0x18)] ∧
    (applyWrite testbind { refEnv [(0x10, 0x18)] with visBkpWpdis := 2 } ⟨0x10, 0x1⟩).regs = regsOf [(0x10, 0x18)] ∧
    (applyWrite testbind { refEnv [(0x10, 0x18)] with visBkpWpdis := 3 } ⟨0x10, 0x1⟩).regs = regsOf [(0x10, 0x1)] := by
  decide +kernel

/-- TV-K28, TV-K29: the configuration lock, and a write that presents the same configuration. -/
theorem test_pll_lock :
    let e := applyWrite testbind (refEnv [(0x00, 0x303), (0x08, 0x40001000)]) ⟨0x08, 0x4123B711⟩
    let f := applyWrite testbind (refEnv [(0x00, 0x103), (0x08, 0x4123B711)]) ⟨0x08, 0x5123B711⟩
    (readWord e.regs 0x08 = 0x40001000 ∧ e.violPllCfg = true) ∧
    (readWord f.regs 0x08 = 0x5123B711 ∧ f.violPllCfg = false) := by decide +kernel

/-- TV-N3: the PWR block is read with its interface clock off. -/
theorem test_pwr_unclocked : (after .s2a (at' tb 0x03 (refEnv []))).env.violPwrclk = true ∧
    (after .s2a (at' tb 0x03 (refEnv [(0x14, 0x10000000)]))).env.violPwrclk = false := by decide +kernel

/-- R177: `DN` rises with S9B's write, not with its read. -/
theorem test_s9b :
    let s := after .s9b (at' tb 0x47 (refEnv [(0x04, 0x280F)]))
    s.DN = false ∧ (after .s9b s).DN = true ∧ (after .s9b s).ST = 0x1F ∧ readWord (after .s9b s).env.regs 0x04 = 0xF := by
  decide +kernel

/-! ### Section 3.3 of the vectors -/

/-- TV-G1, TV-G2. -/
theorem test_gate_hit :
    let s := after .done (waiting 0x1F)
    let t := after .g1 (after .g1 s)
    (s.ST = 0x60 ∧ s.GA = 0x14 ∧ s.GB = 17) ∧
    (t.ST = 0x1F ∧ t.HIT = true ∧ t.trace = [.read 0x14 0x10000000, .write 0x14 0x10020000, .gateAck true]) := by
  decide +kernel

/-- TV-G3, TV-K23: an identity in no row. -/
theorem test_gate_miss :
    let s := { waiting 0x1F with ports := { (waiting 0x1F).ports with gateId := 0x7F }, HIT := true }
    (after .done s).ST = 0x1F ∧ (after .done s).HIT = false ∧ (after .done s).trace = [.gateAck false] ∧
    (after .done s).env = s.env := by decide +kernel

/-! ### Ordering (R70) -/

/-- Two posted writes, one to the FLASH block and one to the RCC block. -/
def twoPosted : Env := { refEnv [] with posted := [⟨0x80, 0x105⟩, ⟨0x04, 0x2C⟩] }

/-- PRG-5's point: a read of RCC drains the FLASH write under ALL and not under TARGET. -/
theorem test_drain_scope :
    (drain testbind 0x04 twoPosted).posted = [] ∧
    (drain { testbind with drainScope := .target } 0x04 twoPosted).posted = [⟨0x80, 0x105⟩] ∧
    (drain { testbind with drainScope := .target } 0x04 twoPosted).regs = regsOf [(0x04, 0x20)] := by decide +kernel

/-! ### Witnesses: for each statement with hypotheses, a state that meets them -/

/-- StepCodesRoundTrip: a code that decodes, the highest one. -/
theorem test_witness_code : decode 0x60 = some .g1 ∧ (0x60#7).extractLsb' 5 2 = Instr.g1.unit.bits := by decide

/-- StepRunsDecodedStep, both clauses. -/
theorem test_witness_step :
    let s := at' tb 0x01 (refEnv [])
    let t := { s with sched := [Act.edge, .setRst true] }
    (decode s.ST = some .s1a ∧ s.ports.rst = false ∧ s.sched = []) ∧
    (decode t.ST = some .s1a ∧ t.ports.rst = false ∧ t.sched = .edge :: [.setRst true]) := by decide +kernel

/-- IllegalCodeEntersHalt, both clauses, and the next state of each. -/
theorem test_witness_illegal :
    let s := at' tb 0x7F (refEnv [])
    let t := { s with sched := [Act.edge, .setStart true] }
    (decode s.ST = none ∧ s.ports.rst = false ∧ s.sched = []) ∧ t.sched = .edge :: [.setStart true] ∧
    (stateAfter 1 t).FAIL = 0x7F ∧ (stateAfter 1 t).sched = [.setStart true] := by decide +kernel

/-- A state in a SETF step's write half with the bus answering. -/
def writing (c : Code) (e : Env) : State := { at' tb c e with PH := true, T := 0x2C00 }

/-- CsqSetfStepsReadThenWrite, PceSetfStepsReadThenWrite, PtfSetfStepsReadThenWrite, LastStepSetsDone,
SetfKindReadsThenWrites, ReadBackStepsGoOn, SkipStepsCompare and the kinds: both halves, and a silent bus. -/
theorem test_witness_halves :
    let s := at' tb 0x01 (refEnv [])
    (s.ports.busAck = true ∧ s.PH = false) ∧ ((writing 0x01 (refEnv [])).ports.busAck = true ∧ (writing 0x01 (refEnv [])).PH = true) ∧
    { s.ports with busAck := false }.busAck = false := by decide +kernel

/-- SetfKindReadsThenWrites: a row that writes a field. -/
theorem test_witness_row : Instr.form .p3 = .setf (.field .pllCfg) .pllCfg 0x23 := by decide

/-- GateStepSetsItsBit, at the lowest and the highest address of the bus. -/
theorem test_witness_g1 :
    let s := writing 0x60 prg1End
    let t := { s with GA := 2 ^ 32 - 4, GB := 31, PH := false }
    (s.ports.busAck = true ∧ s.GA < 2 ^ s.bind.aw ∧ s.PH = true) ∧
    (t.ports.busAck = true ∧ t.GA < 2 ^ t.bind.aw ∧ t.PH = false) := by decide +kernel

/-- What a WAIT step's read of F_PLL_RDY gives in a state. -/
def lockSeen (s : State) : Word := fld s.bind.fields.pllRdy (memRead s.bind.fields.pllRdy.addr s).T

/-- WaitStepsPoll, WaitKindMatchesBeforeTheBound: each answer, the last two at the bound and below it. -/
theorem test_witness_wait :
    (lockSeen (lockingIn tb 0) = 1) ∧ (lockSeen (lockingIn tb 1) ≠ 1 ∧ tb.data.pollMax = 0) ∧
    (let s := lockingIn (tbPoll 2) 1
     lockSeen s ≠ 1 ∧ s.bind.pollMax ≠ 0 ∧ s.PCNT + 1 ≠ s.bind.pollMax) ∧
    (let s := { lockingIn (tbPoll 2) 1 with PCNT := 1 }
     lockSeen s ≠ 1 ∧ s.bind.pollMax ≠ 0 ∧ s.PCNT + 1 = s.bind.pollMax) := by decide +kernel

/-- IdleWaitsForStart: start, no start, and start under reset. -/
theorem test_witness_idle :
    let s := waiting 0x00
    let t := { s with ports := { s.ports with rst := true } }
    (s.ports.rst = false ∧ s.ports.start = true) ∧ ¬((at' tb 0x00 prg1End).ports.start = true) ∧
    ¬(t.ports.rst = false ∧ t.ports.start = true) := by decide +kernel

/-- DoneServesGateRequests: no request, a hit on the table's last row, and a miss just beside it. -/
theorem test_witness_done :
    (at' tb 0x1F prg1End).ports.gateReq = false ∧
    ((waiting 0x1F).ports.gateReq = true ∧ gateLookup testbind 0x04 = some ⟨0x04, 2, 14⟩) ∧
    gateLookup testbind 0x05 = none ∧ gateLookup testbind 0x00 = none := by decide +kernel

/-- SilentBusHoldsTheBlock. -/
theorem test_witness_silent :
    let s := at' tb 0x42 prg1End
    let t := { s with ports := { s.ports with busAck := false } }
    decode t.ST = some .s6b ∧ Instr.form .s6b ≠ .ctrl ∧ t.ports.busAck = false := by decide +kernel

/-- FieldInsertionLaws: a one-bit mask at the top, and the whole word. -/
theorem test_witness_field : contiguousAt 0x80000000 31 = true ∧ fits ⟨0, 0x80000000, 31⟩ 1 = true ∧
    contiguousAt 0xFFFFFFFF 0 = true ∧ fits ⟨0, 0xFFFFFFFF, 0⟩ 0xFFFFFFFF = true := by decide

/-- AppliedWriteByOwner: an `env` field, a protected field, a locked field and a plain field at their addresses, a bit
under no field, and the bytes on both sides of the word. -/
theorem test_witness_owner :
    let e := refEnv [(0x00, 0x300)]
    (descOf testbind .hsiRdy).addr = 0x00 ∧ FieldId.hsiRdy ∈ envFields testbind ∧
    ((descOf testbind .lseOn).addr = 0x10 ∧ current testbind e .bkpWpdis = 0 ∧ backupDomain testbind .lseOn = true) ∧
    ((descOf testbind .pllCfg).addr = 0x08 ∧ pllCfgBroken testbind e.regs ⟨0x08, 1⟩ = true) ∧
    ((descOf testbind .vos).addr = 0x40 ∧ FieldId.vos ∉ envFields testbind ∧ backupDomain testbind .vos = false) ∧
    (FieldId.all.all fun f => decide ((descOf testbind f).addr = 0x00 → (descOf testbind f).mask.getLsbD 31 = false)) = true ∧
    (¬ (0x40 ≤ 0x3F ∧ 0x3F < 0x40 + 4)) ∧ ¬ (0x40 ≤ 0x44 ∧ 0x44 < 0x40 + 4) := by decide +kernel

/-- PllConfigurationLock: enabled but not ready, and ready but not enabled. -/
theorem test_witness_lock : (⟨0x08, 1⟩ : PostedWrite).addr = testbind.fields.pllCfg.addr ∧
    fieldVal testbind (regsOf [(0x00, 0x100)]) .pllOn = 1 ∧ fieldVal testbind (regsOf [(0x00, 0x200)]) .pllRdy = 1 := by
  decide +kernel

/-- AnswerShowsVisibleValues: an echo field whose visible value differs from its stored one, and a plain field. -/
theorem test_witness_echo :
    let e := { refEnv [(0x40, 0x100)] with visBkpWpdis := 0 }
    (isEcho testbind .bkpWpdis = true ∧ current testbind e .bkpWpdis ≠ fieldVal testbind e.regs .bkpWpdis) ∧
    (StatusId.all.all fun S => !isEcho testbind S || decide (descOf testbind S.field ≠ descOf testbind .vos)) = true := by
  decide +kernel

/-- CountdownCountsReads: a countdown at 0 and one at 2. -/
theorem test_witness_countdown :
    let s := lockingIn tb 0
    let t := lockingIn tb 2
    (s.env.posted = [] ∧ (timerOf s.env.timers .pllRdy).cnt = some 0 ∧ fits (descOf s.bind .pllRdy) (target s.bind s.env .pllRdy) = true) ∧
    (t.env.posted = [] ∧ (timerOf t.env.timers .pllRdy).cnt = some 2 ∧ fits (descOf t.bind .pllRdy) (target t.bind t.env .pllRdy) = true) := by
  decide +kernel

/-- OldestOfAClassIsAppliedFirst, where the older write is of another class. -/
theorem test_witness_oldest :
    let B : BindingData := { testbind with drainScope := .target }
    twoPosted.posted = [⟨0x80, 0x105⟩] ++ ⟨0x04, 0x2C⟩ :: [] ∧ (∀ q ∈ [(⟨0x80, 0x105⟩ : PostedWrite)], inClass B .rcc q = false) ∧
    inClass B .rcc ⟨0x04, 0x2C⟩ = true := by decide +kernel

/-- ViolationFlagsAreRaised: an address of the PWR block with its clock off, nothing posted; and each clock flag raised by a
settled status field and by a write. -/
theorem test_witness_flags :
    let e := refEnv [(0x04, 0x2), (0x08, 0x0123B711)]
    let f := { refEnv [(0x04, 0x3), (0x08, 0x0123B711)] with violWs := false }
    ((refEnv []).posted = [] ∧ blockOf testbind 0x40 = .pwr ∧ fieldVal testbind (refEnv []).regs .pwrclkEn = 0) ∧
    ((applyWrite testbind e ⟨0x04, 0x3⟩).violWs = true ∧ (settle testbind .sysclkSws f).violWs = true) ∧
    (applyWrite { testbind with fHclkMax := 109999999 } e ⟨0x04, 0x3⟩).violFmax = true ∧
    (settle { testbind with fHclkMax := 109999999 } .sysclkSws f).violFmax = true := by decide +kernel

/-- ReadDrainsItsScope: a read that drains both writes, and no countdown at 0 after the drain. -/
theorem test_witness_drain :
    let d := twoPosted.posted.foldl (applyWrite testbind) { twoPosted with posted := [] }
    twoPosted.posted.filter (inScope testbind 0x04) = twoPosted.posted ∧ ¬ InWord 0x04 0x08 ∧ ¬ InWord 0x04 0x03 ∧
    (StatusId.all.all fun S => decide ((timerOf d.timers S).cnt ≠ some 0)) = true ∧
    (memRead 0x04 { at' tb 0x40 twoPosted with sched := [] }).env.regs = regsOf [(0x04, 0x20), (0x80, 0x105)] := by
  unfold InWord; decide +kernel

/-- ReadTouchesOnlyDrainedAndStatusWords: a byte beside the word and the drained words, and a read that drains nothing. -/
theorem test_witness_read :
    (¬ (0x04 ≤ 0x08 ∧ 0x08 < 0x04 + 4) ∧ (twoPosted.posted.all fun p => !(decide (p.addr ≤ 0x08) && decide (0x08 < p.addr + 4))) = true) ∧
    (StatusId.all.all fun S => decide ((timerOf prg1End.timers S).cnt ≠ some 0)) = true ∧ prg1End.posted = [] := by
  decide +kernel

/-- SetfStoresOnlyItsWord, SetfLeavesItsValue, ReadBackSeesTheWrite: both posting modes, and the protected fields
unlocked. -/
theorem test_witness_write :
    let s := writing 0x0B prg1End
    let t := { s with env := { s.env with posting := true } }
    (s.ports.busAck = true ∧ s.PH = true ∧ s.env.posting = false ∧ s.env.posted = []) ∧ t.env.posting = true ∧
    (Instr.form .o3b = .setf (.field .lseOn) .one 0x0C ∧ backupDomain s.bind .lseOn = true ∧
      current s.bind s.env .bkpWpdis ≠ 0) ∧
    pllEnabled testbind (regsOf prg1Regs) = false := by decide +kernel

/-- TESTBIND's gate bits lie under no descriptor. -/
theorem test_gateBitsApart : GateBitsApart testbind := by
  intro g hg f hf
  simp only [testbind, List.mem_cons, List.not_mem_nil, or_false] at hg
  rcases hg with rfl | rfl | rfl | rfl <;> cases f <;> first | exact absurd rfl hf | decide

/-- R45, R68: TESTBIND's blocks are those of R30's table. -/
theorem test_blocksAgree : BlocksAgree testbind := ⟨by intro f; cases f <;> decide, by decide⟩

/-- DONE with a request that hits, an environment that posts, and writes of two blocks posted. -/
def requested : State :=
  let s := waiting 0x1F
  { s with env := { s.env with posting := true, posted := [⟨0x80, 0x107⟩, ⟨0x14, 0x10000001⟩] } }

/-- GateRequestIsIdempotent: something posted; and nothing posted with no countdown. -/
theorem test_witness_idempotent :
    let s := requested
    (s.sched = [] ∧ s.ports.rst = false ∧ s.ports.busAck = true ∧ s.ST = 0x1F ∧ s.ports.gateReq = true ∧
      gateLookup s.bind s.ports.gateId = some ⟨0x01, 0, 17⟩) ∧ BlocksAgree s.bind ∧ GateBitsApart s.bind ∧
    memoryWf s.env.regs = true ∧ (∀ p ∈ s.env.posted, p.addr % 4 = 0) ∧
    (waiting 0x1F).env.posted = [] ∧ NoCountdown (waiting 0x1F).env.timers :=
  ⟨by decide +kernel, test_blocksAgree, test_gateBitsApart, by decide +kernel, by decide +kernel, rfl,
    by intro S; cases S <;> rfl⟩

/-- R194 with writes posted: once and twice drain to one content. -/
theorem test_gate_twice_posted :
    let t := stateAfter 3 requested
    let u := stateAfter 3 { t with ports := { t.ports with gateReq := true } }
    t.env.posted = [⟨0x14, 0x10020001⟩] ∧ u.env.posted = [⟨0x14, 0x10020001⟩] ∧
    (flush testbind u.env).regs = (flush testbind t.env).regs := by decide +kernel

/-- StateCodeFollowsTable, FlagsAreSticky, TraceRecordsTheBusPorts: a step and a meaning answer with a next state. -/
theorem test_witness_next : (∃ t, step (waiting 0x1F) = .next t) ∧ (∃ t, exec .o1a (waiting 0x1F) = .next t) :=
  ⟨step_next _, exec_next _ _⟩

/-- MoveDependsOnTheAnswerOnly: two environments that differ and give the same answers. -/
theorem test_witness_answers :
    let s := waiting 0x05
    let e := { s.env with swsInit := 1 }
    s.env ≠ e ∧
    ∀ a, answer s.bind (serveRead s.bind a s.env) a = answer s.bind (serveRead s.bind a e) a := by
  refine ⟨by decide +kernel, fun a => ?_⟩
  have h : ∀ n, serveRead testbind a { prg1End with swsInit := n } = notePwr testbind a { prg1End with swsInit := n } := by
    intro n
    rw [serveRead, drain_of_empty _ _ _ rfl]
    exact tick_still _ _ _ (by intro S; cases S <;> rfl)
  exact (congrArg (answer testbind · a) (h 0)).trans (congrArg (answer testbind · a) (h 1)).symm

/-- StepsIgnoreAnEarlierLatch, GatePortIgnoredOutsideDone, StartIgnoredOutsideIdle. -/
theorem test_witness_frame :
    let s := at' tb 0x05 prg1End
    s.PH = false ∧ Instr.form .o1a ≠ .ctrl ∧ s.ports.busAck = true ∧ Instr.form .halt = .ctrl ∧
    Instr.o1a ≠ .done ∧ Instr.o1a ≠ .g1 ∧ Instr.o1a ≠ .idle := by decide +kernel

/-- OtherAgentsLeaveTheBlock: a request that waits, one that gets in, and another agent's act at the head. -/
theorem test_witness_agents :
    let s := { waiting 0x42 with sched := [Act.gateRequest 2, .edge] }
    let t := { at' tb 0x42 prg1End with sched := [Act.gateRequest 0x102, .edge] }
    (s.sched = .gateRequest 2 :: [.edge] ∧ s.ports.gateReq = true ∧ (stateAfter 1 s).ports.gateId = 1) ∧
    (t.sched = .gateRequest 0x102 :: [.edge] ∧ t.ports.gateReq = false ∧ (stateAfter 1 t).ports.gateId = 2) := by
  decide +kernel

/-- OnlyResetLeavesHalt, ResetEdgeClearsTheBlock: HALT with reset low and with reset high, for both kinds of edge. -/
theorem test_witness_halt :
    let s := waiting 0x1E
    let t := { s with ports := { s.ports with rst := true } }
    s.ST = 0x1E ∧ s.ports.rst = false ∧ t.ports.rst = true ∧ t.sched = [] ∧
    (stateAfter 1 { t with sched := [.edge, .setRst false] }).sched = [.setRst false] ∧
    (stateAfter 1 { t with sched := [.edge, .setRst false] }).ST = 0x00 := by decide +kernel

/-- RegistersStayCanonical, ControlInvariantIsKept: a memory in use, and the block as reset leaves it. -/
theorem test_witness_canonical : memoryWf prg1End.regs = true ∧ prg1End.regs ≠ [] := by decide +kernel

theorem test_witness_control : ControlInv (State.resetWith tb prg1End) := by
  constructor <;> decide +kernel

/-- TESTBIND is BIND_SAFE (95_test_vectors section 2). -/
theorem test_bindSafe : BindSafe testbind where
  wsTarget := by decide +kernel
  hclk := by decide +kernel
  capped := by decide +kernel
  pclk1 := by decide +kernel
  pclk2 := by decide +kernel
  monotone := fun _ _ h => perStep_monotone (by norm_num) h

/-- PRG-1's start meets BOOT_OK (95_test_vectors section 4). -/
theorem test_bootOk (r : Bool) : BootOk (start r) := by
  cases r <;> constructor <;> decide +kernel

/-- PowerInterfaceIsNeverUnclocked, PllConfigurationOnlyWhileOff, and with `test_bindSafe` ClocksStayRated and
WaitStatesSufficeUnderAll (their runs: `test_witness_switch`, `test_witness_done_run`). -/
theorem test_witness_premises (r : Bool) : BringUpPremises (start r) ∧ (start r).bind.drainScope = .all where
  left :=
    { boot := test_bootOk r
      start := by
        cases r <;>
          exact ⟨by decide +kernel, by intro S; cases S <;> decide +kernel, by intro S; cases S <;> rfl, rfl, rfl, rfl, rfl⟩
      blocks := test_blocksAgree
      gates := test_gateBitsApart
      widths := by intro f hf; cases f <;> first | rfl | cases hf }
  right := rfl

/-- AhbIsCappedDuringTheSwitch: a run whose switch is never reported waits in S6B. -/
theorem test_witness_switch : ReachesUnder EnvPremises (start false) (stateAfter 60 (start false)) ∧
    (let t := stateAfter 60 (start false)
     t.ST = 0x42 ∧ switchRequested t.bind t.env.regs = true ∧ switchReported t.bind t.env.regs = false) :=
  ⟨reachesUnder_of_empty (fun _ => nextAct_of_empty _) rfl 60, by decide +kernel⟩

/-- DoneGuaranteesItsTable: PRG-1 reaches DONE after its 49 transactions with the end registers of 95_test_vectors. Its last
row, and PowerInterfaceIsNeverUnclocked: the run meets their premises too; bits 30 and 31 of 0x08 lie under no field. -/
theorem test_witness_done_run :
    ReachesUnder (fun x => EnvPremises x ∧ NextAct OffPowerBlock x ∧ NextAct (LeavesBit 0x08 30) x) (start true)
      (stateAfter 50 (start true)) ∧
    (let t := stateAfter 50 (start true)
     t.DN = true ∧ t.env.posted = [] ∧ t.trace.length = 49 ∧ t.T = 0x280F ∧ t.env.regs = prg1End.regs) ∧
    (FieldId.all.all fun f => decide ((descOf testbind f).addr = 0x08 →
      (descOf testbind f).mask.getLsbD 30 = false ∧ (descOf testbind f).mask.getLsbD 31 = false)) = true ∧
    (start true).ports.gateReq = false :=
  ⟨reachesUnder_of_empty (fun _ h => ⟨nextAct_of_empty _ h, nextAct_of_empty _ h, nextAct_of_empty _ h⟩) rfl 50,
    by decide +kernel, by decide +kernel, rfl⟩

/-- An act met next in IDLE by the reference environment of PRG-1. -/
def facing (a : Act) : State := { start true with sched := [a] }

/-- EnvPremises with acts of other agents: the environment changes a bit under no field and gives a ready flag the
value of its driver, another master writes outside the binding. -/
theorem test_env_premises_met (a : Act)
    (ha : a ∈ [.poke 0x08 0xC0001000, .status .hsiRdy 0, .otherWrite 0x24 1, .settle .pllRdy, .setRst false]) :
    EnvPremises (facing a) := by
  have hsole : ∀ x y, (x + 4 ≤ 0x00 ∨ 0x1C + 4 ≤ x) ∧ (x + 4 ≤ 0x40 ∨ 0x40 + 4 ≤ x) ∧ (x + 4 ≤ 0x80 ∨ 0x80 + 4 ≤ x) →
      SoleSoFar (facing (.otherWrite x y)) (.otherWrite x y) := by
    rintro x y h (⟨f, h1⟩ | ⟨b, h1⟩)
    · revert h1
      have : ∀ f, (descOf testbind f).addr ≤ 0x1C ∨ (descOf testbind f).addr = 0x40 ∨ (descOf testbind f).addr = 0x80 := by
        intro f; cases f <;> decide
      have hf := this f
      simp only [facing, State.bind, start, State.resetWith, tb]
      omega
    · revert h1
      have : ∀ b : Fin 3, testbind.bankAddr.get b ≤ 0x1C := by decide
      have hb := this b
      simp only [facing, State.bind, start, State.resetWith, tb]
      omega
  intro c rest hc
  obtain ⟨rfl, -⟩ := List.cons.inj hc
  simp only [List.mem_cons, List.not_mem_nil, or_false] at ha
  rcases ha with rfl | rfl | rfl | rfl | rfl
  · refine ⟨?_, ?_, trivial, trivial, trivial⟩
    · intro f hf; cases f <;> decide +kernel
    · intro S; cases S <;> decide +kernel
  · refine ⟨trivial, ?_, trivial, trivial, trivial⟩
    intro S; cases S <;> decide +kernel
  · have h := hsole 0x24 1 (by decide)
    exact ⟨trivial, trivial, h.envSole, h, trivial⟩
  · exact ⟨trivial, trivial, trivial, trivial, trivial⟩
  · exact ⟨trivial, trivial, trivial, trivial, rfl⟩

/-- EnvPremises refuses: a changed enable bit, a ready flag moved from its driver (also by a changed word), another
master's write to a bank register, a reset. -/
theorem test_env_premises_refused :
    ¬ EnvHold (facing .edge) (.poke 0x00 0x100) ∧ ¬ EnvRo (facing .edge) (.status .hsiRdy 1) ∧
    ¬ EnvRo (facing .edge) (.poke 0x00 0x2) ∧ ¬ SoleSoFar (facing .edge) (.otherWrite 0x18 1) ∧ ¬ NoReset (.setRst true) := by
  refine ⟨fun h => ?_, fun h => ?_, fun h => ?_, fun h => h (.inr ⟨1, by decide⟩), by simp [NoReset]⟩
  · exact absurd (h .pllOn (by unfold BlockOwned; decide)) (by decide +kernel)
  · exact absurd (h .hsiRdy) (by decide +kernel)
  · exact absurd (h .hsiRdy) (by decide +kernel)

/-- DoneClocksAreOnTarget. -/
theorem test_witness_table : DoneGuarantee testbind prg1End ∧ FlashTimingMatches testbind :=
  ⟨by constructor <;> decide +kernel, by unfold FlashTimingMatches; decide +kernel⟩

/-- ClockBoundsAreExactOutsideTheSwitch: before the request, and after the report. -/
theorem test_witness_bounds : switchRequested testbind (regsOf prg1Regs) = false ∧
    switchReported testbind prg1End.regs = true := by decide +kernel

/-- PRG-1 stands still in DONE. -/
theorem test_prg1_rests (k : Nat) : stateAfter (50 + k) (start true) = stateAfter 50 (start true) := by
  have h : step (stateAfter 50 (start true)) = .next (stateAfter 50 (start true)) := by
    rw [step_stateAfter, show stateAfter 51 (start true) = stateAfter 50 (start true) by decide +kernel]
  induction k with
  | zero => rfl
  | succ k ih =>
    have h1 := step_stateAfter (50 + k) (start true)
    rw [ih, h] at h1
    exact (Host.Outcome.next.inj h1).symm

/-- LivePremisesGiveDone: PRG-1 meets the nine premises, since no step lasts for ever and the bus answers. -/
theorem test_witness_live :
    ((start true).ST = 0x00 ∧ (start true).PH = false ∧ (start true).ports.rst = false ∧
      (start true).ports.start = true ∧ (start true).bind.pollMax = 0 ∧
      switchRequested testbind (start true).env.regs = false ∧ switchReported testbind (start true).env.regs = false) ∧
    (∀ a ∈ (start true).sched, a ≠ .setRst true ∧ a ≠ .setStart false) ∧ LivePremises (start true) := by
  have hend : (stateAfter 50 (start true)).ST = 0x1F := by decide +kernel
  have hlive : ∀ i, encode i ≠ 0x1F → Live i (start true) := by
    intro i hi f V next _ n hn
    have := hn (50 + n) (by omega)
    rw [test_prg1_rests, hend] at this
    exact absurd this.symm hi
  refine ⟨by decide +kernel, (by intro a ha; cases ha), ⟨hlive _ (by decide), hlive _ (by decide), hlive _ (by decide),
    hlive _ (by decide), hlive _ (by decide), hlive _ (by decide), hlive _ (by decide), hlive _ (by decide), ?_⟩⟩
  have hack : ∀ n ≤ 50, (stateAfter n (start true)).ports.rst = false ∧ (stateAfter n (start true)).ports.busAck = true := by
    decide +kernel
  intro n _
  by_cases h : n ≤ 50
  · exact ⟨n, le_rfl, .inl (stateAfter_sched rfl n), hack n h⟩
  · obtain ⟨k, rfl⟩ : ∃ k, n = 50 + k := ⟨n - 50, by omega⟩
    exact ⟨_, le_rfl, .inl (stateAfter_sched rfl _), by rw [test_prg1_rests]; exact hack 50 le_rfl⟩

/-- ReferenceRunCompletes. -/
theorem test_witness_reference :
    StatusSettled (start true).bind (start true).env ∧
    ((start true).env.posting = false ∧ (start true).sched = [] ∧ (start true).ports.start = true ∧
      (start true).ports.busAck = true ∧ (start true).bind.pollMax = 0) ∧
    (∀ S, (timerOf (start true).env.timers S).lat ≠ none) ∧
    fits (start true).bind.fields.sysclkSws (start true).bind.vSwsPll = true :=
  ⟨by intro S; cases S <;> decide +kernel, by decide +kernel, by intro S; cases S <;> decide, by decide +kernel⟩

end Sys2Proof.Tests
end

section
/-! PROOFS. The step kinds over every operand (30_encoding R98, R100 to R103). -/

namespace Sys2Proof.Machine

/-! ### The kinds under an answering bus -/

/-- The read half of a SETF (R98). -/
theorem setf_readHalf {s : State} (F : FieldRef) (V : ValSel) (n : Code) (fin : State → State)
    (hack : s.ports.busAck = true) (hph : s.PH = false) :
    setf F V n fin s = { memRead (resolve s F).addr s with PH := true } := by
  obtain ⟨hsilent, -⟩ | ⟨-, -, hread⟩ | ⟨-, hwriting, -⟩ := setf_cases F V n fin s
  · rw [hack] at hsilent; contradiction
  · exact hread
  · rw [hph] at hwriting; contradiction

/-- The write half of a SETF (R98). -/
theorem setf_writeHalf {s : State} (F : FieldRef) (V : ValSel) (n : Code) (fin : State → State)
    (hack : s.ports.busAck = true) (hph : s.PH = true) :
    setf F V n fin s = setfWrite (resolve s F) (valOf s.bind V) n fin s := by
  obtain ⟨hsilent, -⟩ | ⟨-, hreading, -⟩ | ⟨-, -, hwrite⟩ := setf_cases F V n fin s
  · rw [hack] at hsilent; contradiction
  · rw [hph] at hreading; contradiction
  · exact hwrite

/-- A skip step reads once and moves on; the proposition its comparison decides chooses the successor (R101 to R103). -/
theorem skipIf_acked {s : State} {cmp : Word → Word → Bool} {F : FieldRef} {V : ValSel} {p : Prop} [Decidable p]
    (n a : Code) (hack : s.ports.busAck = true)
    (hcmp : cmp (fld (resolve s F) (memRead (resolve s F).addr s).T) (valOf s.bind V) = true ↔ p) :
    skipIf cmp F V n a s =
      { memRead (resolve s F).addr s with PCNT := 0, ST := if p then a else n } := by
  obtain ⟨hsilent, -⟩ | ⟨-, hskip, hs⟩ | ⟨-, hstay, hs⟩ := skipIf_cases cmp F V n a s
  · rw [hack] at hsilent; contradiction
  · rw [hs, if_pos (hcmp.1 hskip)]; rfl
  · rw [hs, if_neg fun hp => Bool.false_ne_true (hstay.symm.trans (hcmp.2 hp))]; rfl

/-! ### The statements -/

/-- Settles O19: one equation per half, the bits outside the mask by `ins_outside`, the values by R9 (c). -/
theorem setfKindReadsThenWrites : Obligations.SetfKindReadsThenWrites := by
  intro F V next s D w
  refine ⟨onAck_wait, setf_readHalf F V next id, fun hack hph => ?writeHalf,
    ins_outside D s.T (valOf s.bind V), fun i f n hform => wf_fits s.binding.ok hform⟩
  case writeHalf =>
    rw [setf_writeHalf F V next id hack hph]
    exact ⟨rfl, rfl⟩

/-- Settles O20: the cases of `wait_cases` are the branches of the chain, in R100's order. -/
theorem waitKindMatchesBeforeTheBound : Obligations.WaitKindMatchesBeforeTheBound := by
  intro F V next s hack r
  obtain ⟨hsilent, -⟩ | ⟨-, hmatch, hw⟩ | ⟨-, hmiss, hforever, hw⟩ | ⟨-, hmiss, hbound, hbelow, hw⟩ |
    ⟨-, hmiss, hbound, hreached, hw⟩ := wait_cases F V next s
  · rw [hack] at hsilent; contradiction
  · rw [hw, if_pos hmatch]; rfl
  · rw [hw, if_neg hmiss, if_pos hforever]
  · rw [hw, if_neg hmiss, if_neg hbound, if_neg hbelow]
  · rw [hw, if_neg hmiss, if_neg hbound, if_pos hreached]; rfl

/-- Settles O21: the three kinds are one skip under three comparisons, each deciding the unsigned order of words. -/
theorem skipKindsCompareUnsigned : Obligations.SkipKindsCompareUnsigned := by
  intro F V next alt s hack r x
  exact ⟨skipIf_acked next alt hack decide_eq_true_iff,
    skipIf_acked next alt hack (decide_eq_true_iff.trans BitVec.le_def.symm),
    skipIf_acked next alt hack (decide_eq_true_iff.trans BitVec.le_def.symm)⟩

end Sys2Proof.Machine
end

section
/-! PROOFS. The step table's rows and one inversion lemma for a step of the machine, from which every invariant below is
read off (30_encoding R97 to R108, 60_exceptions R207). -/

namespace Sys2Proof.Machine

/-! ### Codes and rows of the step table -/

/-- A code that decodes is the code of its step (R90, R91). -/
theorem encode_of_decode {c : Code} {i : Instr} (h : decode c = some i) : encode i = c := by
  have hall : ∀ c : Code, ∀ i ∈ decode c, encode i = c := by decide
  exact hall c i h

/-- Every step's code decodes to it (R90, R91). -/
theorem decode_encode (i : Instr) : decode (encode i) = some i := by cases i <;> rfl

/-- Every successor of a row is the code of a listed step (R108). -/
theorem listed_of_successor {i : Instr} {c : Code} (h : c ∈ i.successors) : (decode c).isSome = true := by
  have hrows : ∀ i ∈ Instr.all, ∀ c ∈ i.successors, (decode c).isSome = true := by decide
  exact hrows i (Instr.mem_all i) c h

/-- The successors of a step that issues transactions: none is HALT or G1, and only the two steps that end a sequence
lead to DONE (R97). -/
theorem successor_row {i : Instr} {c : Code} (hi : i.form ≠ .ctrl) (h : c ∈ i.successors) :
    c ≠ 0x1E ∧ c ≠ 0x60 ∧ (c = 0x1F ↔ i = .s9b ∨ i = .g1) := by
  have hrows : ∀ i ∈ Instr.all, i.form ≠ .ctrl → ∀ c ∈ i.successors,
      c ≠ 0x1E ∧ c ≠ 0x60 ∧ (c = 0x1F ↔ i = .s9b ∨ i = .g1) := by decide
  exact hrows i (Instr.mem_all i) hi c h

/-! ### What the block does at a clock edge -/

/-- What the step `i` can do in a state, one constructor per outcome of its kind (R98 to R105). -/
inductive BlockMove (i : Instr) (s : State) : State → Prop where
  | still : BlockMove i s s
  | readHalf {F V n} (hi : i.form = .setf F V n) (hack : s.ports.busAck = true) (hph : s.PH = false) :
      BlockMove i s { memRead (resolve s F).addr s with PH := true }
  | writeHalf {F V n} (hi : i.form = .setf F V n) (hack : s.ports.busAck = true) (hph : s.PH = true) :
      BlockMove i s (setfWrite (resolve s F) (valOf s.bind V) n (finishOf i) s)
  | readBack {F n} (hi : i.form = .rdbk F n) (hack : s.ports.busAck = true) :
      BlockMove i s (goto n (memRead (resolve s F).addr s))
  | found {F V n} (hi : i.form = .wait F V n) (hack : s.ports.busAck = true)
      (hmatch : fld (resolve s F) (memRead (resolve s F).addr s).T = valOf s.bind V) :
      BlockMove i s (goto n (memRead (resolve s F).addr s))
  | again {F V n} (hi : i.form = .wait F V n) (hack : s.ports.busAck = true)
      (hmiss : fld (resolve s F) (memRead (resolve s F).addr s).T ≠ valOf s.bind V) (hbound : s.bind.pollMax = 0) :
      BlockMove i s (memRead (resolve s F).addr s)
  | count {F V n} (hi : i.form = .wait F V n) (hack : s.ports.busAck = true)
      (hmiss : fld (resolve s F) (memRead (resolve s F).addr s).T ≠ valOf s.bind V) (hbound : s.bind.pollMax ≠ 0)
      (hbelow : s.PCNT + 1 ≠ s.bind.pollMax) :
      BlockMove i s { memRead (resolve s F).addr s with PCNT := s.PCNT + 1 }
  | timeout {F V n} (hi : i.form = .wait F V n) (hack : s.ports.busAck = true)
      (hmiss : fld (resolve s F) (memRead (resolve s F).addr s).T ≠ valOf s.bind V) (hbound : s.bind.pollMax ≠ 0)
      (hreached : s.PCNT + 1 = s.bind.pollMax) :
      BlockMove i s (enterHalt { memRead (resolve s F).addr s with PCNT := s.PCNT + 1 })
  | skipEq {F V n a} (hi : i.form = .skeq F V n a) (hack : s.ports.busAck = true) :
      BlockMove i s (goto (if fld (resolve s F) (memRead (resolve s F).addr s).T = valOf s.bind V then a else n)
        (memRead (resolve s F).addr s))
  | skipGe {F V n a} (hi : i.form = .skge F V n a) (hack : s.ports.busAck = true) :
      BlockMove i s (goto
        (if (valOf s.bind V).toNat ≤ (fld (resolve s F) (memRead (resolve s F).addr s).T).toNat then a else n)
        (memRead (resolve s F).addr s))
  | skipLe {F V n a} (hi : i.form = .skle F V n a) (hack : s.ports.busAck = true) :
      BlockMove i s (goto
        (if (fld (resolve s F) (memRead (resolve s F).addr s).T).toNat ≤ (valOf s.bind V).toNat then a else n)
        (memRead (resolve s F).addr s))
  | start (hi : i = .idle) (hstart : s.ports.start = true) :
      BlockMove i s { s with PH := false, PCNT := 0, ST := 0x01 }
  | hit {g} (hi : i = .done) (hreq : s.ports.gateReq = true) (hg : gateLookup s.bind s.ports.gateId = some g) :
      BlockMove i s { s with GA := s.bind.bankAddr.get g.bank, GB := BitVec.ofNat 5 g.bit, PH := false, ST := 0x60 }
  | miss (hi : i = .done) (hreq : s.ports.gateReq = true) (hg : gateLookup s.bind s.ports.gateId = none) :
      BlockMove i s (ackGate false s)

/-- A skip step either waits for the bus or reads once and goes on as its comparison says (R101 to R103). -/
theorem skipIf_eq_of_ack (cmp : Word → Word → Bool) (F : FieldRef) (V : ValSel) (n a : Code) {s : State}
    (hack : s.ports.busAck = true) :
    skipIf cmp F V n a s =
      goto (if cmp (fld (resolve s F) (memRead (resolve s F).addr s).T) (valOf s.bind V) = true then a else n)
        (memRead (resolve s F).addr s) := by
  rcases skipIf_cases cmp F V n a s with ⟨hsilent, -⟩ | ⟨-, hc, h⟩ | ⟨-, hc, h⟩
  · rw [hack] at hsilent; contradiction
  · rw [h, if_pos hc]
  · rw [h, if_neg (by rw [hc]; decide)]

theorem skipIf_eq_of_silent (cmp : Word → Word → Bool) (F : FieldRef) (V : ValSel) (n a : Code) {s : State}
    (hack : s.ports.busAck = false) : skipIf cmp F V n a s = s := onAck_wait hack

/-- A step's meaning is one of the outcomes of its kind. -/
theorem blockMove_moveOf (i : Instr) (s : State) : BlockMove i s (moveOf i s) := by
  unfold moveOf
  cases hi : i.form with
  | setf F V n =>
    rcases setf_cases F V n (finishOf i) s with ⟨-, h⟩ | ⟨hack, hph, h⟩ | ⟨hack, hph, h⟩ <;> simp only [h]
    · exact .still
    · exact .readHalf hi hack hph
    · exact .writeHalf hi hack hph
  | rdbk F n =>
    rcases rdbk_cases F n s with ⟨-, h⟩ | ⟨hack, h⟩ <;> simp only [h]
    · exact .still
    · exact .readBack hi hack
  | wait F V n =>
    rcases wait_cases F V n s with ⟨-, h⟩ | ⟨hack, hm, h⟩ | ⟨hack, hm, hb, h⟩ | ⟨hack, hm, hb, hc, h⟩ |
      ⟨hack, hm, hb, hc, h⟩ <;> simp only [h]
    · exact .still
    · exact .found hi hack hm
    · exact .again hi hack hm hb
    · exact .count hi hack hm hb hc
    · exact .timeout hi hack hm hb hc
  | skeq F V n a =>
    cases hack : s.ports.busAck
    · simp only [skeq, skipIf_eq_of_silent _ F V n a hack]; exact .still
    · simp only [skeq, skipIf_eq_of_ack _ F V n a hack, decide_eq_true_eq]; exact .skipEq hi hack
  | skge F V n a =>
    cases hack : s.ports.busAck
    · simp only [skge, skipIf_eq_of_silent _ F V n a hack]; exact .still
    · simp only [skge, skipIf_eq_of_ack _ F V n a hack, decide_eq_true_eq]; exact .skipGe hi hack
  | skle F V n a =>
    cases hack : s.ports.busAck
    · simp only [skle, skipIf_eq_of_silent _ F V n a hack]; exact .still
    · simp only [skle, skipIf_eq_of_ack _ F V n a hack, decide_eq_true_eq]; exact .skipLe hi hack
  | ctrl =>
    cases i <;> try exact .still
    case idle =>
      rcases idleMove_cases s with ⟨-, hstart, h⟩ | ⟨-, h⟩ <;> simp only [h]
      · exact .start rfl hstart
      · exact .still
    case done =>
      rcases doneMove_cases s with ⟨-, h⟩ | ⟨g, hreq, hg, h⟩ | ⟨hreq, hg, h⟩ <;> simp only [h]
      · exact .still
      · exact .hit rfl hreq hg
      · exact .miss rfl hreq hg

/-! ### What a step of the machine does -/

/-- The state once the act at the head of the schedule has been taken off. -/
def popped (s : State) : State := { s with sched := s.sched.tail }

/-- What one step can do to the state whose act has been taken off: the block's edge in its four forms (R207), or
another agent's act. -/
inductive StepTo (r : State) : State → Prop where
  | reset (hr : r.ports.rst = true) : StepTo r (blockReset r)
  | block {i : Instr} {t : State} (hr : r.ports.rst = false) (hd : decode r.ST = some i) (h : BlockMove i r t) :
      StepTo r t
  | illegal (hr : r.ports.rst = false) (hd : decode r.ST = none) : StepTo r (enterHalt r)
  | agent (a : Act) (ha : a ≠ .edge) : StepTo r (actOf a r)

theorem stepTo_edge (r : State) : StepTo r (actOf .edge r) := by
  unfold actOf
  cases hr : r.ports.rst with
  | true => exact .reset hr
  | false =>
    cases hd : decode r.ST with
    | none => exact .illegal hr hd
    | some i => exact .block hr hd (blockMove_moveOf i r)

theorem stepTo_actOf (a : Act) (r : State) : StepTo r (actOf a r) := by
  by_cases ha : a = .edge
  · rw [ha]; exact stepTo_edge r
  · exact .agent a ha

/-- Inversion of a step, whichever agent moves. -/
theorem stepTo_of_step {s t : State} (h : step s = .next t) : StepTo (popped s) t := by
  rcases step_cases h with ⟨hs, rfl⟩ | ⟨a, rest, hs, rfl⟩
  · have hp : popped s = s := by unfold popped; rw [hs, List.tail_nil, ← hs]
    rw [hp]; exact stepTo_edge s
  · have hp : popped s = { s with sched := rest } := by unfold popped; rw [hs]; rfl
    rw [hp]; exact stepTo_actOf a _

/-- The block's registers, its binding and the trace are the same in two states. -/
structure SameBlock (s t : State) : Prop where
  binding : t.binding = s.binding
  ST : t.ST = s.ST
  PH : t.PH = s.PH
  T : t.T = s.T
  PCNT : t.PCNT = s.PCNT
  FAIL : t.FAIL = s.FAIL
  DN : t.DN = s.DN
  TO : t.TO = s.TO
  HIT : t.HIT = s.HIT
  GA : t.GA = s.GA
  GB : t.GB = s.GB
  trace : t.trace = s.trace

/-- A driver's request changes the gate port only (R191). -/
theorem requestGate_eq (id : Nat) (r : State) :
    requestGate id r =
      { r with ports :=
          if r.ports.gateReq then r.ports else { r.ports with gateReq := true, gateId := id % 2 ^ r.bind.idw } } := by
  unfold requestGate; split <;> rfl

/-- An act of another agent leaves the block as it is (R17). -/
theorem sameBlock_agent {a : Act} (ha : a ≠ .edge) (r : State) : SameBlock r (actOf a r) := by
  cases a with
  | edge => exact absurd rfl ha
  | gateRequest id => rw [actOf, requestGate_eq]; constructor <;> rfl
  | _ => constructor <;> rfl

/-- Whatever moves, the environment keeps what all its operations keep. -/
theorem StepTo.envKeeps {r t : State} (h : StepTo r t) : EnvKeeps r.env t.env := by
  cases h with
  | reset => exact .refl _
  | illegal => exact .refl _
  | agent a ha =>
    cases a with
    | edge => exact absurd rfl ha
    | gateRequest id => rw [actOf, requestGate_eq]; exact .refl _
    | applyPosted b => exact applyOldest_keeps _ _ _
    | settle S => exact settle_keeps _ _ _
    | status S v => exact setStatus_keeps _ _ _ _
    | otherWrite a w => exact applyWrite_keeps _ _ _
    | poke a w => exact pokeReg_keeps _ _ _ _
    | _ => exact .refl _
  | @block i _ hr hd hm =>
    cases hm with
    | writeHalf hi =>
      have hfin : ∀ x : State, (finishOf i x).env = x.env := fun x => by cases i <;> rfl
      rw [setfWrite, hfin]; exact acceptWrite_keeps _ _ _
    | still | start | hit | miss => exact .refl _
    | _ => exact serveRead_keeps _ _ _

/-! ### Invariants of every step -/

/-- Settles O46: every operation of the environment keeps the canonical form (`EnvKeeps.wf`). -/
theorem registersStayCanonical : Obligations.RegistersStayCanonical :=
  fun _ _ hwf h => (stepTo_of_step h).envKeeps.wf hwf

end Sys2Proof.Machine
end

section
/-! PROOFS. The block's control invariant (10_state R22 to R25, 60_exceptions R203, R204): every step keeps it. -/

namespace Sys2Proof.Machine

/-! ### Rows by kind -/

/-- The steps whose one transaction is a read: RDBK, WAIT and the skips (R99 to R103). -/
def Instr.readsOnly (i : Instr) : Bool :=
  match i.form with
  | .setf .. | .ctrl => false
  | _ => true

theorem Instr.readsOnly_iff (i : Instr) : Instr.readsOnly i = true ↔ i.form ≠ .ctrl ∧ i.isSetf = false := by
  unfold Instr.readsOnly Instr.isSetf
  cases i.form <;> simp

theorem setfCode_encode (i : Instr) : setfCode (encode i) = i.isSetf := by
  simp [setfCode, decode_encode]

theorem waitCode_encode (i : Instr) : waitCode (encode i) = i.isWait := by
  simp [waitCode, decode_encode]

theorem successors_setf {i : Instr} {F : FieldRef} {V : ValSel} {n : Code} (hi : i.form = .setf F V n) :
    i.successors = [n] := by
  cases i <;> cases hi <;> rfl

theorem successors_rdbk {i : Instr} {F : FieldRef} {n : Code} (hi : i.form = .rdbk F n) : i.successors = [n] := by
  cases i <;> cases hi <;> rfl

theorem successors_wait {i : Instr} {F : FieldRef} {V : ValSel} {n : Code} (hi : i.form = .wait F V n) :
    i.successors = [n] := by
  cases i <;> cases hi <;> rfl

theorem successors_skip {i : Instr} {F : FieldRef} {V : ValSel} {n a : Code}
    (hi : i.form = .skeq F V n a ∨ i.form = .skge F V n a ∨ i.form = .skle F V n a) : i.successors = [n, a] := by
  rcases hi with hi | hi | hi <;> cases i <;> cases hi <;> rfl

/-- Whatever a skip's comparison says, it goes to a successor of its row. -/
theorem skip_mem_successors {i : Instr} {F : FieldRef} {V : ValSel} {n a : Code}
    (hi : i.form = .skeq F V n a ∨ i.form = .skge F V n a ∨ i.form = .skle F V n a) (p : Prop) [Decidable p] :
    (if p then a else n) ∈ i.successors := by
  rw [successors_skip hi]; split <;> simp

/-- A step that issues transactions stands in none of the control states; G1 alone comes after DONE. -/
theorem encode_row {i : Instr} (hi : i.form ≠ .ctrl) :
    encode i ≠ 0x1E ∧ encode i ≠ 0x1F ∧ (encode i = 0x60 ↔ i = .g1) := by
  have hrows : ∀ i ∈ Instr.all, i.form ≠ .ctrl → encode i ≠ 0x1E ∧ encode i ≠ 0x1F ∧ (encode i = 0x60 ↔ i = .g1) := by
    decide
  exact hrows i (Instr.mem_all i) hi

/-! ### The invariant, move by move -/

section
variable {i : Instr} {s : State}

/-- In a step that issues transactions no timeout has happened, and the bring-up is over only in G1. -/
theorem ControlInv.running (hI : ControlInv s) (hd : decode s.ST = some i) (hi : i.form ≠ .ctrl) :
    s.TO = false ∧ (s.DN = true ↔ i = .g1) := by
  obtain ⟨hhalt, hdone, hg1⟩ := encode_row hi
  rw [encode_of_decode hd] at hhalt hdone hg1
  exact ⟨Bool.eq_false_iff.2 fun hto => hhalt (hI.timeout.1 hto), hI.finished.trans ⟨by tauto, by tauto⟩⟩

/-- A step that completes by a read goes on to a successor (R99 to R103). -/
theorem ControlInv.goto_memRead (hI : ControlInv s) (hd : decode s.ST = some i) (hr : Instr.readsOnly i = true) {c : Code}
    (hc : c ∈ i.successors) (a : Nat) : ControlInv (goto c (memRead a s)) := by
  obtain ⟨hi, hset⟩ := (Instr.readsOnly_iff i).1 hr
  obtain ⟨hto, hdn⟩ := hI.running hd hi
  obtain ⟨hhalt, hg1, hdone⟩ := successor_row hi hc
  have hi9 : i ≠ .s9b := by rintro rfl; cases hset
  have hig : i ≠ .g1 := by rintro rfl; cases hset
  have hcdone : c ≠ 0x1F := fun h => (hdone.1 h).elim hi9 hig
  have hdn' : s.DN = false := Bool.eq_false_iff.2 fun h => hig (hdn.1 h)
  have hph : s.PH = false := Bool.eq_false_iff.2 fun h => by
    have := hI.phase h
    rw [← encode_of_decode hd, setfCode_encode, hset] at this
    cases this
  exact {
    listed := listed_of_successor hc
    phase := fun h => nomatch hph.symm.trans h
    pollIdle := fun h => absurd rfl h
    pollBound := fun _ h => absurd rfl h
    haltCount := fun h => absurd h hhalt
    timeout := ⟨fun h => (nomatch hto.symm.trans h), fun h => absurd h hhalt⟩
    noCause := hI.noCause
    cause := hI.cause
    finished := ⟨fun h => (nomatch hdn'.symm.trans h), fun h => h.elim (absurd · hcdone) (absurd · hg1)⟩
    hitAfterDone := hI.hitAfterDone
    gate := fun h => absurd h hg1 }

/-- A WAIT step that repeats counts below the bound (R100). -/
theorem ControlInv.again (hI : ControlInv s) (hd : decode s.ST = some i) (hw : i.isWait = true) (a : Nat) {n : Word}
    (hn : n ≠ 0 → n.toNat < s.bind.pollMax.toNat) : ControlInv { memRead a s with PCNT := n } := by
  have hcode : waitCode s.ST = true := by rw [← encode_of_decode hd, waitCode_encode, hw]
  refine { hI with pollIdle := fun _ => .inl hcode, pollBound := fun _ => hn, haltCount := fun h => ?_ }
  have hST : s.ST ≠ 0x1E := by
    rw [← encode_of_decode hd]
    exact (encode_row fun h => by rw [Instr.isWait, h] at hw; cases hw).1
  exact absurd h hST

/-- Below the bound a count that does not reach it stays below (R25). -/
theorem count_lt {p b : Word} (hb : b ≠ 0) (hp : p ≠ 0 → p.toNat < b.toNat) (hne : p + 1 ≠ b) :
    (p + 1).toNat < b.toNat := by
  bv_omega

/-- A WAIT step whose bound is reached enters HALT with its code as the cause (R203, R204). -/
theorem ControlInv.timeout_halt (hI : ControlInv s) (hd : decode s.ST = some i) (hw : i.isWait = true) (a : Nat)
    (hb : s.bind.pollMax ≠ 0) (hn : s.PCNT + 1 = s.bind.pollMax) :
    ControlInv (enterHalt { memRead a s with PCNT := s.PCNT + 1 }) := by
  have hi : i.form ≠ .ctrl := fun h => by rw [Instr.isWait, h] at hw; cases hw
  have hdn : s.DN = false := Bool.eq_false_iff.2 fun h => by
    rw [((hI.running hd hi).2.1 h)] at hw; cases hw
  have hcode : waitCode s.ST = true := by rw [← encode_of_decode hd, waitCode_encode, hw]
  exact {
    listed := rfl
    phase := fun h => nomatch h
    pollIdle := fun _ => .inr rfl
    pollBound := fun h => nomatch h
    haltCount := fun _ => ⟨hn, hb⟩
    timeout := ⟨fun _ => rfl, fun _ => rfl⟩
    noCause := fun h => nomatch h
    cause := fun _ => hcode
    finished := by simp [hdn]
    hitAfterDone := hI.hitAfterDone
    gate := fun h => nomatch h }

/-- The read half of a SETF raises `PH` and nothing else of the control registers (R98). -/
theorem ControlInv.readHalf (hI : ControlInv s) (hd : decode s.ST = some i) (hset : i.isSetf = true) (a : Nat) :
    ControlInv { memRead a s with PH := true } :=
  { hI with phase := fun _ => by rw [memRead_ST, ← encode_of_decode hd, setfCode_encode, hset] }

/-- The write half of a SETF goes on to its successor; S9B ends the bring-up and G1 the request (R98, R177, R192). -/
theorem ControlInv.writeHalf (hI : ControlInv s) (hd : decode s.ST = some i) {F : FieldRef} {V : ValSel} {n : Code}
    (hi : i.form = .setf F V n) (D : Descriptor) (v : Word) : ControlInv (setfWrite D v n (finishOf i) s) := by
  have hctrl : i.form ≠ .ctrl := by rw [hi]; intro h; cases h
  have hn : n ∈ i.successors := by rw [successors_setf hi]; simp
  obtain ⟨hto, hdn⟩ := hI.running hd hctrl
  obtain ⟨hhalt, hg1, hdone⟩ := successor_row hctrl hn
  have hlisted := listed_of_successor hn
  have hfail := hI.noCause hto
  by_cases h9 : i = .s9b
  · subst h9; cases hi
    constructor <;> simp_all [setfWrite, finishOf, ControlInv.hitAfterDone]
  · by_cases hg : i = .g1
    · subst hg; cases hi
      constructor <;> simp_all [setfWrite, finishOf]
    · have hfin : finishOf i = id := by cases i <;> first | rfl | exact absurd rfl h9 | exact absurd rfl hg
      have hndone : n ≠ 0x1F := fun h => (hdone.1 h).elim h9 hg
      have hhit := hI.hitAfterDone
      constructor <;> simp_all [setfWrite]

/-- DONE takes a request that hits to G1, with the row's bank and bit (R192, R110). -/
theorem ControlInv.hit (hI : ControlInv s) (hd : decode s.ST = some .done) {g : GateEntry} (hg : g ∈ s.bind.gateTable) :
    ControlInv { s with GA := s.bind.bankAddr.get g.bank, GB := BitVec.ofNat 5 g.bit, PH := false, ST := 0x60 } := by
  have hST : s.ST = 0x1F := (encode_of_decode hd).symm
  have hto : s.TO = false := Bool.eq_false_iff.2 fun h => by rw [hI.timeout, hST] at h; cases h
  have hcount : s.PCNT = 0 := by
    by_contra h
    rcases hI.pollIdle h with h | h <;> rw [hST] at h <;> cases h
  have hdn : s.DN = true := hI.finished.2 (.inl hST)
  exact {
    listed := rfl
    phase := fun h => nomatch h
    pollIdle := fun h => absurd hcount h
    pollBound := fun h => nomatch h
    haltCount := fun h => nomatch h
    timeout := ⟨fun h => (nomatch hto.symm.trans h), fun h => nomatch h⟩
    noCause := hI.noCause
    cause := hI.cause
    finished := ⟨fun _ => .inr rfl, fun _ => hdn⟩
    hitAfterDone := fun _ => hdn
    gate := fun _ => ⟨g, hg, rfl, rfl⟩ }

/-- IDLE's start leaves the flags low (R120). -/
theorem ControlInv.start (hI : ControlInv s) (hd : decode s.ST = some .idle) :
    ControlInv { s with PH := false, PCNT := 0, ST := 0x01 } := by
  have hST : s.ST = 0x00 := (encode_of_decode hd).symm
  have hto : s.TO = false := Bool.eq_false_iff.2 fun h => by rw [hI.timeout, hST] at h; cases h
  have hdn : s.DN = false := Bool.eq_false_iff.2 fun h => by rw [hI.finished, hST] at h; rcases h with h | h <;> cases h
  exact {
    listed := rfl
    phase := fun h => nomatch h
    pollIdle := fun h => absurd rfl h
    pollBound := fun h => nomatch h
    haltCount := fun h => nomatch h
    timeout := ⟨fun h => (nomatch hto.symm.trans h), fun h => nomatch h⟩
    noCause := hI.noCause
    cause := hI.cause
    finished := ⟨fun h => (nomatch hdn.symm.trans h), fun h => h.elim (nomatch ·) (nomatch ·)⟩
    hitAfterDone := hI.hitAfterDone
    gate := fun h => nomatch h }

theorem ControlInv.blockMove {t : State} (hI : ControlInv s) (hd : decode s.ST = some i) (h : BlockMove i s t) :
    ControlInv t := by
  cases h with
  | still => exact hI
  | readHalf hi => exact hI.readHalf hd (by rw [Instr.isSetf, hi]) _
  | writeHalf hi => exact hI.writeHalf hd hi _ _
  | readBack hi => exact hI.goto_memRead hd (by rw [Instr.readsOnly, hi]) (by simp [successors_rdbk hi]) _
  | found hi => exact hI.goto_memRead hd (by rw [Instr.readsOnly, hi]) (by simp [successors_wait hi]) _
  | again hi _ _ hb =>
    have hw : i.isWait = true := by rw [Instr.isWait, hi]
    have hcode : waitCode s.ST = true := by rw [← encode_of_decode hd, waitCode_encode, hw]
    exact hI.again hd hw _ (n := s.PCNT) (hI.pollBound hcode)
  | count hi _ _ hb hne =>
    have hw : i.isWait = true := by rw [Instr.isWait, hi]
    have hcode : waitCode s.ST = true := by rw [← encode_of_decode hd, waitCode_encode, hw]
    exact hI.again hd hw _ fun _ => count_lt hb (hI.pollBound hcode) hne
  | timeout hi _ _ hb hn => exact hI.timeout_halt hd (by rw [Instr.isWait, hi]) _ hb hn
  | skipEq hi => exact hI.goto_memRead hd (by rw [Instr.readsOnly, hi]) (skip_mem_successors (.inl hi) _) _
  | skipGe hi => exact hI.goto_memRead hd (by rw [Instr.readsOnly, hi]) (skip_mem_successors (.inr (.inl hi)) _) _
  | skipLe hi => exact hI.goto_memRead hd (by rw [Instr.readsOnly, hi]) (skip_mem_successors (.inr (.inr hi)) _) _
  | start hi => subst hi; exact hI.start hd
  | hit hi _ hg => subst hi; exact hI.hit hd (gateLookup_mem hg).1
  | miss => exact { hI with hitAfterDone := fun h => nomatch h }

/-- Reset gives every control register its value of R55 (R230). -/
theorem controlInv_blockReset (s : State) : ControlInv (blockReset s) := by
  constructor <;> simp [setfCode, waitCode]; rfl

/-- Two states with the same block differ at most in the ports, the environment and the schedule. -/
theorem SameBlock.eq {r t : State} (h : SameBlock r t) : t = { r with ports := t.ports, env := t.env, sched := t.sched } := by
  obtain ⟨hB, hST, hPH, hT, hPCNT, hFAIL, hDN, hTO, hHIT, hGA, hGB, htr⟩ := h
  rw [← hB, ← hST, ← hPH, ← hT, ← hPCNT, ← hFAIL, ← hDN, ← hTO, ← hHIT, ← hGA, ← hGB, ← htr]

/-- The invariant speaks of the block's registers only. -/
theorem ControlInv.sameBlock {r t : State} (hI : ControlInv r) (h : SameBlock r t) : ControlInv t := by
  rw [h.eq]
  exact { hI with }

end

/-- Settles O47: reset, each outcome of a step's kind, and the acts of the other agents keep the invariant; an illegal code
cannot be met under it. -/
theorem controlInvariantIsKept : Obligations.ControlInvariantIsKept := by
  intro s t hI h
  have hp : ControlInv (popped s) := { hI with }
  cases stepTo_of_step h with
  | reset => exact controlInv_blockReset _
  | block _ hd hm => exact hp.blockMove hd hm
  | illegal _ hd => have := hp.listed; rw [hd] at this; cases this
  | agent a ha => exact hp.sameBlock (sameBlock_agent ha _)

end Sys2Proof.Machine
end

section
/-! PROOFS. What one step can do to `ST`, to the sticky flags and to the trace (30_encoding R108, 10_state R23, 20_memory
R62, R63, R81, 60_exceptions R209). -/

namespace Sys2Proof.Machine

theorem finishOf_ST (i : Instr) (s : State) : (finishOf i s).ST = s.ST := by cases i <;> rfl

/-- A step stays, completes to a successor, or times out into HALT, where a bound is set (R108, R203). -/
theorem BlockMove.ST {i : Instr} {s t : State} (h : BlockMove i s t) :
    t.ST = s.ST ∨ t.ST ∈ i.successors ∨
      (t.ST = 0x1E ∧ t.TO = true ∧ t.FAIL = s.ST ∧ i.isWait = true ∧ s.bind.pollMax ≠ 0) := by
  cases h with
  | still | readHalf | again | count | miss => exact .inl rfl
  | writeHalf hi =>
    refine .inr (.inl ?_)
    rw [setfWrite, finishOf_ST, goto_ST, successors_setf hi]; simp
  | readBack hi => exact .inr (.inl (by simp [successors_rdbk hi]))
  | found hi => exact .inr (.inl (by simp [successors_wait hi]))
  | timeout hi _ _ hb => exact .inr (.inr ⟨rfl, rfl, rfl, by rw [Instr.isWait, hi], hb⟩)
  | skipEq hi => exact .inr (.inl (skip_mem_successors (.inl hi) _))
  | skipGe hi => exact .inr (.inl (skip_mem_successors (.inr (.inl hi)) _))
  | skipLe hi => exact .inr (.inl (skip_mem_successors (.inr (.inr hi)) _))
  | start hi => subst hi; exact .inr (.inl (List.mem_singleton.2 rfl))
  | hit hi => subst hi; exact .inr (.inl (List.mem_singleton.2 rfl))

/-- Settles O35. -/
theorem stateCodeFollowsTable : Obligations.StateCodeFollowsTable := by
  intro s t h
  cases stepTo_of_step h with
  | reset hr => exact .inr (.inl ⟨hr, rfl⟩)
  | illegal _ hd => exact .inr (.inr (.inr ⟨rfl, rfl, rfl, .inr hd⟩))
  | agent a ha => exact .inl (sameBlock_agent ha _).ST
  | @block i _ _ hd hm =>
    rcases hm.ST with hs | hs | ⟨hs, hto, hfail, hw, -⟩
    · exact .inl hs
    · exact .inr (.inr (.inl ⟨i, hd, hs⟩))
    · refine .inr (.inr (.inr ⟨hs, hto, hfail, .inl ?_⟩))
      rw [show s.ST = encode i from (encode_of_decode hd).symm, waitCode_encode, hw]

/-- HALT's move is to stay (R140). -/
theorem BlockMove.halt_eq {s t : State} (h : BlockMove .halt s t) : t = s := by
  cases h with
  | still => rfl
  | readHalf hi | writeHalf hi | readBack hi | found hi | again hi | count hi | timeout hi | skipEq hi | skipGe hi
  | skipLe hi | start hi | hit hi | miss hi => cases hi

/-- Settles O39: HALT does nothing at an edge, the other agents leave the block, and reset clears it. -/
theorem onlyResetLeavesHalt : Obligations.OnlyResetLeavesHalt := by
  intro s t hST h
  have hd : decode (popped s).ST = some .halt := congrArg decode hST
  cases stepTo_of_step h with
  | reset hr => exact .inr ⟨hr, rfl, rfl, rfl, rfl⟩
  | illegal _ hn => rw [hd] at hn; cases hn
  | agent a ha =>
    have hb := sameBlock_agent ha (popped s)
    exact .inl ⟨hb.ST.trans hST, hb.TO, hb.FAIL, hb.trace⟩
  | block _ hi hm =>
    rw [hd] at hi; cases hi
    rw [hm.halt_eq]; exact .inl ⟨hST, rfl, rfl, rfl⟩

/-- A move of the block lowers neither `DN` nor `TO` (R23). -/
theorem BlockMove.flags {i : Instr} {s t : State} (h : BlockMove i s t) :
    (s.DN = true → t.DN = true) ∧ (s.TO = true → t.TO = true) := by
  cases h with
  | writeHalf =>
    have hfin : ∀ x : State, (x.DN = true → (finishOf i x).DN = true) ∧ (x.TO = true → (finishOf i x).TO = true) :=
      fun x => by cases i <;> first | exact ⟨fun _ => rfl, id⟩ | exact ⟨id, id⟩
    exact hfin (goto _ { memWrite _ _ s with PH := false })
  | timeout => exact ⟨id, fun _ => rfl⟩
  | _ => exact ⟨id, id⟩

/-- Settles O40: only reset lowers `DN` and `TO`, and every operation of the environment keeps the violation flags. -/
theorem flagsAreSticky : Obligations.FlagsAreSticky := by
  intro s t h
  have hs := stepTo_of_step h
  have hk := hs.envKeeps
  have hflags : (s.DN = true → t.DN = true ∨ s.ports.rst = true) ∧ (s.TO = true → t.TO = true ∨ s.ports.rst = true) := by
    cases hs with
    | reset hr => exact ⟨fun _ => .inr hr, fun _ => .inr hr⟩
    | illegal => exact ⟨.inl, fun _ => .inl rfl⟩
    | agent a ha =>
      have hb := sameBlock_agent ha (popped s)
      exact ⟨fun h => .inl (hb.DN.trans h), fun h => .inl (hb.TO.trans h)⟩
    | block _ _ hm => exact ⟨fun h => .inl (hm.flags.1 h), fun h => .inl (hm.flags.2 h)⟩
  exact ⟨hflags.1, hflags.2, hk.pllCfg, hk.ws, hk.fmax, hk.pwrclk⟩

/-! ### The trace and the bus ports -/

section
variable {i : Instr} {s : State} (hd : decode s.ST = some i)
include hd

theorem busCmd_readHalf {F : FieldRef} {V : ValSel} {n : Code} (hi : i.form = .setf F V n) (hph : s.PH = false) :
    busCmd s = some (.read (resolve s F).addr) := by
  simp [busCmd, fetch, hd, hi, hph]

theorem busCmd_writeHalf {F : FieldRef} {V : ValSel} {n : Code} (hi : i.form = .setf F V n) (hph : s.PH = true) :
    busCmd s = some (.write (resolve s F).addr (ins (resolve s F) s.T (valOf s.bind V))) := by
  simp [busCmd, fetch, hd, hi, hph]

theorem busCmd_rdbk {F : FieldRef} {n : Code} (hi : i.form = .rdbk F n) :
    busCmd s = some (.read (resolve s F).addr) := by
  simp [busCmd, fetch, hd, hi]

theorem busCmd_wait {F : FieldRef} {V : ValSel} {n : Code} (hi : i.form = .wait F V n) :
    busCmd s = some (.read (resolve s F).addr) := by
  simp [busCmd, fetch, hd, hi]

theorem busCmd_skip {F : FieldRef} {V : ValSel} {n a : Code}
    (hi : i.form = .skeq F V n a ∨ i.form = .skge F V n a ∨ i.form = .skle F V n a) :
    busCmd s = some (.read (resolve s F).addr) := by
  rcases hi with hi | hi | hi <;> simp [busCmd, fetch, hd, hi]

end

/-- Settles O41: each outcome of a kind adds the transaction that the ports of the state before request. -/
theorem traceRecordsTheBusPorts : Obligations.TraceRecordsTheBusPorts := by
  intro s t h
  cases stepTo_of_step h with
  | reset | illegal => exact .inl rfl
  | agent a ha => exact .inl (sameBlock_agent ha _).trace
  | @block i _ _ hd hm =>
    cases hm with
    | still | start | hit => exact .inl rfl
    | readHalf hi _ hph => exact .inr (.inl ⟨_, busCmd_readHalf hd hi hph, rfl⟩)
    | readBack hi => exact .inr (.inl ⟨_, busCmd_rdbk hd hi, rfl⟩)
    | found hi | again hi | count hi | timeout hi => exact .inr (.inl ⟨_, busCmd_wait hd hi, rfl⟩)
    | skipEq hi => exact .inr (.inl ⟨_, busCmd_skip hd (.inl hi), rfl⟩)
    | skipGe hi => exact .inr (.inl ⟨_, busCmd_skip hd (.inr (.inl hi)), rfl⟩)
    | skipLe hi => exact .inr (.inl ⟨_, busCmd_skip hd (.inr (.inr hi)), rfl⟩)
    | miss hi =>
      subst hi
      exact .inr (.inr (.inr (.inr ⟨(encode_of_decode hd).symm, rfl, rfl⟩)))
    | @writeHalf F V n hi _ hph =>
      have hcmd := busCmd_writeHalf hd hi hph
      by_cases hg : i = .g1
      · subst hg
        refine .inr (.inr (.inr (.inl ⟨_, _, (encode_of_decode hd).symm, hcmd, ?_⟩)))
        exact List.append_assoc ..
      · have hfin : ∀ x : State, (finishOf i x).trace = x.trace := fun x => by
          cases i <;> first | rfl | exact absurd rfl hg
        exact .inr (.inr (.inl ⟨_, _, hcmd, hfin _⟩))

end Sys2Proof.Machine
end

section
/-! PROOFS. Codes, and the 36 steps of the table: each row's next state, read off its kind (30_encoding R90 to R106, 40 to
43). -/

namespace Sys2Proof.Machine

/-! ### Codes -/

/-- Settles O1. -/
theorem stepCodesRoundTrip : Obligations.StepCodesRoundTrip := by
  refine ⟨decode_encode, fun _ _ => encode_of_decode, fun c i h => ?_, by decide⟩
  rw [← encode_of_decode h]
  exact ⟨by cases i <;> rfl, by cases i <;> rfl⟩

/-- Settles O2. -/
theorem writtenCodesDecode : Obligations.WrittenCodesDecode := by
  unfold Obligations.WrittenCodesDecode; decide

/-- Settles O3: the eight expansions, checked against the table one by one. -/
theorem bringUpPathsFollowTable : Obligations.BringUpPathsFollowTable := by
  unfold Obligations.BringUpPathsFollowTable; decide

/-! ### The clock edge -/

/-- A clock edge without reset runs the step that `ST` codes (R22). -/
theorem actOf_edge_decoded {s : State} {i : Instr} (hr : s.ports.rst = false) (hd : decode s.ST = some i) :
    actOf .edge s = moveOf i s := by
  simp [actOf, hr, hd]

/-- A clock edge at an illegal code enters HALT (R106). -/
theorem actOf_edge_illegal {s : State} (hr : s.ports.rst = false) (hd : decode s.ST = none) :
    actOf .edge s = enterHalt s := by
  simp [actOf, hr, hd]

/-- A clock edge under reset resets the block (R207). -/
theorem actOf_edge_reset {s : State} (hr : s.ports.rst = true) : actOf .edge s = blockReset s := by
  simp [actOf, hr]

theorem step_of_empty {s : State} (hs : s.sched = []) : step s = .next (actOf .edge s) := by
  rw [step_eq, hs]

theorem step_of_cons {s : State} {a : Act} {rest : List Act} (hs : s.sched = a :: rest) :
    step s = .next (actOf a { s with sched := rest }) := by
  rw [step_eq, hs]

/-- Settles O4. -/
theorem stepRunsDecodedStep : Obligations.StepRunsDecodedStep := by
  intro s i hd hr
  refine ⟨fun hs => ?_, fun rest hs => ?_⟩
  · rw [step_of_empty hs, actOf_edge_decoded hr hd, exec_eq]
  · rw [step_of_cons hs, actOf_edge_decoded (s := { s with sched := rest }) hr hd, exec_eq]

/-- Settles O5. -/
theorem illegalCodeEntersHalt : Obligations.IllegalCodeEntersHalt := by
  intro s hd hr
  refine ⟨by simp [busCmd, fetch, hd], fun hs => ?_, fun rest hs => ?_⟩
  · rw [step_of_empty hs, actOf_edge_illegal hr hd]; rfl
  · rw [step_of_cons hs, actOf_edge_illegal (s := { s with sched := rest }) hr hd]; rfl

/-- Settles O6: the code fits the table word, and the placed state has no act before the block's edge. -/
theorem placedCodeRunsNext : Obligations.PlacedCodeRunsNext := by
  intro i s
  have hcode : BitVec.ofNat 7 ((encode i).toNat % 2 ^ 8) = encode i := by cases i <;> rfl
  refine ⟨by cases i <;> rfl, rfl, ?_⟩
  rw [step_of_empty rfl, actOf_edge_decoded (i := i) rfl, exec_eq]
  rw [State.withFetchWord, hcode, enterCode_ST, decode_encode]

/-! ### SETF steps -/

/-- A SETF row over a field that adds nothing at its acknowledgement, in both halves (R98). -/
theorem readsThenWrites_of_row {i : Instr} {f : FieldId} {V : ValSel} {n : Code} (hi : i.form = .setf (.field f) V n)
    (hfin : finishOf i = id) : ReadsThenWrites i f (valOf · V) n := by
  intro s hack
  have hmove : moveOf i s = setf (.field f) V n id s := by simp only [moveOf, hi, hfin]
  refine ⟨fun hph => ?_, fun hph => ?_⟩ <;> rw [exec_eq, hmove]
  · rw [setf_readHalf _ V n id hack hph]; rfl
  · rw [setf_writeHalf _ V n id hack hph]; rfl

/-- Settles O7. -/
theorem csqSetfStepsReadThenWrite : Obligations.CsqSetfStepsReadThenWrite :=
  ⟨readsThenWrites_of_row (V := .one) rfl rfl, readsThenWrites_of_row (V := .vosTarget) rfl rfl,
    readsThenWrites_of_row (V := .one) rfl rfl, readsThenWrites_of_row (V := .one) rfl rfl,
    readsThenWrites_of_row (V := .lseDrvLowest) rfl rfl, readsThenWrites_of_row (V := .one) rfl rfl,
    readsThenWrites_of_row (V := .zero) rfl rfl, readsThenWrites_of_row (V := .one) rfl rfl,
    readsThenWrites_of_row (V := .wsTarget) rfl rfl⟩

/-- Settles O8. -/
theorem pceSetfStepsReadThenWrite : Obligations.PceSetfStepsReadThenWrite :=
  ⟨readsThenWrites_of_row (V := .zero) rfl rfl, readsThenWrites_of_row (V := .pllCfg) rfl rfl,
    readsThenWrites_of_row (V := .one) rfl rfl, readsThenWrites_of_row (V := .one) rfl rfl⟩

/-- Settles O9. -/
theorem ptfSetfStepsReadThenWrite : Obligations.PtfSetfStepsReadThenWrite :=
  ⟨readsThenWrites_of_row (V := .ahbSafe) rfl rfl, readsThenWrites_of_row (V := .swPll) rfl rfl,
    readsThenWrites_of_row (V := .ahbFinal) rfl rfl, readsThenWrites_of_row (V := .wsTarget) rfl rfl,
    readsThenWrites_of_row (V := .apb1Final) rfl rfl⟩

/-- Settles O10: S9B adds `DN` to the write half. -/
theorem lastStepSetsDone : Obligations.LastStepSetsDone := by
  intro s hack F
  have hmove : moveOf .s9b s = setf (.field .apb2Pre) .apb2Final 0x1F raiseDN s := rfl
  refine ⟨fun hph => ?_, fun hph => ?_⟩ <;> rw [exec_eq, hmove]
  · rw [setf_readHalf _ _ _ _ hack hph]; rfl
  · rw [setf_writeHalf _ _ _ _ hack hph]; rfl

/-- Inserting 1 under the computed descriptor sets the gate bit and keeps the other bits (R110, R192). -/
theorem ins_gateDesc (B : BindingData) (GA : Nat) (GB : BitPos) (w : Word) :
    ins (gateDesc B GA GB) w 1 = w ||| (1 : Word) <<< GB.toNat := by
  apply BitVec.eq_of_getLsbD_eq
  intro n hn
  simp only [ins, gateDesc, BitVec.getLsbD_or, BitVec.getLsbD_and, BitVec.getLsbD_not, hn, decide_true, Bool.true_and,
    Bool.and_self]
  cases ((1 : Word) <<< GB.toNat).getLsbD n <;> simp

/-- Settles O11: `GA` addresses the bus by itself, and the inserted word is `T | (1 << GB)`. -/
theorem gateStepSetsItsBit : Obligations.GateStepSetsItsBit := by
  intro s hack hGA
  have hmove : moveOf .g1 s = setf .gate .one 0x1F (ackGate true) s := rfl
  have haddr : (resolve s .gate).addr = s.GA := Nat.mod_eq_of_lt hGA
  have hword : ins (resolve s .gate) s.T (valOf s.bind .one) = s.T ||| (1 : Word) <<< s.GB.toNat :=
    ins_gateDesc s.bind s.GA s.GB s.T
  refine ⟨fun hph => ?_, fun hph => ?_⟩
  · rw [exec_eq, hmove, setf_readHalf _ _ _ _ hack hph, haddr]
  · intro w
    rw [exec_eq, hmove, setf_writeHalf _ _ _ _ hack hph, setfWrite, haddr, hword]; rfl

/-! ### Reading steps -/

theorem rdbk_acked {s : State} (F : FieldRef) (n : Code) (hack : s.ports.busAck = true) :
    rdbk F n s = { memRead (resolve s F).addr s with PCNT := 0, ST := n } := onAck_move hack

/-- Settles O12. -/
theorem readBackStepsGoOn : Obligations.ReadBackStepsGoOn := by
  intro s hack
  exact ⟨congrArg _ (rdbk_acked (.field .pwrclkEn) 0x03 hack), congrArg _ (rdbk_acked (.field .vos) 0x05 hack)⟩

/-- A WAIT row over a field polls it as R100 says; the chain is that of the kind. -/
theorem pollsUntil_of_row {i : Instr} {f : FieldId} {V : ValSel} {n : Code} (hi : i.form = .wait (.field f) V n) :
    PollsUntil i f (valOf · V) n := by
  intro s hack r
  have hmove : exec i s = .next (wait (.field f) V n s) := by rw [exec_eq]; simp only [moveOf, hi]
  have hkind := waitKindMatchesBeforeTheBound (.field f) V n s hack
  refine ⟨fun hm => ?_, fun hm hb => ?_, fun hm hb hc => ?_, fun hm hb hc => ?_⟩ <;> rw [hmove, hkind]
  · exact congrArg _ (if_pos hm)
  · exact congrArg _ ((if_neg hm).trans (if_pos hb))
  · exact congrArg _ ((if_neg hm).trans ((if_neg hb).trans (if_neg hc)))
  · refine congrArg _ ((if_neg hm).trans ((if_neg hb).trans ((if_pos hc).trans ?_)))
    rw [hc]; rfl

/-- Settles O13. -/
theorem waitStepsPoll : Obligations.WaitStepsPoll :=
  ⟨pollsUntil_of_row (V := .one) rfl, pollsUntil_of_row (V := .one) rfl, pollsUntil_of_row (V := .one) rfl,
    pollsUntil_of_row (V := .zero) rfl, pollsUntil_of_row (V := .one) rfl, pollsUntil_of_row (V := .zero) rfl,
    pollsUntil_of_row (V := .one) rfl, pollsUntil_of_row (V := .swsPll) rfl⟩

/-- Settles O14: the three rows through the comparison of their kind. -/
theorem skipStepsCompare : Obligations.SkipStepsCompare := by
  intro s hack b f
  have hkind (F V n a) := skipKindsCompareUnsigned F V n a s hack
  obtain ⟨heq, -, -⟩ := hkind (.field .bkpWpdis) .one 0x08 0x0A
  obtain ⟨-, hge, -⟩ := hkind (.field .flashWs) .wsTarget 0x12 0x40
  obtain ⟨-, -, hle⟩ := hkind (.field .flashWs) .wsTarget 0x45 0x46
  exact ⟨congrArg _ heq, congrArg _ hge, congrArg _ hle⟩

/-! ### Control states and the silent bus -/

/-- Settles O15. -/
theorem idleWaitsForStart : Obligations.IdleWaitsForStart := by
  intro s
  rcases idleMove_cases s with ⟨hr, hs, h⟩ | ⟨hno, h⟩
  · exact ⟨fun _ => congrArg _ h, fun hno => absurd ⟨hr, hs⟩ hno⟩
  · exact ⟨fun hyes => absurd hyes hno, fun _ => congrArg _ h⟩

/-- Settles O16. -/
theorem doneServesGateRequests : Obligations.DoneServesGateRequests := by
  intro s
  have hexec : exec .done s = .next (doneMove s) := rfl
  refine ⟨fun hreq => ?_, fun g hreq hg => ?_, fun hreq hg => ?_⟩ <;> rw [hexec] <;> unfold doneMove <;> simp only [hreq]
  · rfl
  · simp only [hg]; rfl
  · simp only [hg]; rfl

/-- Settles O17. -/
theorem haltDoesNothing : Obligations.HaltDoesNothing := fun _ => rfl

/-- A step that issues transactions waits while the bus is silent (R27). -/
theorem moveOf_silent {i : Instr} {s : State} (hi : i.form ≠ .ctrl) (hack : s.ports.busAck = false) :
    moveOf i s = s := by
  unfold moveOf
  cases hf : i.form with
  | ctrl => exact absurd hf hi
  | setf F V n | rdbk F n | wait F V n => exact onAck_wait hack
  | skeq F V n a | skge F V n a | skle F V n a => exact skipIf_eq_of_silent _ F V n a hack

/-- A step that issues transactions requests one in each of its states (R26). -/
theorem busReqO_of_form {i : Instr} {s : State} (hd : decode s.ST = some i) (hi : i.form ≠ .ctrl) : busReqO s = true := by
  unfold busReqO
  cases hf : i.form with
  | ctrl => exact absurd hf hi
  | setf F V n => cases hph : s.PH <;> simp [busCmd_readHalf hd hf, busCmd_writeHalf hd hf, hph]
  | rdbk F n => simp [busCmd_rdbk hd hf]
  | wait F V n => simp [busCmd_wait hd hf]
  | skeq F V n a => simp [busCmd_skip hd (.inl hf)]
  | skge F V n a => simp [busCmd_skip hd (.inr (.inl hf))]
  | skle F V n a => simp [busCmd_skip hd (.inr (.inr hf))]

/-- Settles O18. -/
theorem silentBusHoldsTheBlock : Obligations.SilentBusHoldsTheBlock :=
  fun i s hd hi hack => ⟨by rw [exec_eq, moveOf_silent hi hack], busReqO_of_form hd hi⟩

/-! ### Reset, and the other agents -/

/-- Settles O43. -/
theorem resetEdgeClearsTheBlock : Obligations.ResetEdgeClearsTheBlock := by
  intro s hr t
  refine ⟨fun hs => ?_, fun rest hs => ?_, rfl, rfl, rfl, rfl, rfl⟩
  · rw [step_of_empty hs, actOf_edge_reset hr]; rfl
  · rw [step_of_cons hs, actOf_edge_reset (s := { s with sched := rest }) hr]; rfl

/-- Settles O44. -/
theorem resetStateValues : Obligations.ResetStateValues :=
  ⟨fun _ _ => ⟨rfl, rfl, rfl, rfl, rfl, rfl, rfl, rfl, rfl, rfl, rfl, rfl, rfl, rfl, rfl, rfl, rfl, rfl⟩,
    rfl, rfl, rfl, rfl, rfl⟩

/-- Settles O45: the state after reset is its own block reset. -/
theorem resetMeetsTheInvariants : Obligations.ResetMeetsTheInvariants :=
  ⟨controlInv_blockReset State.reset, memoryWf_nil⟩

/-- Settles O59. -/
theorem otherAgentsLeaveTheBlock : Obligations.OtherAgentsLeaveTheBlock := by
  intro s rest r
  refine ⟨fun _ => step_of_cons, fun _ => step_of_cons, fun _ => step_of_cons, fun id hs hreq => ?_, fun id hs hreq => ?_,
    fun _ => step_of_cons, fun _ => step_of_cons, fun _ _ => step_of_cons, fun _ _ => step_of_cons,
    fun _ _ => step_of_cons⟩ <;> rw [step_of_cons hs, actOf, requestGate_eq]
  · simp only [hreq]; rfl
  · simp only [hreq]; rfl

/-! ### What a move does not look at -/

/-- What a step does with the word it has read (R98 to R103). -/
def onAnswer (i : Instr) (r : State) : State :=
  match i.form with
  | .setf _ _ _ => { r with PH := true }
  | .rdbk _ n => goto n r
  | .wait F V n =>
    if fld (resolve r F) r.T = valOf r.bind V then goto n r
    else if r.bind.pollMax = 0 then r
    else if r.PCNT + 1 = r.bind.pollMax then enterHalt { r with PCNT := r.PCNT + 1 }
    else { r with PCNT := r.PCNT + 1 }
  | .skeq F V n a => goto (if fld (resolve r F) r.T = valOf r.bind V then a else n) r
  | .skge F V n a => goto (if (valOf r.bind V).toNat ≤ (fld (resolve r F) r.T).toNat then a else n) r
  | .skle F V n a => goto (if (fld (resolve r F) r.T).toNat ≤ (valOf r.bind V).toNat then a else n) r
  | .ctrl => r

/-- The address a step reads. -/
def readAddr (i : Instr) (s : State) : Nat :=
  match i.form with
  | .setf F _ _ | .rdbk F _ | .wait F _ _ | .skeq F _ _ _ | .skge F _ _ _ | .skle F _ _ _ => (resolve s F).addr
  | .ctrl => 0

/-- An acknowledged move that is no write half reads once and goes on by the answer alone. -/
theorem moveOf_reads {i : Instr} {s : State} (hi : i.form ≠ .ctrl) (hack : s.ports.busAck = true)
    (hph : s.PH = false ∨ i.isSetf = false) : moveOf i s = onAnswer i (memRead (readAddr i s) s) := by
  unfold moveOf onAnswer readAddr
  cases hf : i.form with
  | ctrl => exact absurd hf hi
  | setf F V n =>
    have hph : s.PH = false := hph.elim id fun h => by rw [Instr.isSetf, hf] at h; cases h
    exact setf_readHalf F V n _ hack hph
  | rdbk F n => exact onAck_move hack
  | wait F V n => exact waitKindMatchesBeforeTheBound F V n s hack
  | skeq F V n a =>
    exact (skipIf_eq_of_ack _ F V n a hack).trans (by simp only [decide_eq_true_eq]; rfl)
  | skge F V n a =>
    exact (skipIf_eq_of_ack _ F V n a hack).trans (by simp only [decide_eq_true_eq]; rfl)
  | skle F V n a =>
    exact (skipIf_eq_of_ack _ F V n a hack).trans (by simp only [decide_eq_true_eq]; rfl)

/-- An acknowledged write half (R98). -/
theorem moveOf_writes {i : Instr} {s : State} {F : FieldRef} {V : ValSel} {n : Code} (hf : i.form = .setf F V n)
    (hack : s.ports.busAck = true) (hph : s.PH = true) :
    moveOf i s = setfWrite (resolve s F) (valOf s.bind V) n (finishOf i) s := by
  simp only [moveOf, hf, setf_writeHalf F V n _ hack hph]

/-- Other levels on the ports. -/
def withPorts (p : Ports) (s : State) : State := { s with ports := p }

/-- Another environment beside the block. -/
def withEnv (e : Env) (s : State) : State := { s with env := e }

/-- Another word in the latch. -/
def withLatch (x : Word) (s : State) : State := { s with T := x }

/-- What a step does with its answer does not depend on the ports. -/
theorem onAnswer_withPorts (i : Instr) (p : Ports) (r : State) :
    onAnswer i (withPorts p r) = withPorts p (onAnswer i r) := by
  unfold onAnswer
  cases i.form with
  | wait F V n => dsimp only; rw [apply_ite (withPorts p), apply_ite (withPorts p), apply_ite (withPorts p)]; rfl
  | _ => rfl

/-- What a step does with its answer does not depend on the environment beside it. -/
theorem onAnswer_withEnv (i : Instr) (e : Env) (r : State) : onAnswer i (withEnv e r) = withEnv e (onAnswer i r) := by
  unfold onAnswer
  cases i.form with
  | wait F V n => dsimp only; rw [apply_ite (withEnv e), apply_ite (withEnv e), apply_ite (withEnv e)]; rfl
  | _ => rfl

/-- A change that a control state does not look at and that its moves leave. -/
theorem doneMove_of_commutes (u : State → State) (s : State) (hreq : (u s).ports.gateReq = s.ports.gateReq)
    (hid : gateLookup (u s).bind (u s).ports.gateId = gateLookup s.bind s.ports.gateId)
    (hhit : ∀ g : GateEntry,
      { u s with GA := (u s).bind.bankAddr.get g.bank, GB := BitVec.ofNat 5 g.bit, PH := false, ST := 0x60 } =
        u { s with GA := s.bind.bankAddr.get g.bank, GB := BitVec.ofNat 5 g.bit, PH := false, ST := 0x60 })
    (hmiss : ackGate false (u s) = u (ackGate false s)) : doneMove (u s) = u (doneMove s) := by
  unfold doneMove
  rw [hreq, hid]
  cases s.ports.gateReq with
  | false => rfl
  | true =>
    cases gateLookup s.bind s.ports.gateId with
    | none => exact hmiss
    | some g => exact hhit g

theorem moveOf_ctrl_withLatch {i : Instr} (hi : i.form = .ctrl) (x : Word) (s : State) :
    moveOf i (withLatch x s) = withLatch x (moveOf i s) := by
  cases i with
  | idle => exact (apply_ite (withLatch x) ((!s.ports.rst && s.ports.start) = true)
      { s with PH := false, PCNT := 0, ST := 0x01 } s).symm
  | done => exact doneMove_of_commutes (withLatch x) s rfl rfl (fun _ => rfl) rfl
  | halt => rfl
  | _ => cases hi

theorem moveOf_ctrl_withEnv {i : Instr} (hi : i.form = .ctrl) (e : Env) (s : State) :
    moveOf i (withEnv e s) = withEnv e (moveOf i s) := by
  cases i with
  | idle => exact (apply_ite (withEnv e) ((!s.ports.rst && s.ports.start) = true)
      { s with PH := false, PCNT := 0, ST := 0x01 } s).symm
  | done => exact doneMove_of_commutes (withEnv e) s rfl rfl (fun _ => rfl) rfl
  | halt => rfl
  | _ => cases hi

/-- An acknowledged SETF in its write half, or a reading move: what a step that issues transactions does. -/
theorem writeHalf_or_reads {i : Instr} (s : State) :
    (∃ F V n, i.form = .setf F V n ∧ s.PH = true) ∨ (s.PH = false ∨ i.isSetf = false) := by
  cases hph : s.PH with
  | false => exact .inr (.inl rfl)
  | true =>
    cases hf : i.form with
    | setf F V n => exact .inl ⟨F, V, n, rfl, rfl⟩
    | _ => exact .inr (.inr (by rw [Instr.isSetf, hf]))

/-- Settles O36: the read replaces the latch before anything looks at it. -/
theorem stepsIgnoreAnEarlierLatch : Obligations.StepsIgnoreAnEarlierLatch := by
  intro i s x hph
  refine ⟨fun hi hack => ?_, fun t ht hcase => ?_⟩
  · rw [exec_eq, exec_eq, moveOf_reads hi hack (.inl hph), moveOf_reads (s := { s with T := x }) hi hack (.inl hph)]
    rfl
  · rw [exec_eq] at ht
    cases ht
    rw [exec_eq]
    by_cases hi : i.form = .ctrl
    · exact congrArg _ (moveOf_ctrl_withLatch hi x s)
    · have hack := hcase.resolve_left hi
      rw [moveOf_silent hi hack, moveOf_silent (s := { s with T := x }) hi hack]

/-- The steps that issue transactions look at no port but `bus_ack_i`, and but for the end of G1 change none (R26). -/
theorem moveOf_withPorts {i : Instr} {s : State} {p : Ports} (hi : i.form ≠ .ctrl) (hg : i ≠ .g1)
    (hp : p.busAck = s.ports.busAck) : moveOf i (withPorts p s) = withPorts p (moveOf i s) := by
  cases hack : s.ports.busAck
  · rw [moveOf_silent hi hack, moveOf_silent (s := withPorts p s) hi (hp.trans hack)]
  · rcases writeHalf_or_reads (i := i) s with ⟨F, V, n, hf, hph⟩ | hph
    · rw [moveOf_writes hf hack hph, moveOf_writes (s := withPorts p s) hf (hp.trans hack) hph]
      cases i <;> first | rfl | exact absurd rfl hg
    · rw [moveOf_reads hi hack hph, moveOf_reads (s := withPorts p s) hi (hp.trans hack) hph]
      exact onAnswer_withPorts i p (memRead (readAddr i s) s)

/-- IDLE and HALT under other levels of the ports that they do not look at (R120, R140). -/
theorem moveOf_ctrl_withPorts {i : Instr} {s : State} {p : Ports} (hi : i.form = .ctrl) (hdone : i ≠ .done)
    (hstart : i = .idle → p.rst = s.ports.rst ∧ p.start = s.ports.start) :
    moveOf i (withPorts p s) = withPorts p (moveOf i s) := by
  cases i with
  | idle =>
    obtain ⟨hr, hs⟩ := hstart rfl
    have hidle : moveOf .idle (withPorts p s) =
        if !s.ports.rst && s.ports.start then withPorts p { s with PH := false, PCNT := 0, ST := 0x01 }
        else withPorts p s := by
      rw [← hr, ← hs]; rfl
    exact hidle.trans (apply_ite (withPorts p) ..).symm
  | halt => rfl
  | done => exact absurd rfl hdone
  | _ => cases hi

/-- A step but DONE and G1 leaves the ports. -/
theorem moveOf_ports {i : Instr} (hdone : i ≠ .done) (hg : i ≠ .g1) (s : State) : (moveOf i s).ports = s.ports := by
  generalize ht : moveOf i s = t
  have hm := blockMove_moveOf i s
  rw [ht] at hm
  cases hm with
  | writeHalf => cases i <;> first | rfl | exact absurd rfl hg
  | miss hi => exact absurd hi hdone
  | _ => rfl

/-- Settles O37: of the control states IDLE and HALT do not look at the gate port either. -/
theorem gatePortIgnoredOutsideDone : Obligations.GatePortIgnoredOutsideDone := by
  intro i s t req id hdone hg ht
  rw [exec_eq] at ht
  cases ht
  rw [exec_eq, moveOf_ports hdone hg]
  by_cases hi : i.form = .ctrl
  · exact congrArg _ (moveOf_ctrl_withPorts hi hdone fun _ => ⟨rfl, rfl⟩)
  · exact congrArg _ (moveOf_withPorts hi hg rfl)

/-- Another level of `start_i`. -/
def withStart (level : Bool) (s : State) : State := { s with ports := { s.ports with start := level } }

/-- G1 under another level of `start_i`. -/
theorem moveOf_g1_withStart (s : State) (level : Bool) :
    moveOf .g1 (withStart level s) = withStart level (moveOf .g1 s) := by
  cases hack : s.ports.busAck
  · rw [moveOf_silent (by decide) hack, moveOf_silent (s := withStart level s) (by decide) hack]
  · cases hph : s.PH
    · rw [moveOf_reads (by decide) hack (.inl hph), moveOf_reads (s := withStart level s) (by decide) hack (.inl hph)]; rfl
    · rw [moveOf_writes rfl hack hph, moveOf_writes (s := withStart level s) rfl hack hph]; rfl

/-- Settles O38. -/
theorem startIgnoredOutsideIdle : Obligations.StartIgnoredOutsideIdle := by
  intro i s t level hidle ht
  rw [exec_eq] at ht
  cases ht
  rw [exec_eq]
  by_cases hdone : i = .done
  · subst hdone
    exact congrArg _ (doneMove_of_commutes (withStart level) s rfl rfl (fun _ => rfl) rfl)
  · by_cases hg : i = .g1
    · subst hg; exact congrArg _ (moveOf_g1_withStart s level)
    · rw [moveOf_ports hdone hg]
      by_cases hi : i.form = .ctrl
      · exact congrArg _ (moveOf_ctrl_withPorts hi hdone fun h => absurd h hidle)
      · exact congrArg _ (moveOf_withPorts hi hg rfl)

/-- Settles O42: a reading move goes on by the answer, and every other move does not look at the environment. -/
theorem moveDependsOnTheAnswerOnly : Obligations.MoveDependsOnTheAnswerOnly := by
  intro i s t e hans ht
  rw [exec_eq] at ht
  cases ht
  suffices h : ∃ e', moveOf i (withEnv e s) = withEnv e' (moveOf i s) by
    obtain ⟨e', h⟩ := h
    exact ⟨e', (exec_eq i _).trans (congrArg _ h)⟩
  by_cases hi : i.form = .ctrl
  · exact ⟨e, moveOf_ctrl_withEnv hi e s⟩
  · cases hack : s.ports.busAck
    · refine ⟨e, ?_⟩
      rw [moveOf_silent hi hack, moveOf_silent (s := withEnv e s) hi hack]
    · rcases writeHalf_or_reads (i := i) s with ⟨F, V, n, hf, hph⟩ | hph
      · refine ⟨acceptWrite s.bind ⟨(resolve s F).addr, ins (resolve s F) s.T (valOf s.bind V)⟩ e, ?_⟩
        rw [moveOf_writes hf hack hph, moveOf_writes (s := withEnv e s) hf hack hph]
        cases i <;> rfl
      · refine ⟨serveRead s.bind (readAddr i s) e, ?_⟩
        have hread : memRead (readAddr i s) (withEnv e s) =
            withEnv (serveRead s.bind (readAddr i s) e) (memRead (readAddr i s) s) := by
          unfold memRead withEnv
          dsimp only
          rw [hans]
        rw [moveOf_reads hi hack hph, moveOf_reads (s := withEnv e s) hi hack hph]
        exact (congrArg (onAnswer i) hread).trans (onAnswer_withEnv ..)

end Sys2Proof.Machine
end

section
/-! PROOFS. Fields and registers: insertion under a mask (00_scope R12), descriptors of a well-formed binding that do not
meet (R9 (g)), and what an applied write leaves by owner class and protection (20_memory R75 to R77). -/

namespace Sys2Proof.Machine

/-! ### fld and ins -/

/-- Of two insertions the last wins (R12). -/
theorem ins_ins (F : Descriptor) (w v u : Word) : ins F (ins F w v) u = ins F w u := by
  apply BitVec.eq_of_getLsbD_eq
  intro n hn
  simp only [ins, BitVec.getLsbD_and, BitVec.getLsbD_or, BitVec.getLsbD_not, hn, decide_true, Bool.true_and]
  cases F.mask.getLsbD n <;> simp

/-- No bit of a mask lies below its position. -/
def MaskFromPos (F : Descriptor) : Prop := ∀ n, F.mask.getLsbD n = true → F.pos.toNat ≤ n

theorem maskFromPos_of_contiguous {F : Descriptor} (h : contiguousAt F.mask F.pos = true) : MaskFromPos F := by
  simp only [contiguousAt, Bool.and_eq_true, decide_eq_true_eq] at h
  obtain ⟨-, hshift⟩ := h
  intro n hn
  rw [← hshift, BitVec.getLsbD_shiftLeft] at hn
  simp only [Bool.and_eq_true, Bool.not_eq_true', decide_eq_false_iff_not] at hn
  omega

/-- Writing back what is read changes nothing (R12). -/
theorem ins_fld {F : Descriptor} (hF : MaskFromPos F) (w : Word) : ins F w (fld F w) = w := by
  apply BitVec.eq_of_getLsbD_eq
  intro n hn
  simp only [ins, fld, BitVec.getLsbD_and, BitVec.getLsbD_or, BitVec.getLsbD_not, BitVec.getLsbD_shiftLeft,
    BitVec.getLsbD_ushiftRight, hn, decide_true, Bool.true_and]
  cases hm : F.mask.getLsbD n with
  | false => simp
  | true =>
    have hpos := hF n hm
    have hadd : F.pos.toNat + (n - F.pos.toNat) = n := by omega
    simp [hadd, hm, Nat.not_lt.2 hpos]

/-- Settles O22. -/
theorem fieldInsertionLaws : Obligations.FieldInsertionLaws := fun F hF w v u =>
  ⟨ins_outside F w v, ins_fld (maskFromPos_of_contiguous hF) w, ins_ins F w v u, fld_ins_same F w v⟩

/-- The same field value in two words means the same bits under the mask. -/
theorem and_mask_of_fld {F : Descriptor} (hF : MaskFromPos F) {w v : Word} (h : fld F w = fld F v) :
    w &&& F.mask = v &&& F.mask := by
  have hbits : ∀ u : Word, u &&& F.mask = (fld F u <<< F.pos.toNat) &&& F.mask := fun u => by
    rw [← ins_inside F u (fld F u), ins_fld hF u]
  rw [hbits w, hbits v, h]

/-! ### Descriptors of a well-formed binding -/

section
variable {B : BindingData} (hB : B.wf = true)
include hB

theorem wf_maskFromPos (f : FieldId) : MaskFromPos (descOf B f) := by
  by_cases hf : f = .pllCfg
  · subst hf
    intro n _
    have hpos : (descOf B .pllCfg).pos = 0 := (wf_pllCfg hB).2
    rw [hpos]; exact Nat.zero_le n
  · exact maskFromPos_of_contiguous (wf_contiguous hB f hf)

theorem wf_mask_ne_zero (f : FieldId) : (descOf B f).mask ≠ 0 := by
  by_cases hf : f = .pllCfg
  · subst hf; exact (wf_pllCfg hB).1
  · intro h
    have := wf_contiguous hB f hf
    simp [contiguousAt, h] at this

/-- Two fields of a word that are not the pair of R36 have disjoint masks (R9 (g)). -/
theorem masks_disjoint {f g : FieldId} (hfg : f ≠ g) (hpair : mayAlias B f g = false)
    (ha : (descOf B f).addr = (descOf B g).addr) : (descOf B f).mask &&& (descOf B g).mask = 0 :=
  (wf_disjoint hB f g hfg ha).resolve_right (by rw [hpair]; decide)

/-- Fields that are not the pair of R36 have different descriptors. -/
theorem descOf_ne {f g : FieldId} (hfg : f ≠ g) (hpair : mayAlias B f g = false) : descOf B f ≠ descOf B g := by
  intro h
  have hd := masks_disjoint hB hfg hpair (congrArg Descriptor.addr h)
  rw [h, BitVec.and_self] at hd
  exact wf_mask_ne_zero hB g hd

end

/-- The pair of R36 coincides only where the model counts `F_LSESYS_FLAG` as an echo field. -/
theorem mayAlias_iff (B : BindingData) (f g : FieldId) :
    mayAlias B f g = true ↔
      (f = .lsesysFlag ∧ g = .lsesysEn ∨ f = .lsesysEn ∧ g = .lsesysFlag) ∧ lsesysAliased B = true := by
  simp only [mayAlias, lsesysAliased, Bool.and_eq_true, Bool.or_eq_true, decide_eq_true_eq]
  constructor
  · rintro ⟨⟨rfl, rfl⟩ | ⟨rfl, rfl⟩, h⟩
    · exact ⟨.inl ⟨rfl, rfl⟩, h⟩
    · exact ⟨.inr ⟨rfl, rfl⟩, h.symm⟩
  · rintro ⟨⟨rfl, rfl⟩ | ⟨rfl, rfl⟩, h⟩
    · exact ⟨.inl ⟨rfl, rfl⟩, h⟩
    · exact ⟨.inr ⟨rfl, rfl⟩, h.symm⟩

/-- An `env` field is no part of the pair of R36 where that pair coincides. -/
theorem mayAlias_of_env {B : BindingData} {f g : FieldId} (hg : g ∈ envFields B) : mayAlias B f g = false := by
  rw [Bool.eq_false_iff]
  intro h
  obtain ⟨⟨-, rfl⟩ | ⟨-, rfl⟩, ha⟩ := (mayAlias_iff B f g).1 h <;> simp [envFields, ha] at hg

/-- The status fields that are no echo fields are the `env` fields (R30, R36). -/
theorem mem_envFields_iff (B : BindingData) (S : StatusId) : S.field ∈ envFields B ↔ isEcho B S = false := by
  cases S <;> simp [envFields, isEcho, StatusId.field]

/-- The `env` fields are status fields. -/
theorem status_of_mem_envFields {B : BindingData} {f : FieldId} (h : f ∈ envFields B) : ∃ S : StatusId, S.field = f := by
  have hmem : f ∈ [.hsiRdy, .hsi48Rdy, .pllRdy, .sysclkSws, FieldId.lsesysFlag] := by
    unfold envFields at h
    cases lsesysAliased B <;> simp at h ⊢ <;> tauto
  simp only [List.mem_cons, List.not_mem_nil, or_false] at hmem
  rcases hmem with rfl | rfl | rfl | rfl | rfl
  · exact ⟨.hsiRdy, rfl⟩
  · exact ⟨.hsi48Rdy, rfl⟩
  · exact ⟨.pllRdy, rfl⟩
  · exact ⟨.sysclkSws, rfl⟩
  · exact ⟨.lsesysFlag, rfl⟩

/-- A listed field's mask is part of the union at its address. -/
theorem mask_sub_maskAt (B : BindingData) {f : FieldId} {fs : List FieldId} (hf : f ∈ fs) {n : Nat}
    (hn : (descOf B f).mask.getLsbD n = true) : (maskAt B (descOf B f).addr fs).getLsbD n = true := by
  rw [getLsbD_maskAt, List.any_eq_true]
  exact ⟨f, hf, by simp [hn]⟩

/-! ### Applied writes by owner class -/

/-- The write leaves the field as it is: its owner is the environment, its domain is protected, or its configuration is
locked (R75, R76, R77). -/
def Guarded (B : BindingData) (e : Env) (p : PostedWrite) (f : FieldId) : Prop :=
  f ∈ envFields B ∨ (current B e .bkpWpdis = 0 ∧ backupDomain B f = true) ∨
    (f = .pllCfg ∧ pllCfgBroken B e.regs p = true)

theorem getLsbD_keptMask (B : BindingData) (e : Env) (p : PostedWrite) (n : Nat) :
    (keptMask B e p).getLsbD n = true ↔
      (maskAt B p.addr (envFields B)).getLsbD n = true ∨
      (current B e .bkpWpdis = 0 ∧ (maskAt B p.addr backupFields).getLsbD n = true) ∨
      (pllCfgBroken B e.regs p = true ∧ B.fields.pllCfg.mask.getLsbD n = true) := by
  simp only [keptMask, BitVec.getLsbD_or, Bool.or_eq_true, or_assoc]
  refine or_congr_right (or_congr ?_ ?_)
  · by_cases hc : current B e .bkpWpdis = 0
    · simp only [hc, if_true, true_and]
    · simp only [hc, if_false, false_and]; simp
  · cases pllCfgBroken B e.regs p <;> simp

/-- A bit that a write keeps lies under a guarded field at its address. -/
theorem guarded_of_kept {B : BindingData} {e : Env} {p : PostedWrite} {n : Nat}
    (h : (keptMask B e p).getLsbD n = true) :
    ∃ f, (descOf B f).addr = p.addr ∧ (descOf B f).mask.getLsbD n = true ∧ Guarded B e p f := by
  have hany : ∀ {fs : List FieldId}, (maskAt B p.addr fs).getLsbD n = true →
      ∃ f ∈ fs, (descOf B f).addr = p.addr ∧ (descOf B f).mask.getLsbD n = true := fun h => by
    rw [getLsbD_maskAt, List.any_eq_true] at h
    simpa using h
  rcases (getLsbD_keptMask B e p n).1 h with h | ⟨hc, h⟩ | ⟨hb, h⟩
  · obtain ⟨f, hf, ha, hm⟩ := hany h
    exact ⟨f, ha, hm, .inl hf⟩
  · obtain ⟨f, hf, ha, hm⟩ := hany h
    exact ⟨f, ha, hm, .inr (.inl ⟨hc, by simp [backupDomain, hf]⟩)⟩
  · have ha : p.addr = B.fields.pllCfg.addr := by
      simp only [pllCfgBroken, Bool.and_eq_true, decide_eq_true_eq] at hb
      exact hb.1.1
    exact ⟨.pllCfg, ha.symm, h, .inr (.inr ⟨rfl, hb⟩)⟩

/-- Every bit of a guarded field at the write's address is kept. -/
theorem kept_of_guarded {B : BindingData} {e : Env} {p : PostedWrite} {f : FieldId} (ha : (descOf B f).addr = p.addr)
    (hg : Guarded B e p f) {n : Nat} (hn : (descOf B f).mask.getLsbD n = true) : (keptMask B e p).getLsbD n = true := by
  rw [getLsbD_keptMask, ← ha]
  rcases hg with hf | ⟨hc, hd⟩ | ⟨rfl, hb⟩
  · exact .inl (mask_sub_maskAt B hf hn)
  · refine .inr (.inl ⟨hc, ?_⟩)
    simp only [backupDomain, Bool.or_eq_true, Bool.and_eq_true, decide_eq_true_eq] at hd
    rcases hd with hf | ⟨rfl, hal⟩
    · exact mask_sub_maskAt B hf hn
    · have hdesc : descOf B .lsesysFlag = descOf B .lsesysEn := of_decide_eq_true hal
      rw [hdesc] at hn ⊢
      exact mask_sub_maskAt B (by decide) hn
  · exact .inr (.inr ⟨hb, hn⟩)

/-- A field whose bits meet those of a guarded field at its address is guarded itself (R9 (g), R36). -/
theorem Guarded.of_meets {B : BindingData} (hB : B.wf = true) {e : Env} {p : PostedWrite} {f g : FieldId}
    (hg : Guarded B e p g) (ha : (descOf B f).addr = (descOf B g).addr) {n : Nat}
    (hf : (descOf B f).mask.getLsbD n = true) (hn : (descOf B g).mask.getLsbD n = true) : Guarded B e p f := by
  by_cases hfg : f = g
  · rw [hfg]; exact hg
  · cases hpair : mayAlias B f g with
    | false =>
      have hd := masks_disjoint hB hfg hpair ha
      have : ((descOf B f).mask &&& (descOf B g).mask).getLsbD n = true := by simp [hf, hn]
      rw [hd] at this; simp at this
    | true =>
      obtain ⟨hfg, hal⟩ := (mayAlias_iff B f g).1 hpair
      rcases hg with hm | ⟨hc, -⟩ | ⟨rfl, -⟩
      · rw [mayAlias_of_env hm] at hpair; cases hpair
      · refine .inr (.inl ⟨hc, ?_⟩)
        rcases hfg with ⟨rfl, -⟩ | ⟨rfl, -⟩ <;> simp [backupDomain, hal, backupFields]
      · rcases hfg with ⟨-, h⟩ | ⟨-, h⟩ <;> cases h

/-- A guarded field keeps its value when a write to its register is applied. -/
theorem fieldVal_applyWrite_guarded {B : BindingData} {e : Env} {p : PostedWrite} {f : FieldId}
    (ha : (descOf B f).addr = p.addr) (hg : Guarded B e p f) :
    fieldVal B (applyWrite B e p).regs f = fieldVal B e.regs f := by
  rw [applyWrite_regs, ← ha, fieldVal_writeWord_self, fieldVal, ha]
  refine fld_congr _ _ _ (storedWord_kept B e p _ (BitVec.eq_of_getLsbD_eq fun n hn => ?_))
  rw [BitVec.getLsbD_and, BitVec.getLsbD_not]
  cases hm : (descOf B f).mask.getLsbD n with
  | false => simp
  | true => simp [kept_of_guarded ha hg hm]

/-- A field that is not guarded takes the write's bits. -/
theorem fieldVal_applyWrite_open {B : BindingData} (hB : B.wf = true) {e : Env} {p : PostedWrite} {f : FieldId}
    (ha : (descOf B f).addr = p.addr) (hg : ¬ Guarded B e p f) :
    fieldVal B (applyWrite B e p).regs f = fld (descOf B f) p.data := by
  rw [applyWrite_regs, ← ha, fieldVal_writeWord_self]
  refine fld_congr _ _ _ (storedWord_written B e p _ (BitVec.eq_of_getLsbD_eq fun n hn => ?_))
  rw [BitVec.getLsbD_and]
  cases hm : (descOf B f).mask.getLsbD n with
  | false => simp
  | true =>
    cases hk : (keptMask B e p).getLsbD n with
    | false => simp
    | true =>
      obtain ⟨g, hga, hgm, hgg⟩ := guarded_of_kept hk
      exact absurd (hgg.of_meets hB (ha.trans hga.symm) hm hgm) hg

/-- A field at another register is as before. -/
theorem fieldVal_applyWrite_ne {B : BindingData} {e : Env} {p : PostedWrite} {f : FieldId}
    (h : (descOf B f).addr + 4 ≤ p.addr ∨ p.addr + 4 ≤ (descOf B f).addr) :
    fieldVal B (applyWrite B e p).regs f = fieldVal B e.regs f := by
  rw [applyWrite_regs, fieldVal_writeWord_ne B _ f _ _ h]

theorem not_inWord_iff (a x : Nat) : ¬ InWord a x ↔ x < a ∨ a + 4 ≤ x := by
  unfold InWord; omega

/-- Settles O24. -/
theorem appliedWriteByOwner : Obligations.AppliedWriteByOwner := by
  intro b e p
  refine ⟨fun f ha => ?field, fun n hn => ?bit, fun x hx => ?byte⟩
  case field =>
    split
    · next hg => exact fieldVal_applyWrite_guarded ha hg
    · next hg => exact fieldVal_applyWrite_open b.ok ha hg
  case bit =>
    have hfree : (keptMask b.data e p).getLsbD n = false := by
      rw [Bool.eq_false_iff]
      intro hk
      obtain ⟨f, ha, hm, -⟩ := guarded_of_kept hk
      rw [hn f ha] at hm; cases hm
    rw [applyWrite_regs, readWord_writeWord_self]
    simp only [storedWord, BitVec.getLsbD_or, BitVec.getLsbD_and, BitVec.getLsbD_not, hfree]
    by_cases h32 : n < 32
    · simp [h32]
    · simp [h32, BitVec.getLsbD_of_ge _ _ (Nat.not_lt.1 h32)]
  case byte => rw [applyWrite_regs]; exact readByte_writeWord_ne _ _ _ _ ((not_inWord_iff _ _).1 hx)

/-- F_PLL_CFG shows its register's bits under its mask (R9 (b), position 0). -/
theorem fld_pllCfg {B : BindingData} (hB : B.wf = true) (w : Word) :
    fld B.fields.pllCfg w = w &&& B.fields.pllCfg.mask := by
  rw [fld, (wf_pllCfg hB).2]
  exact BitVec.ushiftRight_zero _

/-- Two words differ under a mask exactly where their difference meets it. -/
theorem xor_and_eq_zero_iff (u v k : Word) : (u ^^^ v) &&& k = 0 ↔ u &&& k = v &&& k := by
  constructor <;> intro h <;> refine BitVec.eq_of_getLsbD_eq fun n _ => ?_ <;>
    have hn := congrArg (BitVec.getLsbD · n) h <;>
    simp only [BitVec.getLsbD_and, BitVec.getLsbD_xor, BitVec.ofNat_eq_ofNat, BitVec.getLsbD_zero] at hn ⊢ <;>
    revert hn <;> cases u.getLsbD n <;> cases v.getLsbD n <;> cases k.getLsbD n <;> simp

/-- The lock is broken where a write shows other configuration bits while the PLL counts as enabled (R76). -/
theorem pllCfgBroken_iff {B : BindingData} (hB : B.wf = true) (m : Memory) (p : PostedWrite) :
    pllCfgBroken B m p = true ↔
      p.addr = B.fields.pllCfg.addr ∧ fld B.fields.pllCfg p.data ≠ fieldVal B m .pllCfg ∧ pllEnabled B m = true := by
  simp only [pllCfgBroken, Bool.and_eq_true, decide_eq_true_eq, and_assoc]
  refine and_congr_right fun ha => and_congr_left' (not_congr ?_)
  rw [xor_and_eq_zero_iff, ha]
  show _ ↔ fld B.fields.pllCfg p.data = fld B.fields.pllCfg (readWord m B.fields.pllCfg.addr)
  rw [fld_pllCfg hB, fld_pllCfg hB]
  exact eq_comm

/-- Settles O25: with the PLL enabled the configuration is locked against other bits and rewritten by the same ones. -/
theorem pllConfigurationLock : Obligations.PllConfigurationLock := by
  intro b e p ha hpll
  have hon : pllEnabled b.data e.regs = true := by simpa [pllEnabled] using hpll
  have hbroken : pllCfgBroken b.data e.regs p = true ↔ fld b.data.fields.pllCfg p.data ≠ fieldVal b.data e.regs .pllCfg := by
    rw [pllCfgBroken_iff b.ok]; simp [ha, hon]
  refine ⟨?_, by rw [applyWrite_violPllCfg, Bool.or_eq_true, hbroken]⟩
  by_cases hg : Guarded b.data e p .pllCfg
  · exact fieldVal_applyWrite_guarded ha.symm hg
  · have hsame : fld b.data.fields.pllCfg p.data = fieldVal b.data e.regs .pllCfg := by
      by_contra h
      exact hg (.inr (.inr ⟨rfl, hbroken.2 h⟩))
    rw [fieldVal_applyWrite_open b.ok (f := .pllCfg) ha.symm hg]
    exact hsame

end Sys2Proof.Machine
end

section
/-! PROOFS. Status fields: what settles and what a read's countdowns do (20_memory R80), what an answer shows (R80 (f)), and
what a read and a drain leave unchanged (R62, R70). -/

namespace Sys2Proof.Machine

/-! ### Making a status field show a value -/

/-- The visible value kept for an echo field (R37). -/
def visible (e : Env) : StatusId → Word
  | .bkpWpdis => e.visBkpWpdis
  | .lseOn => e.visLseOn
  | _ => e.visLsesysFlag

/-- An echo field shows its visible value, as far as it holds it. -/
theorem current_of_echo {B : BindingData} {e : Env} {S : StatusId} (h : isEcho B S = true) :
    current B e S = cut (descOf B S.field) (visible e S) := by
  unfold current
  rw [if_pos h]
  cases S <;> rfl

/-- The fields that can be echo fields (R30, R36). -/
theorem echo_cases {B : BindingData} {S : StatusId} (h : isEcho B S = true) :
    S = .bkpWpdis ∨ S = .lseOn ∨ S = .lsesysFlag := by
  cases S <;> simp [isEcho] at h ⊢

/-- Showing a value leaves the visible values of the other echo fields. -/
theorem visible_setCurrent_ne {B : BindingData} (e : Env) {S R : StatusId} (v : Word) (h : R ≠ S)
    (hR : isEcho B R = true) : visible (setCurrent B e S v) R = visible e R := by
  unfold setCurrent
  cases hS : isEcho B S with
  | false => cases R <;> rfl
  | true =>
    rcases echo_cases hR with rfl | rfl | rfl <;> rcases echo_cases hS with rfl | rfl | rfl <;>
      first | rfl | exact absurd rfl h

section
variable {B : BindingData} (hB : B.wf = true)
include hB

/-- Making a status field show a value leaves every other field's stored bits. -/
theorem fieldVal_setCurrent_ne (e : Env) (S : StatusId) (v : Word) {f : FieldId} (hf : f ≠ S.field) :
    fieldVal B (setCurrent B e S v).regs f = fieldVal B e.regs f := by
  rw [setCurrent_regs]
  cases hecho : isEcho B S with
  | true => rfl
  | false =>
    simp only [Bool.false_eq_true, if_false]
    by_cases ha : (descOf B f).addr = (descOf B S.field).addr
    · have hd := masks_disjoint hB hf (mayAlias_of_env ((mem_envFields_iff B S).2 hecho)) ha
      rw [← ha, fieldVal_writeWord_self, fld_ins_disjoint _ _ _ _ hd, fieldVal]
    · exact fieldVal_writeWord_ne _ _ _ _ _ (aligned_apart (wf_addr hB _).1 (wf_addr hB _).1 (Ne.symm ha))

/-- Every block-owned field keeps its stored bits when a status field shows another value. -/
theorem fieldVal_setCurrent_owned (e : Env) (S : StatusId) (v : Word) {f : FieldId} (hf : f ∉ envFields B) :
    fieldVal B (setCurrent B e S v).regs f = fieldVal B e.regs f := by
  cases hecho : isEcho B S with
  | true => rw [setCurrent_regs, hecho]; rfl
  | false =>
    exact fieldVal_setCurrent_ne hB e S v fun h => hf (h ▸ (mem_envFields_iff B S).2 hecho)

/-- The other status fields show what they showed. -/
theorem current_setCurrent_ne (e : Env) {S R : StatusId} (v : Word) (h : R ≠ S) :
    current B (setCurrent B e S v) R = current B e R := by
  cases hR : isEcho B R with
  | false =>
    have hf : R.field ≠ S.field := fun hRS => h (by cases R <;> cases S <;> first | rfl | cases hRS)
    simp only [current, hR, Bool.false_eq_true, if_false]
    exact fieldVal_setCurrent_ne hB e S v hf
  | true => rw [current_of_echo hR, current_of_echo hR, visible_setCurrent_ne e v h hR]

omit hB in
/-- What a status field's driver asks for depends on the drivers' stored bits and the initial switch status only. -/
theorem target_congr {e e' : Env} (hinit : e'.swsInit = e.swsInit)
    (hf : ∀ f ∈ [.hsiOn, .hsi48On, .pllOn, .sysclkSw, .lsesysEn, .bkpWpdis, FieldId.lseOn],
      fieldVal B e'.regs f = fieldVal B e.regs f) (S : StatusId) : target B e' S = target B e S := by
  simp only [List.mem_cons, List.not_mem_nil, or_false, forall_eq_or_imp, forall_eq] at hf
  obtain ⟨h1, h2, h3, h4, h5, h6, h7⟩ := hf
  cases S <;> simp only [target, *]

omit hB in
theorem owned_of_driver {f : FieldId} (hf : f ∈ [.hsiOn, .hsi48On, .pllOn, .sysclkSw, .lsesysEn, .bkpWpdis, FieldId.lseOn]) :
    f ∉ envFields B := by
  simp only [List.mem_cons, List.not_mem_nil, or_false] at hf
  rcases hf with rfl | rfl | rfl | rfl | rfl | rfl | rfl <;> cases h : lsesysAliased B <;> simp [envFields, h]

/-- Showing a value moves no driver. -/
theorem target_setCurrent (e : Env) (S R : StatusId) (v : Word) :
    target B (setCurrent B e S v) R = target B e R :=
  target_congr (setCurrent_keeps B e S v).swsInit
    (fun _ hf => fieldVal_setCurrent_owned hB e S v (owned_of_driver hf)) R

/-! ### Settling, and a read's countdowns -/

omit hB in
theorem current_congr {e e' : Env} (hregs : e'.regs = e.regs) (h1 : e'.visBkpWpdis = e.visBkpWpdis)
    (h2 : e'.visLseOn = e.visLseOn) (h3 : e'.visLsesysFlag = e.visLsesysFlag) (S : StatusId) :
    current B e' S = current B e S := by
  unfold current; rw [hregs, h1, h2, h3]

omit hB in
theorem current_settle_eq (e : Env) (S R : StatusId) :
    current B (settle B S e) R = current B (setCurrent B e S (target B e S)) R :=
  current_congr rfl rfl rfl rfl R

theorem target_settle (e : Env) (S R : StatusId) : target B (settle B S e) R = target B e R :=
  target_setCurrent hB e S R (target B e S)

theorem current_settle_ne (e : Env) {S R : StatusId} (h : R ≠ S) : current B (settle B S e) R = current B e R :=
  (current_settle_eq e S R).trans (current_setCurrent_ne hB e _ h)

omit hB in
theorem current_settle_self (e : Env) (S : StatusId) :
    current B (settle B S e) S = cut (descOf B S.field) (target B e S) :=
  (current_settle_eq e S S).trans (current_setCurrent B e S _)

omit hB in
theorem settle_cnt (e : Env) (S R : StatusId) :
    (timerOf (settle B S e).timers R).cnt = if S = R then none else (timerOf e.timers R).cnt := by
  simp [settle]

/-- A read of an address leaves what another status field shows, asks for and counts. -/
theorem tickOne_ne (a : Nat) (e : Env) {S R : StatusId} (h : R ≠ S) :
    current B (tickOne B a e S) R = current B e R ∧
    (timerOf (tickOne B a e S).timers R).cnt = (timerOf e.timers R).cnt := by
  rcases tickOne_cases B a e S with h' | ⟨k, -, -, h'⟩ | ⟨-, -, h'⟩ <;> rw [h']
  · exact ⟨rfl, rfl⟩
  · exact ⟨rfl, by simp [h.symm]⟩
  · exact ⟨current_settle_ne hB e h, by rw [settle_cnt, if_neg h.symm]⟩

/-- A read moves no driver. -/
theorem target_tickOne (a : Nat) (e : Env) (S R : StatusId) : target B (tickOne B a e S) R = target B e R := by
  rcases tickOne_cases B a e S with h | ⟨k, -, -, h⟩ | ⟨-, -, h⟩ <;> rw [h]
  · rfl
  · exact target_settle hB e S R

/-- A read leaves every block-owned field's stored bits. -/
theorem fieldVal_tickOne (a : Nat) (e : Env) (S : StatusId) {f : FieldId} (hf : f ∉ envFields B) :
    fieldVal B (tickOne B a e S).regs f = fieldVal B e.regs f := by
  rcases tickOne_cases B a e S with h | ⟨k, -, -, h⟩ | ⟨-, -, h⟩ <;> rw [h]
  exact fieldVal_setCurrent_owned hB e S _ hf

theorem target_tick (a : Nat) (e : Env) (R : StatusId) : target B (tick B a e) R = target B e R :=
  foldl_same (target B · R) _ (fun e S => target_tickOne hB a e S R) _ e

theorem fieldVal_tick (a : Nat) (e : Env) {f : FieldId} (hf : f ∉ envFields B) :
    fieldVal B (tick B a e).regs f = fieldVal B e.regs f :=
  foldl_same (fun e => fieldVal B e.regs f) _ (fun e S => fieldVal_tickOne hB a e S hf) _ e

omit hB in
/-- A fold over the status fields does to one of them what its own step does, where the other steps leave it. -/
theorem foldl_status {β : Type} (step : Env → StatusId → Env) (S : StatusId) (obs : Env → β) (I : Env → Prop)
    (own : β → β) (hother : ∀ e R, R ≠ S → I e → I (step e R) ∧ obs (step e R) = obs e)
    (hown : ∀ e, I e → I (step e S) ∧ obs (step e S) = own (obs e)) (e : Env) (he : I e) :
    obs (StatusId.all.foldl step e) = own (obs e) := by
  have hrest : ∀ (l : List StatusId) (e : Env), S ∉ l → I e → I (l.foldl step e) ∧ obs (l.foldl step e) = obs e := by
    intro l
    induction l with
    | nil => exact fun e _ he => ⟨he, rfl⟩
    | cons R l ih =>
      intro e hS he
      simp only [List.mem_cons, not_or] at hS
      obtain ⟨h1, h2⟩ := hother e R (Ne.symm hS.1) he
      obtain ⟨h3, h4⟩ := ih (step e R) hS.2 h1
      exact ⟨h3, h4.trans h2⟩
  obtain ⟨l₁, l₂, hall⟩ := List.append_of_mem (StatusId.mem_all S)
  have hnodup : (l₁ ++ S :: l₂).Nodup := by rw [← hall]; decide
  rw [List.nodup_append] at hnodup
  obtain ⟨-, h₂, h₁⟩ := hnodup
  rw [hall, List.foldl_append, List.foldl_cons]
  obtain ⟨hI, hobs⟩ := hrest l₁ e (fun h => h₁ S h S (by simp) rfl) he
  obtain ⟨hI', hobs'⟩ := hown _ hI
  rw [(hrest l₂ _ (List.nodup_cons.1 h₂).1 hI').2, hobs', hobs]

/-- What a read of its address does to a status field's countdown and to the value shown (R80 (e)); `t` is what its driver
asks for, as far as the field holds it. -/
def afterRead (t : Word) (p : Word × Option Nat) : Word × Option Nat :=
  match p.2 with
  | none => p
  | some 0 => (t, none)
  | some (k + 1) => (p.1, some k)

theorem tick_status (a : Nat) (e : Env) (S : StatusId) (ha : (descOf B S.field).addr = a) :
    (current B (tick B a e) S, (timerOf (tick B a e).timers S).cnt) =
      afterRead (cut (descOf B S.field) (target B e S)) (current B e S, (timerOf e.timers S).cnt) := by
  refine foldl_status (tickOne B a) S (fun e => (current B e S, (timerOf e.timers S).cnt))
    (fun e' => target B e' S = target B e S) _ (fun e' R hR hI => ?_) (fun e' hI => ?_) e rfl
  · obtain ⟨h1, h2⟩ := tickOne_ne hB a e' hR.symm
    exact ⟨(target_tickOne hB a e' R S).trans hI, by rw [h1, h2]⟩
  · refine ⟨(target_tickOne hB a e' S S).trans hI, ?_⟩
    unfold tickOne afterRead
    rw [if_pos ha]
    cases hc : (timerOf e'.timers S).cnt with
    | none => simp [hc]
    | some k =>
      cases k with
      | zero => simp [current_settle_self, settle_cnt, hI]
      | succ k => simp; rfl

theorem tick_status_ne (a : Nat) (e : Env) (S : StatusId) (ha : (descOf B S.field).addr ≠ a) :
    (current B (tick B a e) S, (timerOf (tick B a e).timers S).cnt) = (current B e S, (timerOf e.timers S).cnt) := by
  refine foldl_status (tickOne B a) S (fun e => (current B e S, (timerOf e.timers S).cnt)) (fun _ => True) id
    (fun e' R hR _ => ⟨trivial, ?_⟩) (fun e' _ => ⟨trivial, ?_⟩) e trivial
  · obtain ⟨h1, h2⟩ := tickOne_ne hB a e' hR.symm
    rw [h1, h2]
  · rw [tickOne, if_neg ha]; rfl

end

/-! ### Countdowns -/

/-- Reading an address with nothing posted counts down, and drains nothing. -/
theorem serveRead_of_empty (B : BindingData) (a : Nat) (e : Env) (h : e.posted = []) :
    serveRead B a e = tick B a (notePwr B a e) := by
  rw [serveRead, drain_of_empty B a e h]

/-- `j` reads of a status field's address with nothing posted (R80 (e)). -/
theorem serveRead_iterate {b : Binding} {e : Env} {S : StatusId} {k : Nat} (hp : e.posted = [])
    (hc : (timerOf e.timers S).cnt = some k) (j : Nat) (hj : j ≤ k) :
    let e' := (serveRead b.data (descOf b.data S.field).addr)^[j] e
    e'.posted = [] ∧ current b.data e' S = current b.data e S ∧ target b.data e' S = target b.data e S ∧
      (timerOf e'.timers S).cnt = some (k - j) := by
  induction j with
  | zero => exact ⟨hp, rfl, rfl, hc⟩
  | succ j ih =>
    obtain ⟨hp', hcur, htar, hcnt⟩ := ih (by omega)
    rw [Function.iterate_succ_apply']
    generalize (serveRead b.data (descOf b.data S.field).addr)^[j] e = e₁ at *
    dsimp only
    have htick := tick_status b.ok _ (notePwr b.data (descOf b.data S.field).addr e₁) S rfl
    have hk : (timerOf e₁.timers S).cnt = some (k - (j + 1) + 1) := by rw [hcnt]; congr 1; omega
    rw [notePwr_timers, hk] at htick
    obtain ⟨h1, h2⟩ := Prod.mk.inj htick
    rw [serveRead_of_empty _ _ _ hp']
    exact ⟨by simp [hp'], h1.trans hcur, (target_tick b.ok _ _ S).trans htar, h2⟩

/-- Settles O27: the countdown goes down once per read, and the read that finds it at 0 settles the field. -/
theorem countdownCountsReads : Obligations.CountdownCountsReads := by
  intro b e S k hp hc hfits
  refine ⟨fun j hj => (serveRead_iterate hp hc j hj).2.1, ?_⟩
  obtain ⟨hp', -, htar, hcnt⟩ := serveRead_iterate (b := b) hp hc k le_rfl
  rw [Function.iterate_succ_apply']
  generalize (serveRead b.data (descOf b.data S.field).addr)^[k] e = e₁ at *
  have htick := tick_status b.ok _ (notePwr b.data (descOf b.data S.field).addr e₁) S rfl
  rw [notePwr_timers, hcnt, Nat.sub_self] at htick
  rw [serveRead_of_empty _ _ _ hp']
  refine (Prod.mk.inj htick).1.trans ((congrArg _ ?_).trans (cut_of_fits _ _ hfits))
  exact htar

/-- Starting countdowns touches a status field's countdown alone, and only where the write moved its target (R80 (d)). -/
theorem startCountdowns_cnt (B : BindingData) (before after : Env) (S : StatusId) :
    (timerOf (startCountdowns B before after).timers S).cnt =
      if target B after S ≠ target B before S ∧ target B after S ≠ current B after S then (timerOf after.timers S).lat
      else (timerOf after.timers S).cnt := by
  have hstep : ∀ e R, ∃ t : Timers, startOne B before e R = { e with timers := t } :=
    fun e R => (startOne_timersOnly B before e R).imp fun _ h => h.2
  have hfold := foldl_status (startOne B before) S (fun e => (timerOf e.timers S).cnt)
    (fun e => (timerOf e.timers S).lat = (timerOf after.timers S).lat ∧ ∃ t : Timers, e = { after with timers := t })
    (fun c => if target B after S ≠ target B before S ∧ target B after S ≠ current B after S then
      (timerOf after.timers S).lat else c)
  refine hfold ?other ?own after ⟨rfl, after.timers, rfl⟩
  case other =>
    rintro e R hR ⟨hlat, t, rfl⟩
    unfold startOne
    split
    · refine ⟨⟨?_, _, rfl⟩, ?_⟩
      · simpa using hlat
      · simp [hR]
    · exact ⟨⟨hlat, t, rfl⟩, rfl⟩
  case own =>
    rintro e ⟨hlat, t, rfl⟩
    have htar : target B { after with timers := t } S = target B after S := rfl
    have hcur : current B { after with timers := t } S = current B after S := rfl
    unfold startOne
    rw [htar, hcur]
    split
    · exact ⟨⟨by simpa using hlat, _, rfl⟩, by simpa using hlat⟩
    · exact ⟨⟨hlat, t, rfl⟩, rfl⟩

/-- The environment around an applied write before its countdowns start: the word is stored (R77). -/
def storedEnv (B : BindingData) (e : Env) (p : PostedWrite) : Env :=
  { notePwr B p.addr e with
    regs := writeWord e.regs p.addr (storedWord B e p)
    violPllCfg := e.violPllCfg || pllCfgBroken B e.regs p }

theorem applyWrite_eq_storedEnv (B : BindingData) (e : Env) (p : PostedWrite) :
    applyWrite B e p = noteClocks B (startCountdowns B e (storedEnv B e p)) := rfl

/-- What a status field is asked for and shows after a write is decided by the stored word, not by the countdowns. -/
theorem status_applyWrite (B : BindingData) (e : Env) (p : PostedWrite) (S : StatusId) :
    target B (applyWrite B e p) S = target B (storedEnv B e p) S ∧
    current B (applyWrite B e p) S = current B (storedEnv B e p) S := by
  obtain ⟨t, -, ht⟩ := startCountdowns_timersOnly B e (storedEnv B e p)
  rw [applyWrite_eq_storedEnv, ht]
  exact ⟨rfl, rfl⟩

/-- Settles O28. -/
theorem driverWriteStartsTheCountdown : Obligations.DriverWriteStartsTheCountdown := by
  intro B e p S e'
  obtain ⟨htar, hcur⟩ := status_applyWrite B e p S
  rw [htar, hcur]
  exact startCountdowns_cnt B e (storedEnv B e p) S

end Sys2Proof.Machine
end

section
/-! PROOFS. What a read answers and leaves unchanged, what a SETF's write half stores, and when the violation flags are set
(20_memory R62, R63, R70, R72, R80 (f), R81). -/

namespace Sys2Proof.Machine

/-! ### Answers -/

/-- Overlays of fields disjoint from a descriptor's leave its bits. -/
theorem fld_overlays {B : BindingData} (e : Env) (a : Nat) (D : Descriptor) (l : List StatusId)
    (h : ∀ S ∈ l, isEcho B S = true → (descOf B S.field).addr = a → D.mask &&& (descOf B S.field).mask = 0) (w : Word) :
    fld D (l.foldl (overlay B e a) w) = fld D w := by
  induction l generalizing w with
  | nil => rfl
  | cons S l ih =>
    rw [List.foldl_cons, ih fun R hR => h R (by simp [hR])]
    unfold overlay
    split
    · next hS => exact fld_ins_disjoint _ _ _ _ (h S (by simp) hS.1 hS.2)
    · rfl

/-- Different status fields are no pair of R36. -/
theorem mayAlias_status (B : BindingData) (S R : StatusId) : mayAlias B S.field R.field = false := by
  rw [Bool.eq_false_iff]
  intro h
  obtain ⟨⟨-, h⟩ | ⟨h, -⟩, -⟩ := (mayAlias_iff B _ _).1 h
  · cases R <;> cases h
  · cases S <;> cases h

theorem StatusId.field_injective {S R : StatusId} (h : S.field = R.field) : S = R := by
  cases S <;> cases R <;> first | rfl | cases h

/-- An echo field's address answers with its visible value (R80 (f)). -/
theorem fld_answer_echo {B : BindingData} (hB : B.wf = true) (e : Env) {S : StatusId} (hS : isEcho B S = true) :
    fld (descOf B S.field) (answer B e (descOf B S.field).addr) = current B e S := by
  obtain ⟨l₁, l₂, hall⟩ := List.append_of_mem (StatusId.mem_all S)
  have hnodup : (l₁ ++ S :: l₂).Nodup := by rw [← hall]; decide
  have hS₂ : S ∉ l₂ := (List.nodup_cons.1 (List.nodup_append.1 hnodup).2.1).1
  rw [answer, hall, List.foldl_append, List.foldl_cons, fld_overlays, overlay, if_pos ⟨hS, rfl⟩, fld_ins,
    current_of_echo hS, cut_cut]
  intro R hR _ ha
  exact masks_disjoint hB (fun h => hS₂ (StatusId.field_injective h ▸ hR)) (mayAlias_status B S R) ha.symm

/-- A field that is no echo field's descriptor answers with its stored value (R80 (f)). -/
theorem fld_answer_stored {B : BindingData} (hB : B.wf = true) (e : Env) {f : FieldId}
    (hf : ∀ S, isEcho B S = true → descOf B S.field ≠ descOf B f) :
    fld (descOf B f) (answer B e (descOf B f).addr) = fieldVal B e.regs f := by
  refine fld_overlays e _ _ _ (fun S _ hS ha => ?_) _
  refine (wf_disjoint hB f S.field (fun h => hf S hS (by rw [h])) ha.symm).resolve_right fun hpair => ?_
  obtain ⟨hfg, hal⟩ := (mayAlias_iff B _ _).1 hpair
  have hdesc : descOf B .lsesysFlag = descOf B .lsesysEn := of_decide_eq_true hal
  rcases hfg with ⟨rfl, h⟩ | ⟨rfl, h⟩
  · exact hf S hS (by rw [h, hdesc])
  · exact hf S hS (by rw [h, hdesc])

/-- Settles O26. -/
theorem answerShowsVisibleValues : Obligations.AnswerShowsVisibleValues :=
  fun b e => ⟨fun _ hS => fld_answer_echo b.ok e hS, fun _ hf => fld_answer_stored b.ok e hf⟩

/-! ### Reads -/

/-- A read whose countdowns all run stores nothing. -/
theorem tick_regs (B : BindingData) (a : Nat) (e : Env)
    (h : ∀ S, (descOf B S.field).addr = a → (timerOf e.timers S).cnt ≠ some 0) : (tick B a e).regs = e.regs := by
  have hfold : ∀ (l : List StatusId) (e : Env), l.Nodup →
      (∀ S ∈ l, (descOf B S.field).addr = a → (timerOf e.timers S).cnt ≠ some 0) →
      (l.foldl (tickOne B a) e).regs = e.regs := by
    intro l
    induction l with
    | nil => exact fun _ _ _ => rfl
    | cons S l ih =>
      intro e hn hl
      obtain ⟨hS, hn⟩ := List.nodup_cons.1 hn
      rw [List.foldl_cons]
      rcases tickOne_cases B a e S with h' | ⟨k, -, -, h'⟩ | ⟨ha, h0, -⟩
      · rw [h']; exact ih e hn fun R hR => hl R (by simp [hR])
      · rw [h']
        refine ih { e with timers := setCnt e.timers S (some k) } hn fun R hR ha => ?_
        have hRS : S ≠ R := fun h => hS (h ▸ hR)
        simpa [hRS] using hl R (by simp [hR]) ha
      · exact absurd h0 (hl S (by simp) ha)
  exact hfold _ e (by decide) fun S _ => h S

/-- With nothing posted in its scope a read drains nothing. -/
theorem drain_of_none_in_scope (B : BindingData) (a : Nat) (e : Env) (h : ∀ p ∈ e.posted, inScope B a p = false) :
    drain B a e = e := by
  have hscope : e.posted.filter (inScope B a) = [] := List.filter_eq_nil_iff.2 fun p hp => by simp [h p hp]
  have hrest : (e.posted.filter fun p => !inScope B a p) = e.posted := List.filter_eq_self.2 fun p hp => by simp [h p hp]
  rw [drain, hscope, hrest]
  rfl

/-- Settles O23: after the drain only the countdowns of the word read are left to act. -/
theorem readDrainsItsScope : Obligations.ReadDrainsItsScope := by
  intro a s scope rest d t
  have hd : d = drain s.bind a s.env := rfl
  refine ⟨serveRead_posted s.bind a s.env, fun x hx => ?_, fun h => ?_, rfl, rfl⟩
  · exact tick_readByte s.bind a (notePwr s.bind a d) x ((not_inWord_iff a x).1 hx)
  · exact tick_regs s.bind a (notePwr s.bind a d) h

/-- Settles O30. -/
theorem readTouchesOnlyDrainedAndStatusWords : Obligations.ReadTouchesOnlyDrainedAndStatusWords := by
  intro a s
  refine ⟨fun x hx hp => ?_, fun hcnt hp => ?_⟩
  · exact serveRead_readByte s.bind a s.env x ((not_inWord_iff a x).1 hx) fun p hm hs =>
      (not_inWord_iff p.addr x).1 (hp p hm hs)
  · rw [memRead_env, serveRead, drain_of_none_in_scope _ _ _ hp]
    exact tick_regs s.bind a (notePwr s.bind a s.env) hcnt

/-! ### Posted writes -/

/-- Settles O29. -/
theorem oldestOfAClassIsAppliedFirst : Obligations.OldestOfAClassIsAppliedFirst := by
  intro B c e older younger p hposted holder hp
  have hfind : e.posted.find? (inClass B c) = some p := by
    rw [hposted, List.find?_append, List.find?_eq_none.2 fun q hq => by simp [holder q hq]]
    simp [hp]
  have herase : e.posted.eraseP (inClass B c) = older ++ younger := by
    rw [hposted, List.eraseP_append_right _ fun q hq => by simp [holder q hq], List.eraseP_cons_of_pos hp]
  rw [applyOldest, hfind, herase]

/-- A write is in the scope of its own address (R70). -/
theorem inScope_self (B : BindingData) (p : PostedWrite) : inScope B p.addr p = true := by
  unfold inScope; split <;> simp

/-- Draining the scope of a write that has just been posted applies it last. -/
theorem drain_append_self (B : BindingData) (e : Env) (p : PostedWrite) :
    drain B p.addr { e with posted := e.posted ++ [p] } = applyWrite B (drain B p.addr e) p := by
  have hscope : (e.posted ++ [p]).filter (inScope B p.addr) = e.posted.filter (inScope B p.addr) ++ [p] := by
    rw [List.filter_append]; simp [inScope_self]
  have hrest : ((e.posted ++ [p]).filter fun q => !inScope B p.addr q) =
      e.posted.filter fun q => !inScope B p.addr q := by
    rw [List.filter_append]; simp [inScope_self]
  unfold drain
  dsimp only
  rw [hscope, hrest, List.foldl_append]
  rfl

/-- A posting environment keeps the write for later (R69). -/
theorem acceptWrite_posting (B : BindingData) (p : PostedWrite) {e : Env} (h : e.posting = true) :
    acceptWrite B p e = { e with posted := e.posted ++ [p] } := by
  simp [acceptWrite, h]

/-- An environment that does not post applies the write at once (R80 (a)). -/
theorem acceptWrite_immediate (B : BindingData) (p : PostedWrite) {e : Env} (h : e.posting = false) :
    acceptWrite B p e = applyWrite B (drain B p.addr e) p := by
  rw [← drain_append_self]
  simp [acceptWrite, h]

theorem finishOf_env (i : Instr) (s : State) : (finishOf i s).env = s.env := by cases i <;> rfl

theorem finishOf_binding (i : Instr) (s : State) : (finishOf i s).binding = s.binding := by cases i <;> rfl

/-- What the write half of a SETF does to the environment (R63, R98). -/
theorem setfWrite_env (F : Descriptor) (v : Word) (n : Code) (i : Instr) (s : State) :
    (setfWrite F v n (finishOf i) s).env = acceptWrite s.bind ⟨F.addr, ins F s.T v⟩ s.env := by
  rw [setfWrite, finishOf_env]; rfl

theorem setfWrite_binding (F : Descriptor) (v : Word) (n : Code) (i : Instr) (s : State) :
    (setfWrite F v n (finishOf i) s).binding = s.binding := by
  rw [setfWrite, finishOf_binding]; rfl

/-- Settles O31. -/
theorem setfStoresOnlyItsWord : Obligations.SetfStoresOnlyItsWord := by
  intro i F V next s t hi hack hph ht
  rw [exec_eq, moveOf_writes hi hack hph] at ht
  cases ht
  rw [setfWrite_env]
  refine ⟨fun hpost => ?_, fun hpost hempty => ?_⟩
  · rw [acceptWrite_posting _ _ hpost]; exact ⟨rfl, rfl⟩
  · rw [acceptWrite_immediate _ _ hpost, drain_of_empty _ _ _ hempty]
    refine ⟨by rw [applyWrite_posted, hempty], fun x hx => ?_⟩
    rw [applyWrite_regs]
    exact readByte_writeWord_ne _ _ _ _ ((not_inWord_iff _ _).1 hx)

/-- The fields that SETF rows write are the block's (R37). -/
theorem owned_of_setf {B : BindingData} {i : Instr} {f : FieldId} {V : ValSel} {n : Code}
    (hi : i.form = .setf (.field f) V n) : f ∉ envFields B := by
  intro hf
  obtain ⟨S, rfl⟩ := status_of_mem_envFields hf
  cases S <;> cases i <;> first | (cases hi; done) | simp [envFields, StatusId.field] at hf

/-- Settles O32: the field is not guarded, so it takes the inserted value, which fits (R9 (c)). -/
theorem setfLeavesItsValue : Obligations.SetfLeavesItsValue := by
  intro i f V next s hi hack hph hpost hempty hbackup hlock
  refine ⟨_, (exec_eq i s).trans (congrArg _ (moveOf_writes hi hack hph)), ?_⟩
  have hg : ¬ Guarded s.bind s.env ⟨(descOf s.bind f).addr, ins (descOf s.bind f) s.T (valOf s.bind V)⟩ f := by
    rintro (hf | ⟨hc, hd⟩ | ⟨hf, hb⟩)
    · exact owned_of_setf hi hf
    · exact hbackup hd hc
    · rw [pllCfgBroken, hlock hf, Bool.and_false] at hb; cases hb
  rw [setfWrite_env, acceptWrite_immediate _ _ hpost, drain_of_empty _ _ _ hempty, State.bind, setfWrite_binding]
  rw [show (resolve s (.field f)) = descOf s.bind f from rfl, fieldVal_applyWrite_open s.binding.ok rfl hg]
  exact fld_ins_same _ _ _ (wf_fits s.binding.ok hi)

/-! ### The read-back -/

/-- A write to an unguarded field has taken effect once a read of its register is answered, whatever was posted before
(R70 (a), R72). -/
theorem fieldVal_readBack {B : BindingData} (hB : B.wf = true) (e : Env) {f : FieldId} {w : Word}
    (hg : ∀ e', ¬ Guarded B e' ⟨(descOf B f).addr, w⟩ f) :
    fieldVal B (serveRead B (descOf B f).addr (acceptWrite B ⟨(descOf B f).addr, w⟩ e)).regs f = fld (descOf B f) w := by
  have hf : f ∉ envFields B := fun h => hg e (.inl h)
  have hdrained : ∃ d, drain B (descOf B f).addr (acceptWrite B ⟨(descOf B f).addr, w⟩ e) =
      applyWrite B d ⟨(descOf B f).addr, w⟩ := by
    cases hpost : e.posting with
    | true =>
      rw [acceptWrite_posting _ _ hpost]
      exact ⟨_, drain_append_self B e ⟨_, w⟩⟩
    | false =>
      rw [acceptWrite_immediate _ _ hpost]
      refine ⟨_, drain_of_none_in_scope _ _ _ fun p hp => ?_⟩
      rw [applyWrite_posted, drain_posted, List.mem_filter] at hp
      simpa using hp.2
  obtain ⟨d, hd⟩ := hdrained
  rw [serveRead, fieldVal_tick hB _ _ hf, notePwr_regs, hd]
  exact fieldVal_applyWrite_open hB rfl (hg d)

/-- A step's write followed by its read-back leaves the value in the register and in the latch. -/
theorem readBack_sees {i j : Instr} {f : FieldId} {V : ValSel} {n m : Code} (hi : i.form = .setf (.field f) V n)
    (hj : j.form = .rdbk (.field f) m) (hfin : finishOf i = id) (s : State) (hack : s.ports.busAck = true)
    (hph : s.PH = true) (hplain : f ∉ backupFields ∧ f ≠ .lsesysFlag ∧ f ≠ .pllCfg)
    (hecho : ∀ S, isEcho s.bind S = true → S.field ≠ f) :
    ∃ t u, exec i s = .next t ∧ exec j t = .next u ∧ fieldVal u.bind u.env.regs f = valOf u.bind V ∧
      fld (descOf u.bind f) u.T = valOf u.bind V := by
  obtain ⟨hback, hflag, hcfg⟩ := hplain
  have hg : ∀ e' w, ¬ Guarded s.bind e' ⟨(descOf s.bind f).addr, w⟩ f := by
    rintro e' w (hf | ⟨-, hd⟩ | ⟨hf, -⟩)
    · exact owned_of_setf hi hf
    · simp [backupDomain, hback, hflag] at hd
    · exact hcfg hf
  have hwrite := moveOf_writes hi hack hph
  rw [hfin] at hwrite
  have hval := fun w => fieldVal_readBack s.binding.ok s.env (hg · w)
  have hdesc : ∀ S, isEcho s.bind S = true → descOf s.bind S.field ≠ descOf s.bind f := fun S hS => by
    refine descOf_ne s.binding.ok (hecho S hS) ?_
    rw [Bool.eq_false_iff]
    intro hpair
    obtain ⟨⟨-, rfl⟩ | ⟨-, h⟩, -⟩ := (mayAlias_iff _ _ _).1 hpair
    · exact absurd (by decide) hback
    · exact hflag h
  have hread : ∀ t : State, t.ports.busAck = true → exec j t = .next (goto m (memRead (resolve t (.field f)).addr t)) :=
    fun t ht => by rw [exec_eq]; simp only [moveOf, hj]; exact congrArg _ (rdbk_acked _ _ ht)
  refine ⟨_, _, (exec_eq i s).trans (congrArg _ hwrite), hread _ hack, ?_, ?_⟩
  · exact (hval _).trans (fld_ins_same _ _ _ (wf_fits s.binding.ok hi))
  · exact (fld_answer_stored s.binding.ok _ hdesc).trans ((hval _).trans (fld_ins_same _ _ _ (wf_fits s.binding.ok hi)))

/-- Settles O33. -/
theorem readBackSeesTheWrite : Obligations.ReadBackSeesTheWrite := by
  intro s hack hph
  refine ⟨?_, ?_⟩
  · exact readBack_sees (i := .s1a) (j := .s1b) rfl rfl rfl s hack hph (by decide) fun S _ h => by cases S <;> cases h
  · exact readBack_sees (i := .s2a) (j := .s2b) rfl rfl rfl s hack hph (by decide) fun S _ h => by cases S <;> cases h

/-! ### The violation flags -/

theorem wsBroken_iff (B : BindingData) (m : Memory) : wsBroken B m = true ↔ ¬ InvWs B m := by
  simp [wsBroken, InvWs]

theorem fmaxBroken_iff (B : BindingData) (m : Memory) : fmaxBroken B m = true ↔ ¬ InvFmax B m := by
  simp only [fmaxBroken, InvFmax, Bool.or_eq_true, decide_eq_true_eq, not_and_or, not_le, or_assoc]

theorem notePwr_violPwrclk (B : BindingData) (a : Nat) (e : Env) :
    (notePwr B a e).violPwrclk = true ↔
      e.violPwrclk = true ∨ (blockOf B a = .pwr ∧ fieldVal B e.regs .pwrclkEn = 0) := by
  simp [notePwr]

theorem noteClocks_iff (B : BindingData) (e : Env) {ws fmax : Bool} (hws : e.violWs = ws) (hfmax : e.violFmax = fmax) :
    ((noteClocks B e).violWs = true ↔ ws = true ∨ ¬ InvWs B e.regs) ∧
    ((noteClocks B e).violFmax = true ↔ fmax = true ∨ ¬ InvFmax B e.regs) := by
  rw [noteClocks_violWs, noteClocks_violFmax, Bool.or_eq_true, Bool.or_eq_true, wsBroken_iff, fmaxBroken_iff, hws, hfmax]
  exact ⟨Iff.rfl, Iff.rfl⟩

/-- Showing a value raises no flag by itself. -/
theorem setCurrent_flags (B : BindingData) (e : Env) (S : StatusId) (v : Word) :
    (setCurrent B e S v).violWs = e.violWs ∧ (setCurrent B e S v).violFmax = e.violFmax := by
  unfold setCurrent; split
  · cases S <;> exact ⟨rfl, rfl⟩
  · exact ⟨rfl, rfl⟩

/-- Settles O58. -/
theorem violationFlagsAreRaised : Obligations.ViolationFlagsAreRaised := by
  intro B e
  refine ⟨fun a => ?reads, fun p => ?writes, fun S a v c hc => ?changes⟩
  case reads =>
    intro d
    have hread : (serveRead B a e).violPwrclk = true ↔
        d.violPwrclk = true ∨ (blockOf B a = .pwr ∧ fieldVal B d.regs .pwrclkEn = 0) := by
      rw [serveRead, tick_violPwrclk, notePwr_violPwrclk]
    refine ⟨hread, fun hempty => ?_, by rw [serveRead, tick_violPllCfg, notePwr_violPllCfg]⟩
    rw [hread, show d = e from drain_of_empty B a e hempty]
  case writes =>
    intro w
    refine ⟨by simp [w], ?_, ?_, ?_⟩
    · rw [applyWrite_violPllCfg, Bool.or_eq_true]
      refine or_congr_right ?_
      simp only [pllCfgBroken, Bool.and_eq_true, decide_eq_true_eq, and_assoc, ne_eq, xor_and_eq_zero_iff, pllEnabled,
        Bool.or_eq_true]
      rw [eq_comm (a := p.data &&& _)]
    · rw [applyWrite_violWs, Bool.or_eq_true, wsBroken_iff]
    · rw [applyWrite_violFmax, Bool.or_eq_true, fmaxBroken_iff]
  case changes =>
    simp only [List.mem_cons, List.not_mem_nil, or_false] at hc
    rcases hc with rfl | rfl | rfl
    · obtain ⟨hws, hfmax⟩ := setCurrent_flags B e S (target B e S)
      have h := noteClocks_iff B { setCurrent B e S (target B e S) with
          timers := setCnt (setCurrent B e S (target B e S)).timers S none } hws hfmax
      exact ⟨h.1, h.2, settle_violPwrclk B S e, settle_violPllCfg B S e⟩
    · obtain ⟨hws, hfmax⟩ := setCurrent_flags B e S v
      have h := noteClocks_iff B (setCurrent B e S v) hws hfmax
      exact ⟨h.1, h.2, setCurrent_violPwrclk B e S v, setCurrent_violPllCfg B e S v⟩
    · have h := noteClocks_iff B { e with regs := writeWord e.regs a v } rfl rfl
      exact ⟨h.1, h.2, rfl, rfl⟩

/-! ### Clocks -/

/-- Settles O56. -/
theorem clockBoundsAreExactOutsideTheSwitch : Obligations.ClockBoundsAreExactOutsideTheSwitch := by
  intro B m h
  have hsys : fSysclkUb B m = fSysclk B m := by
    unfold fSysclkUb fSysclk
    rcases h with h | h <;> simp [h]
  have hh : fHclkUb B m = fHclk B m := by rw [fHclkUb, fHclk, hsys]
  exact ⟨hsys, hh, by rw [fPclk1Ub, fPclk1, hh], by rw [fPclk2Ub, fPclk2, hh]⟩

/-- Settles O55: the switch is reported, the PLL runs at its configuration, and the AHB divides by 1 (R9 (e)). -/
theorem doneClocksAreOnTarget : Obligations.DoneClocksAreOnTarget := by
  intro b e h
  have hsys : fSysclk b.data e.regs = fPll b.data b.data.vPllCfg := by
    have hrep : switchReported b.data e.regs = true := decide_eq_true h.sysclkSws
    rw [fSysclk, if_pos hrep, pllCfgWord, h.pllCfg]
  have hh : fHclk b.data e.regs = fPll b.data b.data.vPllCfg := by
    rw [fHclk, hsys, ahbRatio, h.ahbPre, wf_ahbFinal b.ok, Nat.cast_one, div_one]
  refine ⟨hsys, hh, by rw [fPclk1, hh, apb1Ratio, h.apb1Pre], by rw [fPclk2, hh, apb2Ratio, h.apb2Pre], fun hws => ?_⟩
  rw [h.flashWs, hsys]; exact hws

end Sys2Proof.Machine
end

section
/-! PROOFS. PRG-5 of 95_test_vectors: with DRAIN_SCOPE = TARGET the wait-states can be too few (70_reset_and_hazards R243). -/

namespace Sys2Proof.Machine

/-- TESTBIND with the drain scope TARGET. -/
def targetBinding : Binding := { data := { testbind with drainScope := .target }, ok := by decide +kernel }

/-- A status field that follows its driver at the next read (R80). -/
def promptTimer : Timer := { lat := some 0, cnt := none }

/-- The start registers of PRG-1 and PRG-5, in an environment that posts and whose status fields follow at once. -/
def litmusEnv : Env :=
  { Env.atReset with
    regs := writeWord (writeWord (writeWord (writeWord (writeWord [] 0x04 0x2C00) 0x08 0x40001000) 0x10 0x18) 0x40 0x400)
      0x80 0x100
    timers := ⟨promptTimer, promptTimer, promptTimer, promptTimer, promptTimer, promptTimer, promptTimer⟩ }

/-- The block just reset beside that environment, told to start. -/
def litmusStart : State :=
  { State.resetWith targetBinding litmusEnv with ports := { Ports.idle with start := true } }

theorem litmus_bootOk : BootOk litmusStart := by constructor <;> decide +kernel

theorem litmus_envStarts : EnvStarts litmusStart.bind litmusStart.env where
  swsInit := by decide +kernel
  echoShown := by intro S; cases S <;> decide +kernel
  still := by intro S; cases S <;> rfl
  noPllCfg := rfl
  noWs := rfl
  noFmax := rfl
  noPwrclk := rfl

theorem litmus_gateBitsApart : GateBitsApart litmusStart.bind := by
  have hall : ∀ g ∈ testbind.gateTable, ∀ f ∈ FieldId.all, f ≠ .pwrclkEn →
      (descOf testbind f).addr = testbind.bankAddr.get g.bank → (descOf testbind f).mask &&& ((1 : Word) <<< g.bit) = 0 := by
    decide +kernel
  exact fun g hg f => hall g hg f (FieldId.mem_all f)

theorem litmus_premises : BringUpPremises litmusStart where
  boot := litmus_bootOk
  start := litmus_envStarts
  blocks := ⟨by intro f; cases f <;> decide +kernel, by decide +kernel⟩
  gates := litmus_gateBitsApart
  widths := by intro f hf; cases f <;> first | rfl | cases hf

theorem litmus_bindSafe : BindSafe litmusStart.bind where
  wsTarget := by decide +kernel
  hclk := by decide +kernel
  capped := by decide +kernel
  pclk1 := by decide +kernel
  pclk2 := by decide +kernel
  monotone := fun _ _ h => perStep_monotone (by norm_num) h

/-- Settles O53: S4B's write is still posted when S6B's first read drains the switch to the PLL, 43 steps after the start. -/
theorem waitStatesCanFailUnderTarget : Obligations.WaitStatesCanFailUnderTarget :=
  ⟨litmusStart, stateAfter 43 litmusStart, litmus_premises, litmus_bindSafe, rfl,
    reachesUnder_of_empty (fun _ => nextAct_of_empty _) rfl 43, by decide +kernel⟩

end Sys2Proof.Machine
end

section
/-! PROOFS. Liveness: under the nine premises of R79 every step of the sequence is left, so a started run reaches DONE
(20_memory R79, 70_reset_and_hazards R254). -/

namespace Sys2Proof.Machine

/-! ### The order of the steps -/

/-- The place of a step in the sequence of R104, both skipped steps counted; HALT is on no path. -/
def Instr.rank : Instr → Nat
  | .idle => 0 | .s1a => 1 | .s1b => 2 | .s2a => 3 | .s2b => 4 | .o1a => 5 | .o1b => 6 | .o2a => 7 | .o2b => 8
  | .o2c => 9 | .o3a => 10 | .o3b => 11 | .o3c => 12 | .o4a => 13 | .o4b => 14 | .o5a => 15 | .o5b => 16
  | .p1 => 17 | .p2 => 18 | .p3 => 19 | .p4 => 20 | .p5 => 21 | .p6 => 22 | .s4a => 23 | .s4b => 24
  | .s5 => 25 | .s6a => 26 | .s6b => 27 | .s7 => 28 | .s8a => 29 | .s8b => 30 | .s9a => 31 | .s9b => 32
  | .done => 33 | .g1 => 34 | .halt => 35

/-- A successor of a step before DONE stands later in the sequence, at DONE at the latest (R108). -/
theorem rank_successor {i : Instr} (hi : Instr.rank i < 33) {c : Code} (hc : c ∈ i.successors) :
    ∃ j, decode c = some j ∧ Instr.rank i < Instr.rank j ∧ Instr.rank j ≤ 33 := by
  have hrows : ∀ i ∈ Instr.all, Instr.rank i < 33 → ∀ c ∈ i.successors,
      ∃ j ∈ Instr.all, decode c = some j ∧ Instr.rank i < Instr.rank j ∧ Instr.rank j ≤ 33 := by decide
  obtain ⟨j, -, h⟩ := hrows i (Instr.mem_all i) hi c hc
  exact ⟨j, h⟩

/-- Before DONE a step issues transactions or is IDLE. -/
theorem ctrl_of_rank {i : Instr} (hi : Instr.rank i < 33) (hc : i.form = .ctrl) : i = .idle := by
  cases i <;> first | rfl | (cases hc; done) | simp [Instr.rank] at hi

/-- No step is its own successor. -/
theorem not_successor_self (i : Instr) : encode i ∉ i.successors := by
  have hrows : ∀ i ∈ Instr.all, encode i ∉ i.successors := by decide
  exact hrows i (Instr.mem_all i)

/-! ### One step of a run that is not reset -/

/-- No step changes the binding. -/
theorem StepTo.binding {r t : State} (h : StepTo r t) : t.binding = r.binding := by
  cases h with
  | agent a ha => exact (sameBlock_agent ha r).binding
  | block _ _ hm =>
    cases hm with
    | writeHalf => exact setfWrite_binding _ _ _ _ _
    | _ => rfl
  | _ => rfl

/-- The block leaves every input port but the request it acknowledges. -/
theorem StepTo.block_ports {i : Instr} {r t : State} (h : BlockMove i r t) :
    t.ports = { r.ports with gateReq := t.ports.gateReq } := by
  cases h with
  | writeHalf => cases i <;> rfl
  | _ => rfl

/-- What a run keeps that is neither reset nor stopped: the host's two levels, no poll bound, and a schedule that leaves
both levels. -/
structure Undisturbed (s : State) : Prop where
  rst : s.ports.rst = false
  start : s.ports.start = true
  pollMax : s.bind.pollMax = 0
  sched : ∀ a ∈ s.sched, a ≠ .setRst true ∧ a ≠ .setStart false

/-- An act leaves the rest of the schedule. -/
theorem actOf_sched (a : Act) (r : State) : (actOf a r).sched = r.sched := by
  cases a with
  | edge =>
    unfold actOf; dsimp only
    split
    · rfl
    · split
      · exact moveOf_sched _ r
      · rfl
  | gateRequest id => rw [actOf, requestGate_eq]
  | _ => rfl

theorem undisturbed_actOf {a : Act} (ha : a ≠ .setRst true ∧ a ≠ .setStart false) {r : State} (h : Undisturbed r) :
    Undisturbed (actOf a r) := by
  have hports : (actOf a r).ports.rst = false ∧ (actOf a r).ports.start = true := by
    cases a with
    | setRst b => cases b with
      | true => exact absurd rfl ha.1
      | false => exact ⟨rfl, h.start⟩
    | setStart b => cases b with
      | false => exact absurd rfl ha.2
      | true => exact ⟨h.rst, rfl⟩
    | gateRequest id =>
      rw [actOf, requestGate_eq]; dsimp only
      split <;> exact ⟨h.rst, h.start⟩
    | edge =>
      cases hd : decode r.ST with
      | none => rw [actOf_edge_illegal h.rst hd]; exact ⟨h.rst, h.start⟩
      | some i =>
        rw [actOf_edge_decoded h.rst hd, StepTo.block_ports (blockMove_moveOf i r)]
        exact ⟨h.rst, h.start⟩
    | _ => exact ⟨h.rst, h.start⟩
  refine ⟨hports.1, hports.2, ?_, by rw [actOf_sched]; exact h.sched⟩
  rw [State.bind, (stepTo_actOf a r).binding]
  exact h.pollMax

theorem Undisturbed.step {s t : State} (h : Undisturbed s) (hst : Machine.step s = .next t) : Undisturbed t := by
  rcases step_cases hst with ⟨-, rfl⟩ | ⟨a, rest, hs, rfl⟩
  · exact undisturbed_actOf (a := .edge) ⟨nofun, nofun⟩ h
  · refine undisturbed_actOf (h.sched a (by rw [hs]; simp)) ⟨h.rst, h.start, h.pollMax, fun b hb => h.sched b ?_⟩
    rw [hs]; exact List.mem_cons_of_mem _ hb

/-- From a listed step an undisturbed machine step stays or goes to a successor: no bound, no timeout (R100, R108). -/
theorem Undisturbed.stays_or_moves {s t : State} (h : Undisturbed s) {i : Instr} (hd : decode s.ST = some i)
    (hst : Machine.step s = .next t) : t.ST = s.ST ∨ t.ST ∈ i.successors := by
  cases stepTo_of_step hst with
  | reset hr => exact nomatch h.rst.symm.trans hr
  | illegal _ hn => exact nomatch hd.symm.trans hn
  | agent a ha => exact .inl (sameBlock_agent ha _).ST
  | block _ hj hm =>
    cases Option.some.inj (hd.symm.trans hj)
    exact hm.ST.imp_right fun hs => hs.resolve_right fun ⟨_, _, _, _, hb⟩ => hb h.pollMax

/-! ### A run that is not reset -/

section
variable {s : State} (hs : Undisturbed s)
include hs

theorem undisturbed_stateAfter (k : Nat) : Undisturbed (stateAfter k s) := by
  induction k with
  | zero => exact hs
  | succ k ih => exact ih.step (step_stateAfter k s)

omit hs in
theorem stateAfter_binding (k : Nat) : (stateAfter k s).binding = s.binding := by
  induction k with
  | zero => rfl
  | succ k ih => exact ((stepTo_of_step (step_stateAfter k s)).binding).trans ih

omit hs in
/-- Once the schedule's acts are done only the block moves. -/
theorem stateAfter_sched_nil (k : Nat) (hk : s.sched.length ≤ k) : (stateAfter k s).sched = [] := by
  have hlen : ∀ k, (stateAfter k s).sched.length ≤ s.sched.length - k := by
    intro k
    induction k with
    | zero => exact le_rfl
    | succ k ih =>
      rcases step_cases (step_stateAfter k s) with ⟨hn, -⟩ | ⟨a, rest, hc, ht⟩
      · rw [step_sched hn (step_stateAfter k s)]; exact Nat.zero_le _
      · have hrest : (stateAfter (k + 1) s).sched = rest := by rw [ht, actOf_sched]
        rw [hc, List.length_cons] at ih
        rw [hrest]; omega
  exact List.length_eq_zero_iff.1 (by have := hlen k; omega)

/-- A step that is left is left for one of its successors. -/
theorem leaves_to_successor {i : Instr} {n m : Nat} (hn : (stateAfter n s).ST = encode i) (hnm : n ≤ m)
    (hm : (stateAfter m s).ST ≠ encode i) :
    ∃ k, n ≤ k ∧ (stateAfter k s).ST = encode i ∧ (stateAfter (k + 1) s).ST ∈ i.successors := by
  obtain ⟨d, rfl⟩ := Nat.exists_eq_add_of_le hnm
  clear hnm
  induction d with
  | zero => exact absurd hn hm
  | succ d ih =>
    by_cases h : (stateAfter (n + d) s).ST = encode i
    · refine ⟨n + d, by omega, h, ?_⟩
      have hd : decode (stateAfter (n + d) s).ST = some i := by rw [h, decode_encode]
      refine ((undisturbed_stateAfter hs _).stays_or_moves hd (step_stateAfter _ s)).resolve_left fun hstay => hm ?_
      exact hstay.trans h
    · exact ih h

/-! ### Each step is left -/

/-- An acknowledged edge of the block in a listed step is that step's move. -/
theorem acked_move {i : Instr} {k : Nat} (hk : (stateAfter k s).ST = encode i) (hb : BlockMovesNext (stateAfter k s)) :
    ∃ r, r.ST = encode i ∧ r.PH = (stateAfter k s).PH ∧ r.ports = (stateAfter k s).ports ∧
      stateAfter (k + 1) s = moveOf i r := by
  have hr := (undisturbed_stateAfter hs k).rst
  have hd : decode (stateAfter k s).ST = some i := by rw [hk, decode_encode]
  rcases step_cases (step_stateAfter k s) with ⟨-, ht⟩ | ⟨a, rest, hc, ht⟩
  · exact ⟨_, hk, rfl, rfl, ht.trans (actOf_edge_decoded hr hd)⟩
  · rcases hb with hn | ⟨rest', he⟩
    · rw [hn] at hc; cases hc
    · cases List.cons.inj (hc.symm.trans he) |>.1
      exact ⟨{ stateAfter k s with sched := rest }, hk, rfl, rfl,
        ht.trans (actOf_edge_decoded (s := { stateAfter k s with sched := rest }) hr hd)⟩

omit hs in
/-- An acknowledged read of a step that awaits nothing, or an acknowledged write half, goes on. -/
theorem moveOf_completes {i : Instr} {r : State} (hi : i.form ≠ .ctrl) (hw : i.isWait = false)
    (hack : r.ports.busAck = true) (hph : i.isSetf = true → r.PH = true) : (moveOf i r).ST ∈ i.successors := by
  cases hf : i.form with
  | ctrl => exact absurd hf hi
  | setf F V n =>
    rw [moveOf_writes hf hack (hph (by rw [Instr.isSetf, hf])), setfWrite, finishOf_ST, goto_ST, successors_setf hf]
    simp
  | wait F V n => rw [Instr.isWait, hf] at hw; cases hw
  | _ =>
    rw [moveOf_reads hi hack (.inr (by rw [Instr.isSetf, hf]))]
    unfold onAnswer
    simp only [hf, goto_ST]
    first
      | simp [successors_rdbk hf]
      | exact skip_mem_successors (.inl hf) _
      | exact skip_mem_successors (.inr (.inl hf)) _
      | exact skip_mem_successors (.inr (.inr hf)) _

/-- A SETF that stays in its step stays in its write half (R24). -/
theorem writeHalf_stays {i : Instr} (hset : i.isSetf = true) {n : Nat} (hstay : ∀ k, n ≤ k → (stateAfter k s).ST = encode i)
    (hph : (stateAfter n s).PH = true) (k : Nat) (hk : n ≤ k) : (stateAfter k s).PH = true := by
  obtain ⟨d, rfl⟩ := Nat.exists_eq_add_of_le hk
  clear hk
  induction d with
  | zero => exact hph
  | succ d ih =>
    have hd : decode (stateAfter (n + d) s).ST = some i := by rw [hstay _ (by omega), decode_encode]
    have hnext : (stateAfter (n + (d + 1)) s).ST = encode i := hstay _ (by omega)
    have hstep := stepTo_of_step (step_stateAfter (n + d) s)
    change (stateAfter (n + d + 1) s).ST = encode i at hnext
    change (stateAfter (n + d + 1) s).PH = true
    generalize stateAfter (n + d + 1) s = t at *
    cases hstep with
    | reset hr => exact nomatch (undisturbed_stateAfter hs (n + d)).rst.symm.trans hr
    | illegal _ hn => exact nomatch hd.symm.trans hn
    | agent a ha => exact (sameBlock_agent ha _).PH.trans ih
    | block _ hj hm =>
      cases Option.some.inj (hd.symm.trans hj)
      cases hm with
      | readHalf => rfl
      | writeHalf hi =>
        refine absurd ?_ (not_successor_self i)
        rw [← hnext, setfWrite, finishOf_ST, goto_ST, successors_setf hi]; simp
      | timeout hi => rw [Instr.isSetf, hi] at hset; cases hset
      | start hi | hit hi => subst hi; cases hset
      | _ => exact ih

/-- LIVE of a WAIT step: it is not polled for ever (R79). -/
theorem not_stuck_wait {i : Instr} {F : FieldRef} {V : ValSel} {c : Code} (hi : i.form = .wait F V c) (hlive : Live i s)
    {n : Nat} (hstay : ∀ k, n ≤ k → (stateAfter k s).ST = encode i) : False := by
  obtain ⟨f, rfl⟩ : ∃ f, F = .field f := by cases i <;> first | (cases hi; done) | (cases hi; exact ⟨_, rfl⟩)
  obtain ⟨k, d, hnk, htrace, hval⟩ := hlive f V c hi n hstay
  have hd : decode (stateAfter k s).ST = some i := by rw [hstay k hnk, decode_encode]
  have hbind : (stateAfter k s).bind = s.bind := congrArg Binding.data (stateAfter_binding k)
  have hnext := hstay (k + 1) (by omega)
  have hstep := stepTo_of_step (step_stateAfter k s)
  have hgrows : ∀ {l : List Event} {x : Event}, l ≠ l ++ [x] := by simp
  have hdata : ∀ {t : State} {a : Nat}, t.trace = (stateAfter k s).trace ++ [.read a t.T] →
      t.trace = (stateAfter k s).trace ++ [.read (descOf s.bind f).addr d] → t.T = d := fun h h' => by
    have := List.append_cancel_left (h.symm.trans h')
    injection this with h1; injection h1
  generalize stateAfter (k + 1) s = t at *
  cases hstep with
  | reset hr => exact nomatch (undisturbed_stateAfter hs k).rst.symm.trans hr
  | illegal _ hn => exact nomatch hd.symm.trans hn
  | agent a ha => exact hgrows ((sameBlock_agent ha _).trace.symm.trans htrace)
  | block _ hj hm =>
    cases Option.some.inj (hd.symm.trans hj)
    cases hm with
    | still => exact hgrows htrace
    | found hi' =>
      cases hi.symm.trans hi'
      refine not_successor_self i ?_
      rw [← hnext, goto_ST, successors_wait hi]; simp
    | again hi' _ hmiss | count hi' _ hmiss =>
      cases hi.symm.trans hi'
      refine hmiss ?_
      rw [show (popped (stateAfter k s)).bind = s.bind from hbind, ← hval]
      exact congrArg₂ fld (congrArg (descOf · f) hbind) (hdata rfl htrace)
    | timeout _ _ _ hb => exact hb (undisturbed_stateAfter hs k).pollMax
    | readHalf hi' | writeHalf hi' | readBack hi' | skipEq hi' | skipGe hi' | skipLe hi' => cases hi.symm.trans hi'
    | start hi' | hit hi' | miss hi' => subst hi'; cases hi

/-- LIVE(BUS): a step that awaits nothing is not held for ever (R79). -/
theorem not_stuck_bus {i : Instr} (hi : i.form ≠ .ctrl) (hw : i.isWait = false) (hbus : LiveBus s) {n : Nat}
    (hstay : ∀ k, n ≤ k → (stateAfter k s).ST = encode i) : False := by
  have hacked : ∀ m, n ≤ m → ∃ k r, m ≤ k ∧ r.PH = (stateAfter k s).PH ∧ r.ports.busAck = true ∧
      stateAfter (k + 1) s = moveOf i r := fun m hm => by
    obtain ⟨k, hmk, hb, -, hack⟩ := hbus m (busReqO_of_form (by rw [hstay m hm, decode_encode]) hi)
    obtain ⟨r, -, hrp, hports, hnext⟩ := acked_move hs (hstay k (by omega)) hb
    exact ⟨k, r, hmk, hrp, by rw [hports]; exact hack, hnext⟩
  have hmoves : ∀ m, n ≤ m → (i.isSetf = true → ∀ k, m ≤ k → (stateAfter k s).PH = true) → False := fun m hm hph => by
    obtain ⟨k, r, hmk, hrp, hack, hnext⟩ := hacked m hm
    refine not_successor_self i ?_
    rw [← hstay (k + 1) (by omega), hnext]
    exact moveOf_completes hi hw hack fun hset => hrp.trans (hph hset k hmk)
  cases hset : i.isSetf with
  | false => exact hmoves n le_rfl fun h => by rw [hset] at h; cases h
  | true =>
    obtain ⟨k, r, hnk, hrp, hack, hnext⟩ := hacked n le_rfl
    have hstay' : ∀ j, k + 1 ≤ j → (stateAfter j s).ST = encode i := fun j hj => hstay j (by omega)
    have hph : (stateAfter (k + 1) s).PH = true := by
      cases hr : r.PH with
      | true => exact writeHalf_stays hs hset (fun j hj => hstay j (by omega)) (hrp.symm.trans hr) (k + 1) (by omega)
      | false =>
        rw [hnext, moveOf_reads hi hack (.inl hr)]
        unfold onAnswer
        cases hf : i.form with
        | setf => rfl
        | _ => rw [Instr.isSetf, hf] at hset; cases hset
    exact hmoves (k + 1) (by omega) fun _ => writeHalf_stays hs hset hstay' hph

/-- A started IDLE is left once the other agents' acts are done (R120). -/
theorem not_stuck_idle {n : Nat} (hstay : ∀ k, n ≤ k → (stateAfter k s).ST = encode .idle) : False := by
  have hk := stateAfter_sched_nil (s := s) (max n s.sched.length) (le_max_right ..)
  have hST := hstay (max n s.sched.length) (le_max_left ..)
  have hnext := hstay (max n s.sched.length + 1) (by omega)
  have hu := undisturbed_stateAfter hs (max n s.sched.length)
  have hstep := step_stateAfter (max n s.sched.length) s
  generalize stateAfter (max n s.sched.length + 1) s = t at *
  generalize stateAfter (max n s.sched.length) s = r at *
  rw [step_of_empty hk, actOf_edge_decoded hu.rst (i := .idle) (by rw [hST, decode_encode])] at hstep
  cases hstep
  rcases idleMove_cases r with ⟨-, -, h⟩ | ⟨h, -⟩
  · have : (moveOf .idle r).ST = 0x01 := congrArg State.ST h
    rw [this] at hnext; cases hnext
  · exact h ⟨hu.rst, hu.start⟩

/-- Under the nine premises no step before DONE lasts for ever (R79). -/
theorem LivePremises.not_stuck (hlive : LivePremises s) {i : Instr} (hi : Instr.rank i < 33) {n : Nat}
    (hstay : ∀ k, n ≤ k → (stateAfter k s).ST = encode i) : False := by
  by_cases hctrl : i.form = .ctrl
  · cases ctrl_of_rank hi hctrl
    exact not_stuck_idle hs hstay
  · cases hw : i.isWait with
    | false => exact not_stuck_bus hs hctrl hw hlive.bus hstay
    | true =>
      have hl : Live i s := by
        cases i with
        | o1b => exact hlive.o1b
        | o2c => exact hlive.o2c
        | o3c => exact hlive.o3c
        | o4b => exact hlive.o4b
        | o5b => exact hlive.o5b
        | p2 => exact hlive.p2
        | p6 => exact hlive.p6
        | s6b => exact hlive.s6b
        | _ => cases hw
      cases hf : i.form with
      | wait F V c => exact not_stuck_wait hs hf hl hstay
      | _ => rw [Instr.isWait, hf] at hw; cases hw

/-- The move into DONE is S9B's, which raises `DN` (R177). -/
theorem done_raises {i : Instr} (hi : Instr.rank i < 33) {k : Nat} (hk : (stateAfter k s).ST = encode i)
    (hdone : (stateAfter (k + 1) s).ST = 0x1F) : (stateAfter (k + 1) s).DN = true := by
  have hd : decode (stateAfter k s).ST = some i := by rw [hk, decode_encode]
  have hne : encode i ≠ 0x1F := fun h => by
    have := decode_encode i
    rw [h] at this
    cases this; simp [Instr.rank] at hi
  have hstep := stepTo_of_step (step_stateAfter k s)
  generalize stateAfter (k + 1) s = t at *
  cases hstep with
  | reset hr => exact nomatch (undisturbed_stateAfter hs k).rst.symm.trans hr
  | illegal _ hn => exact nomatch hd.symm.trans hn
  | agent a ha => exact absurd (hk.symm.trans ((sameBlock_agent ha (popped _)).ST.symm.trans hdone)) hne
  | block _ hj hm =>
    cases Option.some.inj (hd.symm.trans hj)
    have hsucc : (0x1F : Code) ∈ i.successors := by
      rcases hm.ST with h | h | ⟨h, -⟩
      · exact absurd (hk.symm.trans (h.symm.trans hdone)) hne
      · rw [hdone] at h; exact h
      · rw [hdone] at h; cases h
    have hctrl : i.form ≠ .ctrl := fun h => by cases ctrl_of_rank hi h; simp [Instr.successors] at hsucc
    rcases ((successor_row hctrl hsucc).2.2.1 rfl) with rfl | rfl
    · cases hm with
      | writeHalf => rfl
      | still | readHalf => exact absurd (hk.symm.trans hdone) hne
      | readBack h | found h | again h | count h | timeout h | skipEq h | skipGe h | skipLe h | start h | hit h
      | miss h => cases h
    · simp [Instr.rank] at hi

/-- From each step before DONE the run goes on to DONE, along the ranks. -/
theorem LivePremises.reaches_done (hlive : LivePremises s) {i : Instr} (hi : Instr.rank i < 33) {n : Nat}
    (hn : (stateAfter n s).ST = encode i) : ∃ k, (stateAfter k s).ST = 0x1F ∧ (stateAfter k s).DN = true := by
  have hleft : ∃ m, n ≤ m ∧ (stateAfter m s).ST ≠ encode i := by
    by_contra h
    exact hlive.not_stuck hs hi (n := n) fun k hk => by_contra fun hne => h ⟨k, hk, hne⟩
  obtain ⟨m, hnm, hm⟩ := hleft
  obtain ⟨k, -, hk, hsucc⟩ := leaves_to_successor hs hn hnm hm
  obtain ⟨j, hj, hij, hj33⟩ := rank_successor hi hsucc
  have hST : (stateAfter (k + 1) s).ST = encode j := (encode_of_decode hj).symm
  by_cases hlast : Instr.rank j < 33
  · exact LivePremises.reaches_done hlive hlast hST
  · have hdone : j = .done := by cases j <;> first | rfl | simp [Instr.rank] at hlast hj33
    subst hdone
    exact ⟨k + 1, hST, done_raises hs hi hk hST⟩
termination_by 33 - Instr.rank i

end

/-- Settles O60. -/
theorem livePremisesGiveDone : Obligations.LivePremisesGiveDone := by
  intro s hST _ hr hstart hpoll _ _ hsched hlive
  exact hlive.reaches_done ⟨hr, hstart, hpoll, hsched⟩ (i := .idle) (by decide) (n := 0) hST

end Sys2Proof.Machine
end

section
/-! PROOFS. What a run knows of the registers in each step: which values each field can hold and which one was asked for
last, and what each status field shows. The environment's operations keep it (20_memory R69 to R80). -/

namespace Sys2Proof.Machine

/-! ### The tables -/

/-- The value of a selector, or the value a field held at the start of the run. -/
def valueOf (B : BindingData) (v0 : FieldId → Word) (f : FieldId) : Option ValSel → Word
  | none => v0 f
  | some V => valOf B V

/-- A field written by the step of rank `w` alone, and known to be stored from rank `d` on. -/
def askedOnce (r w d : Nat) (V : ValSel) : Option ValSel × Option ValSel :=
  if r ≤ w then (none, none) else if r < d then (none, some V) else (some V, some V)

/-- For each step: the value a field can still hold from before, and the value it was last asked to hold. They are the
same once a later read has drained the write (R70 (a), R97). -/
def span (i : Instr) : FieldId → Option ValSel × Option ValSel
  | .pwrclkEn => askedOnce (Instr.rank i) 1 3 .one
  | .vos => askedOnce (Instr.rank i) 3 5 .vosTarget
  | .hsiOn => askedOnce (Instr.rank i) 5 7 .one
  | .bkpWpdis => askedOnce (Instr.rank i) 8 10 .one
  | .lseDrv => askedOnce (Instr.rank i) 10 12 .lseDrvLowest
  | .lseOn => askedOnce (Instr.rank i) 11 13 .one
  | .lsesysEn | .lsesysFlag => askedOnce (Instr.rank i) 13 15 .zero
  | .hsi48On => askedOnce (Instr.rank i) 15 17 .one
  | .pllOn =>
    if Instr.rank i ≤ 19 then askedOnce (Instr.rank i) 17 19 .zero
    else if Instr.rank i = 20 then (some .zero, some .zero)
    else if Instr.rank i = 21 then (some .zero, some .one)
    else (some .one, some .one)
  | .pllCfg => askedOnce (Instr.rank i) 19 21 .pllCfg
  | .pllSysoutEn => askedOnce (Instr.rank i) 21 23 .one
  | .ahbPre =>
    if Instr.rank i ≤ 28 then askedOnce (Instr.rank i) 25 27 .ahbSafe
    else if Instr.rank i ≤ 31 then (some .ahbSafe, some .ahbFinal)
    else (some .ahbFinal, some .ahbFinal)
  | .sysclkSw => askedOnce (Instr.rank i) 26 28 .swPll
  | .apb1Pre => askedOnce (Instr.rank i) 31 33 .apb1Final
  | .apb2Pre => askedOnce (Instr.rank i) 32 35 .apb2Final
  | .hsiRdy | .hsi48Rdy | .pllRdy | .flashWs | .sysclkSws => (none, none)

/-- The wait-states the flash field can hold: the start's, then no fewer, then no fewer than the target. With DRAIN_SCOPE =
ALL the target is stored before the switch is requested (R243). -/
def FlashMay (B : BindingData) (v0 : FieldId → Word) (r : Nat) (w : Word) : Prop :=
  if r ≤ 24 then w = v0 .flashWs
  else if r ≤ 29 then (v0 .flashWs).toNat ≤ w.toNat ∧ (B.drainScope = .all → 27 ≤ r → B.vWsTarget.toNat ≤ w.toNat)
  else B.vWsTarget.toNat ≤ w.toNat

/-- The wait-states the flash field was last asked to hold (R137, R138, R174, R175). -/
def FlashLast (B : BindingData) (v0 : FieldId → Word) (r : Nat) (w : Word) : Prop :=
  if r ≤ 24 then w = v0 .flashWs ∧ (r = 24 → (v0 .flashWs).toNat < B.vWsTarget.toNat)
  else if r ≤ 29 then B.vWsTarget.toNat ≤ w.toNat ∧ (v0 .flashWs).toNat ≤ w.toNat
  else if r = 30 then B.vWsTarget.toNat ≤ w.toNat
  else w = B.vWsTarget

/-- The values a field can hold, or be posted to hold, in a step. -/
def MayHold (B : BindingData) (v0 : FieldId → Word) (i : Instr) (f : FieldId) (w : Word) : Prop :=
  if f = .flashWs then FlashMay B v0 (Instr.rank i) w
  else w = valueOf B v0 f (span i f).1 ∨ w = valueOf B v0 f (span i f).2

/-- The value a field was last asked to hold in a step. -/
def LastAsked (B : BindingData) (v0 : FieldId → Word) (i : Instr) (f : FieldId) (w : Word) : Prop :=
  if f = .flashWs then FlashLast B v0 (Instr.rank i) w else w = valueOf B v0 f (span i f).2

/-- What a status field is known to show in a step, if anything is. The argument says whether F_LSESYS_FLAG is the enable
bit itself (R36). -/
def statusAt (paired : Bool) (i : Instr) : StatusId → Option (Option ValSel)
  | .hsiRdy => if 7 ≤ Instr.rank i then some (some .one) else none
  | .hsi48Rdy => if 17 ≤ Instr.rank i then some (some .one) else none
  | .pllRdy =>
    if Instr.rank i = 19 ∨ Instr.rank i = 20 then some (some .zero)
    else if 23 ≤ Instr.rank i then some (some .one) else none
  | .sysclkSws =>
    if Instr.rank i ≤ 26 then some none else if 28 ≤ Instr.rank i then some (some .swsPll) else none
  | .bkpWpdis => if Instr.rank i ≤ 8 then some none else if 10 ≤ Instr.rank i then some (some .one) else none
  | .lseOn => if Instr.rank i ≤ 11 then some none else if 13 ≤ Instr.rank i then some (some .one) else none
  | .lsesysFlag =>
    if 15 ≤ Instr.rank i then some (some .zero) else if paired ∧ Instr.rank i ≤ 13 then some none else none

/-- The field that says what a status field is asked to show (R80 (c)). -/
def driver : StatusId → FieldId
  | .hsiRdy => .hsiOn
  | .hsi48Rdy => .hsi48On
  | .pllRdy => .pllOn
  | .sysclkSws => .sysclkSw
  | .lsesysFlag => .lsesysEn
  | .bkpWpdis => .bkpWpdis
  | .lseOn => .lseOn

/-! ### Knowledge about posted writes -/

/-- A property of a field's stored value and of every value that a list of posted writes carries for it. -/
def Within (B : BindingData) (Q : List PostedWrite) (e : Env) (f : FieldId) (P : Word → Prop) : Prop :=
  P (fieldVal B e.regs f) ∧ ∀ p ∈ Q, (descOf B f).addr = p.addr → P (fld (descOf B f) p.data)

/-- A property of the value posted for a field, or of its stored value where nothing is posted to its register. -/
def Latest (B : BindingData) (Q : List PostedWrite) (e : Env) (f : FieldId) (P : Word → Prop) : Prop :=
  (∀ p ∈ Q, (descOf B f).addr = p.addr → P (fld (descOf B f) p.data)) ∧
  ((∀ p ∈ Q, (descOf B f).addr ≠ p.addr) → P (fieldVal B e.regs f))

/-- A field that a posted write may change in a step: the backup domain once it is unprotected, the PLL configuration while
the PLL is off (R75, R76). -/
def Unlocked (B : BindingData) (i : Instr) (f : FieldId) : Prop :=
  (backupDomain B f = true → 10 ≤ Instr.rank i) ∧ (f = .pllCfg → i = .p4)

/-- What a run knows of the environment in a step `i` with the writes `Q` still to be applied; `v0` are the values at its
start. -/
structure EnvInv (B : BindingData) (v0 : FieldId → Word) (i : Instr) (Q : List PostedWrite) (e : Env) : Prop where
  single : ∀ p ∈ Q, ∀ q ∈ Q, blockOf B p.addr = blockOf B q.addr → p = q
  aligned : ∀ p ∈ Q, p.addr % 4 = 0
  tame : ∀ p ∈ Q, ∀ f, f ∉ envFields B → (descOf B f).addr = p.addr →
    fld (descOf B f) p.data = fieldVal B e.regs f ∨ Unlocked B i f
  powered : BlocksAgree B → ∀ p ∈ Q, blockOf B p.addr = .pwr → 3 ≤ Instr.rank i
  may : ∀ f, f ∉ envFields B → Within B Q e f (MayHold B v0 i f)
  last : ∀ f, f ∉ envFields B → Latest B Q e f (LastAsked B v0 i f)
  status : ∀ S a, statusAt (lsesysAliased B) i S = some a → current B e S = valueOf B v0 S.field a
  swsInit : e.swsInit = v0 .sysclkSws

/-- What the statements about runs take of the values at the start (BOOT_OK, R232). -/
structure StartValues (B : BindingData) (v0 : FieldId → Word) : Prop where
  paired : lsesysAliased B = true → v0 .lsesysFlag = v0 .lsesysEn
  switch : v0 .sysclkSw ≠ B.vSwPll
  reported : v0 .sysclkSws ≠ B.vSwsPll
  waitStates : wsRequired B B.fReset ≤ (v0 .flashWs).toNat
  ahbCode : (v0 .ahbPre).toNat ≤ (B.fields.ahbPre.mask >>> B.fields.ahbPre.pos.toNat).toNat
  hclk : B.fReset / DivTable.ratio B.divAhb (v0 .ahbPre).toNat ≤ B.fHclkMax
  pclk1 : B.fReset / DivTable.ratio B.divAhb (v0 .ahbPre).toNat / DivTable.ratio B.divApb (v0 .apb1Pre).toNat ≤
    B.fPclk1Max
  pclk2 : B.fReset / DivTable.ratio B.divAhb (v0 .ahbPre).toNat / DivTable.ratio B.divApb (v0 .apb2Pre).toNat ≤
    B.fPclk2Max
  apb1 : fPll B B.vPllCfg / DivTable.ratio B.divApb (v0 .apb1Pre).toNat ≤ B.fPclk1Max
  apb2 : fPll B B.vPllCfg / DivTable.ratio B.divApb (v0 .apb2Pre).toNat ≤ B.fPclk2Max

/-! ### What the tables say together -/

/-- A status field known to show a value has a driver that is known to ask for it (R80 (c)). -/
theorem span_driver {b : Bool} {i : Instr} {S : StatusId} {a : Option ValSel} (hi : i ≠ .halt)
    (h : statusAt b i S = some a) :
    span i (driver S) = if S = .sysclkSws then (a.map fun _ => .swPll, a.map fun _ => .swPll) else (a, a) := by
  have hrows : ∀ b : Bool, ∀ i ∈ Instr.all, i ≠ .halt → ∀ S ∈ StatusId.all, ∀ a ∈ statusAt b i S,
      span i (driver S) = if S = .sysclkSws then (a.map fun _ => .swPll, a.map fun _ => .swPll) else (a, a) := by
    decide
  exact hrows b i (Instr.mem_all i) hi S (StatusId.mem_all S) a h

/-- Before a SETF's read every echo field is known to show its stored value. -/
theorem statusAt_setf {b : Bool} {i : Instr} {S : StatusId} (hi : i.isSetf = true)
    (hS : S = .bkpWpdis ∨ S = .lseOn ∨ (S = .lsesysFlag ∧ b = true)) : ∃ a, statusAt b i S = some a := by
  have hrows : ∀ b : Bool, ∀ i ∈ Instr.all, i.isSetf = true →
      ∀ S ∈ StatusId.all, S = .bkpWpdis ∨ S = .lseOn ∨ (S = .lsesysFlag ∧ b = true) →
        (statusAt b i S).isSome = true := by decide
  exact Option.isSome_iff_exists.1 (hrows b i (Instr.mem_all i) hi S (StatusId.mem_all S) hS)

/-- The switch status is known to be the start's or the PLL's. -/
theorem statusAt_sysclkSws {b : Bool} {i : Instr} {a : Option ValSel} (h : statusAt b i .sysclkSws = some a) :
    a = none ∨ a = some .swsPll := by
  have hrows : ∀ b : Bool, ∀ i ∈ Instr.all, ∀ a ∈ statusAt b i .sysclkSws, a = none ∨ a = some .swsPll := by decide
  exact hrows b i (Instr.mem_all i) a h

/-- The status fields whose value at the start the tables use. -/
theorem statusAt_none {b : Bool} {i : Instr} {S : StatusId} (h : statusAt b i S = some none) :
    S = .sysclkSws ∨ S = .bkpWpdis ∨ S = .lseOn ∨ (S = .lsesysFlag ∧ b = true) := by
  have hrows : ∀ b : Bool, ∀ i ∈ Instr.all, ∀ S ∈ StatusId.all, statusAt b i S = some none →
      S = .sysclkSws ∨ S = .bkpWpdis ∨ S = .lseOn ∨ (S = .lsesysFlag ∧ b = true) := by decide
  exact hrows b i (Instr.mem_all i) S (StatusId.mem_all S) h

theorem driver_owned {B : BindingData} (S : StatusId) : driver S ∉ envFields B := by
  exact owned_of_driver (by cases S <;> simp [driver])

theorem driver_ne_flashWs (S : StatusId) : driver S ≠ .flashWs := by cases S <;> simp [driver]

section
variable {B : BindingData} {v0 : FieldId → Word} {i : Instr} {Q : List PostedWrite} {e : Env}

/-- A field with one possible value holds it. -/
theorem EnvInv.stored (h : EnvInv B v0 i Q e) {f : FieldId} {a : Option ValSel} (hf : f ∉ envFields B)
    (hne : f ≠ .flashWs) (ha : span i f = (a, a)) : fieldVal B e.regs f = valueOf B v0 f a := by
  have hm := (h.may f hf).1
  rw [MayHold, if_neg hne, ha, or_self] at hm
  exact hm

/-- A status field known to show a value is asked to show it. -/
theorem EnvInv.target (h : EnvInv B v0 i Q e) (hv : StartValues B v0) (hi : i ≠ .halt) {S : StatusId}
    {a : Option ValSel} (hS : statusAt (lsesysAliased B) i S = some a) : target B e S = valueOf B v0 S.field a := by
  have hspan := span_driver hi hS
  by_cases hsws : S = .sysclkSws
  · subst hsws
    rw [if_pos rfl] at hspan
    have hsw := h.stored (driver_owned .sysclkSws) (driver_ne_flashWs _) hspan
    rcases statusAt_sysclkSws hS with rfl | rfl
    · have hne : fieldVal B e.regs .sysclkSw ≠ B.vSwPll := fun hq => hv.switch (hsw.symm.trans hq)
      rw [Machine.target, if_neg hne]; exact h.swsInit
    · rw [Machine.target, if_pos (show fieldVal B e.regs .sysclkSw = B.vSwPll from hsw)]; rfl
  · rw [if_neg hsws] at hspan
    have hdrv := h.stored (driver_owned S) (driver_ne_flashWs S) hspan
    have htar : Machine.target B e S = fieldVal B e.regs (driver S) := by
      cases S with
      | sysclkSws => exact absurd rfl hsws
      | _ => rfl
    rw [htar, hdrv]
    cases a with
    | some V => rfl
    | none =>
      rcases statusAt_none hS with rfl | rfl | rfl | ⟨rfl, hb⟩
      · exact absurd rfl hsws
      · rfl
      · rfl
      · exact (hv.paired hb).symm

/-- A field that a posted write may change is not guarded. -/
theorem EnvInv.not_guarded (h : EnvInv B v0 i Q e) {f : FieldId} (hf : f ∉ envFields B) (hu : Unlocked B i f)
    (p : PostedWrite) : ¬ Guarded B e p f := by
  rintro (henv | ⟨hc, hd⟩ | ⟨hcfg, hb⟩)
  · exact hf henv
  · have hr := hu.1 hd
    have hone := h.status .bkpWpdis (some .one) (by
      have : ¬ Instr.rank i ≤ 8 := by omega
      simp [statusAt, this, hr])
    rw [hc] at hone; cases hone
  · cases hu.2 hcfg
    have hon := h.stored (f := .pllOn) (a := some .zero) (driver_owned .pllRdy) (by decide) rfl
    have hrdy := h.status .pllRdy (some .zero) rfl
    replace hrdy : fieldVal B e.regs .pllRdy = 0 := hrdy
    replace hon : fieldVal B e.regs .pllOn = 0 := hon
    rw [pllCfgBroken, pllEnabled, hon, hrdy] at hb
    simp at hb

/-! ### Applied writes -/

/-- An applied write leaves the visible values, so it leaves what a status field shows where it leaves the field. -/
theorem current_applyWrite_of_stored {p : PostedWrite} (S : StatusId)
    (h : isEcho B S = false → fieldVal B (applyWrite B e p).regs S.field = fieldVal B e.regs S.field) :
    current B (applyWrite B e p) S = current B e S := by
  cases hS : isEcho B S with
  | true =>
    rw [current_of_echo hS, current_of_echo hS]
    cases S <;> simp [visible]
  | false =>
    simp only [current, hS, Bool.false_eq_true, if_false]
    exact h hS

/-- An applied write changes what no status field shows (R37, R77). -/
theorem current_applyWrite (hB : B.wf = true) {p : PostedWrite} (hp : p.addr % 4 = 0) (S : StatusId) :
    current B (applyWrite B e p) S = current B e S :=
  current_applyWrite_of_stored S fun hS => by
    by_cases ha : (descOf B S.field).addr = p.addr
    · exact fieldVal_applyWrite_guarded ha (.inl ((mem_envFields_iff B S).2 hS))
    · exact fieldVal_applyWrite_ne (aligned_apart hp (wf_addr hB _).1 (Ne.symm ha))

/-- A posted write gives each block-owned field of its register the value it carries. -/
theorem EnvInv.applied (h : EnvInv B v0 i Q e) (hB : B.wf = true) {p : PostedWrite} (hp : p ∈ Q) {f : FieldId}
    (hf : f ∉ envFields B) (ha : (descOf B f).addr = p.addr) :
    fieldVal B (applyWrite B e p).regs f = fld (descOf B f) p.data := by
  by_cases hg : Guarded B e p f
  · rw [fieldVal_applyWrite_guarded ha hg]
    exact ((h.tame p hp f hf ha).resolve_right fun hu => h.not_guarded hf hu p hg).symm
  · exact fieldVal_applyWrite_open hB ha hg

/-- A write whose register no field lives in leaves the field. -/
theorem fieldVal_applyWrite_aligned (hB : B.wf = true) {p : PostedWrite} (hp : p.addr % 4 = 0) {f : FieldId}
    (ha : (descOf B f).addr ≠ p.addr) : fieldVal B (applyWrite B e p).regs f = fieldVal B e.regs f :=
  fieldVal_applyWrite_ne (aligned_apart hp (wf_addr hB f).1 ha.symm)

/-- Applying one posted write keeps what the run knows; `l` are the entries left. -/
theorem EnvInv.apply (h : EnvInv B v0 i Q e) (hB : B.wf = true) {p : PostedWrite} (hp : p ∈ Q)
    {l : List PostedWrite} (hl : ∀ q, q ∈ Q ↔ q = p ∨ q ∈ l) : EnvInv B v0 i l (applyWrite B e p) := by
  have hsub : ∀ q ∈ l, q ∈ Q := fun q hq => (hl q).2 (.inr hq)
  have hpa := h.aligned p hp
  exact {
    single := fun q hq r hr => h.single q (hsub q hq) r (hsub r hr)
    aligned := fun q hq => h.aligned q (hsub q hq)
    powered := fun hb q hq => h.powered hb q (hsub q hq)
    tame := fun q hq f hf ha => by
      by_cases hqp : q.addr = p.addr
      · have hsame : q = p := h.single q (hsub q hq) p hp (by rw [hqp])
        rw [hsame] at ha ⊢
        exact .inl (h.applied hB hp hf ha).symm
      · refine (h.tame q (hsub q hq) f hf ha).imp_left fun hs => hs.trans ?_
        exact (fieldVal_applyWrite_aligned hB hpa (by rw [ha]; exact hqp)).symm
    may := fun f hf => by
      obtain ⟨hst, hpost⟩ := h.may f hf
      refine ⟨?_, fun q hq => hpost q (hsub q hq)⟩
      by_cases ha : (descOf B f).addr = p.addr
      · rw [h.applied hB hp hf ha]; exact hpost p hp ha
      · rw [fieldVal_applyWrite_aligned hB hpa ha]; exact hst
    last := fun f hf => by
      obtain ⟨hpost, hst⟩ := h.last f hf
      refine ⟨fun q hq => hpost q (hsub q hq), fun hnone => ?_⟩
      by_cases ha : (descOf B f).addr = p.addr
      · rw [h.applied hB hp hf ha]; exact hpost p hp ha
      · rw [fieldVal_applyWrite_aligned hB hpa ha]
        exact hst fun q hq => ((hl q).1 hq).elim (fun hqp => hqp ▸ ha) (hnone q)
    status := fun S a hS => (current_applyWrite hB hpa S).trans (h.status S a hS)
    swsInit := (applyWrite_keeps B e p).swsInit.trans h.swsInit }

/-- What the run knows depends on which writes are still to be applied, not on how they are listed. -/
theorem EnvInv.of_mem_iff (h : EnvInv B v0 i Q e) {l : List PostedWrite} (hl : ∀ q, q ∈ Q ↔ q ∈ l) :
    EnvInv B v0 i l e where
  single p hp q hq := h.single p ((hl p).2 hp) q ((hl q).2 hq)
  aligned p hp := h.aligned p ((hl p).2 hp)
  tame p hp := h.tame p ((hl p).2 hp)
  powered hb p hp := h.powered hb p ((hl p).2 hp)
  may f hf := ⟨(h.may f hf).1, fun p hp => (h.may f hf).2 p ((hl p).2 hp)⟩
  last f hf := ⟨fun p hp => (h.last f hf).1 p ((hl p).2 hp), fun hn => (h.last f hf).2 fun p hp => hn p ((hl p).1 hp)⟩
  status := h.status
  swsInit := h.swsInit

/-! ### Moves that leave the block's fields -/

/-- A change of the environment that leaves the block's fields, moves status fields only toward their drivers, and flags
the clocks as R81 says. -/
structure Calm (B : BindingData) (e e' : Env) : Prop where
  swsInit : e'.swsInit = e.swsInit
  owned : ∀ f, f ∉ envFields B → fieldVal B e'.regs f = fieldVal B e.regs f
  follows : ∀ S, current B e' S = current B e S ∨ current B e' S = target B e S ∨
    current B e' S = cut (descOf B S.field) (target B e S)
  pllCfg : e'.violPllCfg = e.violPllCfg
  ws : e'.violWs = true → e.violWs = true ∨ ¬ InvWs B e'.regs
  fmax : e'.violFmax = true → e.violFmax = true ∨ ¬ InvFmax B e'.regs

/-- A status field shows no more than it holds. -/
theorem cut_current (hB : B.wf = true) (e : Env) (S : StatusId) :
    cut (descOf B S.field) (current B e S) = current B e S := by
  cases hS : isEcho B S with
  | true => rw [current_of_echo hS, cut_cut]
  | false =>
    simp only [current, hS, Bool.false_eq_true, if_false, fieldVal]
    rw [← fld_ins _ (readWord e.regs (descOf B S.field).addr), ins_fld (wf_maskFromPos hB _)]

/-- Such a change keeps what the run knows. -/
theorem EnvInv.calm (h : EnvInv B v0 i Q e) (hB : B.wf = true) (hv : StartValues B v0) (hi : i ≠ .halt) {e' : Env}
    (hc : Calm B e e') : EnvInv B v0 i Q e' where
  single := h.single
  aligned := h.aligned
  powered := h.powered
  tame p hp f hf ha := by rw [hc.owned f hf]; exact h.tame p hp f hf ha
  may f hf := by unfold Within; rw [hc.owned f hf]; exact h.may f hf
  last f hf := by unfold Latest; rw [hc.owned f hf]; exact h.last f hf
  status S a hS := by
    rcases hc.follows S with hs | hs | hs
    · exact hs.trans (h.status S a hS)
    · exact hs.trans (h.target hv hi hS)
    · rw [hs, h.target hv hi hS, ← h.status S a hS, cut_current hB]
  swsInit := hc.swsInit.trans h.swsInit

theorem Calm.refl (B : BindingData) (e : Env) : Calm B e e :=
  ⟨rfl, fun _ _ => rfl, fun _ => .inl rfl, rfl, .inl, .inl⟩

theorem calm_settle (hB : B.wf = true) (S : StatusId) :
    Calm B e (settle B S e) where
  swsInit := (settle_keeps B S e).swsInit
  owned f hf := by rw [settle_regs]; exact fieldVal_setCurrent_owned hB e S _ hf
  follows R := by
    by_cases h : R = S
    · subst h; exact .inr (.inr (current_settle_self e R))
    · exact .inl (current_settle_ne hB e h)
  pllCfg := settle_violPllCfg B S e
  ws := ((noteClocks_iff B _ (setCurrent_flags B e S _).1 (setCurrent_flags B e S _).2).1).1
  fmax := ((noteClocks_iff B _ (setCurrent_flags B e S _).1 (setCurrent_flags B e S _).2).2).1

/-- Another agent sets a status field under ENV_RO (R78). -/
theorem calm_setStatus (hB : B.wf = true) {S : StatusId} {v : Word} (hro : StatusFollows B e (setStatus B S v e)) :
    Calm B e (setStatus B S v e) where
  swsInit := (setStatus_keeps B S v e).swsInit
  owned _ hf := fieldVal_setCurrent_owned hB e S v hf
  follows R := (hro R).imp_right .inl
  pllCfg := setCurrent_violPllCfg B e S v
  ws := ((noteClocks_iff B _ (setCurrent_flags B e S v).1 (setCurrent_flags B e S v).2).1).1
  fmax := ((noteClocks_iff B _ (setCurrent_flags B e S v).1 (setCurrent_flags B e S v).2).2).1

/-- The environment changes a register by itself under ENV_HOLD and ENV_RO (R78). -/
theorem calm_pokeReg {a : Nat} {w : Word}
    (hhold : ∀ f, BlockOwned B f → fieldVal B (pokeReg B a w e).regs f = fieldVal B e.regs f)
    (hro : StatusFollows B e (pokeReg B a w e)) : Calm B e (pokeReg B a w e) where
  swsInit := rfl
  owned := hhold
  follows R := (hro R).imp_right .inl
  pllCfg := rfl
  ws := ((noteClocks_iff B { e with regs := writeWord e.regs a w } rfl rfl).1).1
  fmax := ((noteClocks_iff B { e with regs := writeWord e.regs a w } rfl rfl).2).1

/-- Another master's write stays off the binding's registers (ENV_SOLE, R78). -/
theorem calm_otherWrite {p : PostedWrite} (hsole : ¬ TouchesBinding B p.addr) : Calm B e (applyWrite B e p) := by
  have hfield : ∀ f, fieldVal B (applyWrite B e p).regs f = fieldVal B e.regs f := fun f => by
    refine fieldVal_applyWrite_ne ?_
    have hf : ¬ ((descOf B f).addr < p.addr + 4 ∧ p.addr < (descOf B f).addr + 4) := fun h => hsole (.inl ⟨f, h⟩)
    omega
  exact {
    swsInit := (applyWrite_keeps B e p).swsInit
    owned := fun f _ => hfield f
    follows := fun S => .inl (current_applyWrite_of_stored S fun _ => hfield _)
    pllCfg := by
      have hne : p.addr ≠ (descOf B .pllCfg).addr := fun h => hsole (.inl ⟨.pllCfg, by omega, by omega⟩)
      have hcfg : decide (p.addr = B.fields.pllCfg.addr) = false := decide_eq_false hne
      rw [applyWrite_violPllCfg, pllCfgBroken, hcfg, Bool.false_and, Bool.false_and, Bool.or_false]
    ws := fun h => by rwa [applyWrite_violWs, Bool.or_eq_true, wsBroken_iff] at h
    fmax := fun h => by rwa [applyWrite_violFmax, Bool.or_eq_true, fmaxBroken_iff] at h }

/-- The power-interface check changes no register. -/
theorem calm_notePwr (a : Nat) : Calm B e (notePwr B a e) := { Calm.refl B e with }

/-- A countdown goes down or ends at a read (R80 (e)). -/
theorem calm_tickOne (hB : B.wf = true) (a : Nat) (S : StatusId) : Calm B e (tickOne B a e S) := by
  rcases tickOne_cases B a e S with h | ⟨k, -, -, h⟩ | ⟨-, -, h⟩ <;> rw [h]
  · exact .refl B e
  · exact { Calm.refl B e with }
  · exact calm_settle hB S

end

end Sys2Proof.Machine
end

section
/-! PROOFS. What the clock bounds of a run are, and that no operation of the environment raises a violation flag (20_memory
R81, 70_reset_and_hazards R240 to R245). -/

namespace Sys2Proof.Machine

section
variable {B : BindingData} {v0 : FieldId → Word} {i : Instr} {Q : List PostedWrite} {e : Env}

/-! ### The clock bounds -/

/-- A bound that holds of a frequency holds of it divided. -/
theorem div_ratio_le {x M : Rat} (hx : x ≤ M) (hM : 0 ≤ M) {r : Nat} (hr : 1 ≤ r) : x / r ≤ M := by
  have h1 : (1 : Rat) ≤ r := by exact_mod_cast hr
  rw [div_le_iff₀ (by linarith)]
  nlinarith

/-- Dividing by more gives no more. -/
theorem div_ratio_anti {x M : Rat} {r s : Nat} (hx : 0 ≤ x) (h : x / r ≤ M) (hr : 1 ≤ r) (hrs : r ≤ s) : x / s ≤ M := by
  have h1 : (1 : Rat) ≤ r := by exact_mod_cast hr
  have h2 : (r : Rat) ≤ s := by exact_mod_cast hrs
  exact (div_le_div_of_nonneg_left hx (by linarith) h2).trans h

theorem owned_of_not_status {f : FieldId} (hf : f ∉ [FieldId.hsiRdy, .hsi48Rdy, .pllRdy, .sysclkSws, .lsesysFlag]) :
    f ∉ envFields B := by
  intro h
  refine hf ?_
  unfold envFields at h
  split at h
  · simp only [List.append_nil] at h
    simp only [List.mem_cons] at h ⊢
    tauto
  · simpa using h

/-- A field holds one of the values its table allows. -/
theorem EnvInv.holds_one (h : EnvInv B v0 i Q e) {f : FieldId} (hf : f ∉ envFields B) (hne : f ≠ .flashWs)
    {P : Option ValSel → Prop} (h1 : P (span i f).1) (h2 : P (span i f).2) :
    ∃ a, P a ∧ fieldVal B e.regs f = valueOf B v0 f a := by
  have hmay := (h.may f hf).1
  rw [MayHold, if_neg hne] at hmay
  exact hmay.elim (fun hm => ⟨_, h1, hm⟩) fun hm => ⟨_, h2, hm⟩

/-- The switch to the PLL in the three parts of a run: not requested, being made in S6B, reported (R171, R172). -/
theorem EnvInv.switch_stage (h : EnvInv B v0 i Q e) (hv : StartValues B v0) (hi : i ≠ .halt) :
    (Instr.rank i ≤ 26 ∧ switchRequested B e.regs = false ∧ switchReported B e.regs = false) ∨ i = .s6b ∨
      (28 ≤ Instr.rank i ∧ switchReported B e.regs = true) := by
  have hrows : ∀ i ∈ Instr.all, i ≠ .halt →
      (Instr.rank i ≤ 26 ∧ span i .sysclkSw = (none, none) ∧ ∀ b, statusAt b i .sysclkSws = some none) ∨ i = .s6b ∨
      (28 ≤ Instr.rank i ∧ ∀ b, statusAt b i .sysclkSws = some (some .swsPll)) := by decide
  rcases hrows i (Instr.mem_all i) hi with ⟨hr, hsw, hsws⟩ | h6 | ⟨hr, hsws⟩
  · refine .inl ⟨hr, decide_eq_false fun hq => ?_, decide_eq_false fun hq => ?_⟩
    · exact hv.switch ((h.stored (driver_owned .sysclkSws) (by decide) hsw).symm.trans hq)
    · exact hv.reported ((h.status .sysclkSws none (hsws _)).symm.trans hq)
  · exact .inr (.inl h6)
  · exact .inr (.inr ⟨hr, decide_eq_true (h.status .sysclkSws _ (hsws _))⟩)

/-- The bound on SYSCLK is the reset frequency until the switch is requested and the target frequency once it is reported
(R240). -/
theorem EnvInv.fSysclkUb (h : EnvInv B v0 i Q e) (hv : StartValues B v0) (hi : i ≠ .halt) :
    (fSysclkUb B e.regs = B.fReset ∧ Instr.rank i ≤ 27) ∨
      (fSysclkUb B e.regs = fPll B B.vPllCfg ∧ 27 ≤ Instr.rank i) := by
  have hword (hr : 27 ≤ Instr.rank i) : pllCfgWord B e.regs = B.vPllCfg := by
    have hrows : ∀ i ∈ Instr.all, i ≠ .halt → 27 ≤ Instr.rank i →
        span i .pllCfg = (some .pllCfg, some .pllCfg) := by decide
    exact h.stored (f := .pllCfg) (owned_of_not_status (by decide)) (by decide) (hrows i (Instr.mem_all i) hi hr)
  rcases h.switch_stage hv hi with ⟨hr, hreq, hrep⟩ | rfl | ⟨hr, hrep⟩
  · exact .inl ⟨by simp [Machine.fSysclkUb, hreq, hrep], by omega⟩
  · rw [Machine.fSysclkUb, hword (by decide)]
    split
    · exact .inr ⟨rfl, by decide⟩
    · split
      · rcases max_choice B.fReset (fPll B B.vPllCfg) with hmax | hmax
        · exact .inl ⟨hmax, by decide⟩
        · exact .inr ⟨hmax, by decide⟩
      · exact .inl ⟨rfl, by decide⟩
  · exact .inr ⟨by simp [Machine.fSysclkUb, hrep, hword (by omega)], by omega⟩

/-- The AHB divide ratio: never less than at the start before the switch is reported (R9 (e), R171). -/
theorem EnvInv.ahb_ge (h : EnvInv B v0 i Q e) (hB : B.wf = true) (hv : StartValues B v0) (hr : Instr.rank i ≤ 27) :
    DivTable.ratio B.divAhb (v0 .ahbPre).toNat ≤ ahbRatio B e.regs := by
  have hrows : ∀ i ∈ Instr.all, Instr.rank i ≤ 27 →
      ((span i .ahbPre).1 = none ∨ (span i .ahbPre).1 = some .ahbSafe) ∧
      ((span i .ahbPre).2 = none ∨ (span i .ahbPre).2 = some .ahbSafe) := by decide
  obtain ⟨h1, h2⟩ := hrows i (Instr.mem_all i) hr
  unfold Machine.ahbRatio
  obtain ⟨a, rfl | rfl, hval⟩ := h.holds_one (P := fun a => a = none ∨ a = some .ahbSafe)
    (owned_of_not_status (by decide)) (by decide) h1 h2
  · rw [hval]; exact le_rfl
  · rw [hval]; exact wf_ahbSafe hB _ hv.ahbCode

/-- The APB prescalers hold their start value or their final one, the start value until the switch is reported (R176). -/
theorem EnvInv.apb (h : EnvInv B v0 i Q e) {f : FieldId} {V : ValSel}
    (hf : (f, V) ∈ [(FieldId.apb1Pre, ValSel.apb1Final), (.apb2Pre, .apb2Final)]) :
    fieldVal B e.regs f = v0 f ∨ (fieldVal B e.regs f = valOf B V ∧ 28 ≤ Instr.rank i) := by
  have hrows : ∀ i ∈ Instr.all, ∀ x ∈ [(FieldId.apb1Pre, ValSel.apb1Final), (.apb2Pre, .apb2Final)],
      ((span i x.1).1 = none ∨ ((span i x.1).1 = some x.2 ∧ 28 ≤ Instr.rank i)) ∧
      ((span i x.1).2 = none ∨ ((span i x.1).2 = some x.2 ∧ 28 ≤ Instr.rank i)) := by decide
  have hplain : ∀ x ∈ [(FieldId.apb1Pre, ValSel.apb1Final), (.apb2Pre, .apb2Final)],
      x.1 ∉ [FieldId.hsiRdy, .hsi48Rdy, .pllRdy, .sysclkSws, .lsesysFlag] ∧ x.1 ≠ .flashWs := by decide
  obtain ⟨h1, h2⟩ := hrows i (Instr.mem_all i) _ hf
  obtain ⟨hstatus, hne⟩ := hplain _ hf
  obtain ⟨a, rfl | ⟨rfl, hr⟩, hval⟩ := h.holds_one (P := fun a => a = none ∨ (a = some V ∧ 28 ≤ Instr.rank i))
    (owned_of_not_status hstatus) hne h1 h2
  · exact .inl hval
  · exact .inr ⟨hval, hr⟩

/-- INV_FMAX holds all along a run (R241, R242). -/
theorem EnvInv.fmax (h : EnvInv B v0 i Q e) (hB : B.wf = true) (hv : StartValues B v0) (hi : i ≠ .halt)
    (hsafe : BindSafe B) : InvFmax B e.regs := by
  obtain ⟨-, hreset, hH, hP1, hP2⟩ := wf_freq_nonneg hB
  have hd1 : 1 ≤ ahbRatio B e.regs := wf_divAhb_pos hB _
  rcases h.fSysclkUb hv hi with ⟨hub, hr⟩ | ⟨hub, hr⟩
  · have hd := h.ahb_ge hB hv hr
    have hdiv : ∀ r : Nat, B.fReset / r / ahbRatio B e.regs = B.fReset / ahbRatio B e.regs / r :=
      fun r => div_right_comm _ _ _
    have hapb1 : fieldVal B e.regs .apb1Pre = v0 .apb1Pre :=
      (h.apb (f := .apb1Pre) (V := .apb1Final) (by simp)).resolve_right fun hq => by omega
    have hapb2 : fieldVal B e.regs .apb2Pre = v0 .apb2Pre :=
      (h.apb (f := .apb2Pre) (V := .apb2Final) (by simp)).resolve_right fun hq => by omega
    have hpos := wf_divAhb_pos hB (v0 .ahbPre).toNat
    refine ⟨?_, ?_, ?_⟩
    · rw [fHclkUb, hub]; exact div_ratio_anti hreset hv.hclk hpos hd
    · rw [fPclk1Ub, fHclkUb, hub, apb1Ratio, hapb1, ← hdiv]
      exact div_ratio_anti (by positivity) (by rw [div_right_comm]; exact hv.pclk1) hpos hd
    · rw [fPclk2Ub, fHclkUb, hub, apb2Ratio, hapb2, ← hdiv]
      exact div_ratio_anti (by positivity) (by rw [div_right_comm]; exact hv.pclk2) hpos hd
  · refine ⟨?_, ?_, ?_⟩
    · rw [fHclkUb, hub]; exact div_ratio_le hsafe.hclk hH hd1
    · rw [fPclk1Ub, fHclkUb, hub, apb1Ratio, div_right_comm]
      refine div_ratio_le ?_ hP1 hd1
      rcases h.apb (f := .apb1Pre) (V := .apb1Final) (by simp) with hq | ⟨hq, -⟩ <;> rw [hq]
      · exact hv.apb1
      · exact hsafe.pclk1
    · rw [fPclk2Ub, fHclkUb, hub, apb2Ratio, div_right_comm]
      refine div_ratio_le ?_ hP2 hd1
      rcases h.apb (f := .apb2Pre) (V := .apb2Final) (by simp) with hq | ⟨hq, -⟩ <;> rw [hq]
      · exact hv.apb2
      · exact hsafe.pclk2

/-- INV_WS holds all along a run with DRAIN_SCOPE = ALL (R243). -/
theorem EnvInv.waitStates (h : EnvInv B v0 i Q e) (hv : StartValues B v0) (hi : i ≠ .halt) (hsafe : BindSafe B)
    (hall : B.drainScope = .all) : InvWs B e.regs := by
  have hmay : FlashMay B v0 (Instr.rank i) (fieldVal B e.regs .flashWs) := by
    have hm := (h.may .flashWs (owned_of_not_status (by decide))).1
    rwa [MayHold, if_pos rfl] at hm
  unfold FlashMay at hmay
  have hwsReset := hv.waitStates
  have hwsPll := hsafe.wsTarget
  unfold InvWs
  rcases h.fSysclkUb hv hi with ⟨hub, hr⟩ | ⟨hub, hr⟩ <;> rw [hub]
  · split_ifs at hmay with h1 h2
    · rw [hmay]; exact hwsReset
    · exact hwsReset.trans hmay.1
    · omega
  · split_ifs at hmay with h1 h2
    · omega
    · exact hwsPll.trans (hmay.2 hall hr)
    · exact hwsPll.trans hmay

/-! ### No violation -/

/-- What a run knows of the environment, with no violation flagged: VIOL_PWRCLK where `off` keeps other masters off the PWR
block (R242 to R245). -/
structure Sound (B : BindingData) (v0 : FieldId → Word) (off : Prop) (i : Instr) (Q : List PostedWrite) (e : Env) :
    Prop where
  inv : EnvInv B v0 i Q e
  pllCfg : e.violPllCfg = false
  fmax : BindSafe B → e.violFmax = false
  ws : BindSafe B → B.drainScope = .all → e.violWs = false
  pwrclk : off → e.violPwrclk = false

variable {off : Prop}

theorem Sound.calm (h : Sound B v0 off i Q e) (hB : B.wf = true) (hv : StartValues B v0) (hi : i ≠ .halt) {e' : Env}
    (hc : Calm B e e') (hpwr : off → e'.violPwrclk = e.violPwrclk) : Sound B v0 off i Q e' := by
  have hinv := h.inv.calm hB hv hi hc
  refine ⟨hinv, hc.pllCfg.trans h.pllCfg, fun hs => ?_, fun hs hall => ?_, fun ho => (hpwr ho).trans (h.pwrclk ho)⟩
  · refine Bool.eq_false_iff.2 fun hq => ?_
    rcases hc.fmax hq with hq | hq
    · rw [h.fmax hs] at hq; cases hq
    · exact hq (hinv.fmax hB hv hi hs)
  · refine Bool.eq_false_iff.2 fun hq => ?_
    rcases hc.ws hq with hq | hq
    · rw [h.ws hs hall] at hq; cases hq
    · exact hq (hinv.waitStates hv hi hs hall)

/-- The interface clock is on from step 2 on (R121, R122). -/
theorem EnvInv.pwrclkEn (h : EnvInv B v0 i Q e) (hi : i ≠ .halt) (hr : 3 ≤ Instr.rank i) :
    fieldVal B e.regs .pwrclkEn = 1 := by
  have hrows : ∀ i ∈ Instr.all, i ≠ .halt → 3 ≤ Instr.rank i → span i .pwrclkEn = (some .one, some .one) := by decide
  exact h.stored (owned_of_not_status (by decide)) (by decide) (hrows i (Instr.mem_all i) hi hr)

/-- A posted write changes the PLL configuration only while the PLL is off (R156, R244). -/
theorem EnvInv.pllCfg_unbroken (h : EnvInv B v0 i Q e) (hB : B.wf = true) {p : PostedWrite} (hp : p ∈ Q) :
    pllCfgBroken B e.regs p = false := by
  refine Bool.eq_false_iff.2 fun hb => ?_
  have ha : (descOf B .pllCfg).addr = p.addr := by
    simp only [pllCfgBroken, Bool.and_eq_true, decide_eq_true_eq] at hb
    exact hb.1.1.symm
  have howned : FieldId.pllCfg ∉ envFields B := owned_of_not_status (by decide)
  rcases h.tame p hp .pllCfg howned ha with hsame | hu
  · simp only [pllCfgBroken, Bool.and_eq_true, decide_eq_true_eq] at hb
    refine hb.1.2 ((xor_and_eq_zero_iff _ _ _).2 ?_)
    rw [← ha]
    exact (and_mask_of_fld (wf_maskFromPos hB .pllCfg) hsame).symm
  · exact h.not_guarded howned hu p (.inr (.inr ⟨rfl, hb⟩))

/-- Applying one posted write raises no flag. -/
theorem Sound.apply (h : Sound B v0 off i Q e) (hB : B.wf = true) (hv : StartValues B v0) (hi : i ≠ .halt)
    (hoff : off → BlocksAgree B) {p : PostedWrite} (hp : p ∈ Q) {l : List PostedWrite}
    (hl : ∀ q, q ∈ Q ↔ q = p ∨ q ∈ l) : Sound B v0 off i l (applyWrite B e p) := by
  have hinv := h.inv.apply hB hp hl
  refine ⟨hinv, ?_, fun hs => ?_, fun hs hall => ?_, fun ho => ?_⟩
  · rw [applyWrite_violPllCfg, h.pllCfg, h.inv.pllCfg_unbroken hB hp]; rfl
  · have hok := Bool.eq_false_iff.2 fun hq => (fmaxBroken_iff B _).1 hq (hinv.fmax hB hv hi hs)
    rw [applyWrite_violFmax, h.fmax hs, hok]; rfl
  · have hok := Bool.eq_false_iff.2 fun hq => (wsBroken_iff B _).1 hq (hinv.waitStates hv hi hs hall)
    rw [applyWrite_violWs, h.ws hs hall, hok]; rfl
  · rw [applyWrite_violPwrclk, h.pwrclk ho, Bool.false_or, Bool.and_eq_false_iff]
    by_cases hb : blockOf B p.addr = .pwr
    · rw [h.inv.pwrclkEn hi (h.inv.powered (hoff ho) p hp hb)]; exact .inr rfl
    · exact .inl (decide_eq_false hb)

/-- Applying posted writes one after the other raises no flag; `l` are the entries left. -/
theorem Sound.applyAll (hB : B.wf = true) (hv : StartValues B v0) (hi : i ≠ .halt) (hoff : off → BlocksAgree B)
    (ps l : List PostedWrite) {Q : List PostedWrite} {e : Env} (h : Sound B v0 off i Q e)
    (hl : ∀ q, q ∈ Q ↔ q ∈ ps ∨ q ∈ l) : Sound B v0 off i l (ps.foldl (applyWrite B) e) := by
  induction ps generalizing Q e with
  | nil => exact { h with inv := h.inv.of_mem_iff fun q => by simpa using hl q }
  | cons p ps ih =>
    refine ih (Q := ps ++ l) (h.apply hB hv hi hoff ((hl p).2 (.inl List.mem_cons_self)) fun q => ?_) fun q => by simp
    rw [hl q, List.mem_cons, List.mem_append, or_assoc]

/-- The environment's posted list itself is not part of what a run knows. -/
theorem calm_withPosted (l : List PostedWrite) : Calm B e { e with posted := l } := { Calm.refl B e with }

/-- A drain raises no flag (R70 (a)). -/
theorem Sound.drain (h : Sound B v0 off i e.posted e) (hB : B.wf = true) (hv : StartValues B v0) (hi : i ≠ .halt)
    (hoff : off → BlocksAgree B) (a : Nat) : Sound B v0 off i (drain B a e).posted (drain B a e) := by
  rw [drain_posted]
  refine Sound.applyAll hB hv hi hoff _ _ (h.calm hB hv hi (calm_withPosted _) fun _ => rfl) fun q => ?_
  simp only [List.mem_filter, Bool.not_eq_true']
  cases inScope B a q <;> simp

/-- A read raises no flag, where a read of the PWR block finds its interface clock on (R70 (a), R80 (e), R245). -/
theorem Sound.serveRead (h : Sound B v0 off i e.posted e) (hB : B.wf = true) (hv : StartValues B v0) (hi : i ≠ .halt)
    (hoff : off → BlocksAgree B) {a : Nat} (hpwr : off → blockOf B a = .pwr → 3 ≤ Instr.rank i) :
    Sound B v0 off i (serveRead B a e).posted (serveRead B a e) := by
  have hd := h.drain hB hv hi hoff a
  have hn : Sound B v0 off i (Machine.drain B a e).posted (notePwr B a (Machine.drain B a e)) := by
    refine hd.calm hB hv hi (calm_notePwr a) fun ho => ?_
    rw [hd.pwrclk ho]
    refine Bool.eq_false_iff.2 fun hq => ?_
    rcases (notePwr_violPwrclk B a _).1 hq with hq | ⟨hb, hz⟩
    · rw [hd.pwrclk ho] at hq; cases hq
    · rw [hd.inv.pwrclkEn hi (hpwr ho hb)] at hz; cases hz
  unfold Machine.serveRead
  rw [tick_posted, notePwr_posted]
  unfold tick
  generalize (Machine.drain B a e).posted = l at hn ⊢
  refine List.foldlRecOn _ _ hn fun e' he' S _ => ?_
  exact he'.calm hB hv hi (calm_tickOne hB a S) fun _ => tickOne_violPwrclk B a e' S

/-- The environment's oldest posted write of a class raises no flag (R70 (b)). -/
theorem Sound.applyOldest (h : Sound B v0 off i e.posted e) (hB : B.wf = true) (hv : StartValues B v0) (hi : i ≠ .halt)
    (hoff : off → BlocksAgree B) (b : RegBlock) :
    Sound B v0 off i (applyOldest B b e).posted (applyOldest B b e) := by
  unfold Machine.applyOldest
  cases hf : e.posted.find? (inClass B b) with
  | none => exact h
  | some p =>
    obtain ⟨hclass, older, younger, hsplit, holder⟩ := List.find?_eq_some_iff_append.1 hf
    have herase : e.posted.eraseP (inClass B b) = older ++ younger := by
      rw [hsplit, List.eraseP_append_right _ fun q hq => by simpa using holder q hq, List.eraseP_cons_of_pos hclass]
    have hs : Sound B v0 off i e.posted { e with posted := older ++ younger } :=
      h.calm hB hv hi (calm_withPosted _) fun _ => rfl
    simp only [applyWrite_posted, herase]
    refine hs.apply hB hv hi hoff (by rw [hsplit]; simp) fun q => ?_
    rw [hsplit]
    simp only [List.mem_append, List.mem_cons]
    tauto

end

end Sys2Proof.Machine
end

section
/-! PROOFS. How what a run knows of the registers passes from a step to the next: after a read that drained its scope
(30_encoding R99 to R103), after a SETF's write (R98), and at DONE and G1 (R192). -/

namespace Sys2Proof.Machine

/-! ### Rows -/

/-- The field a step's transactions are about; none for the gate step and the control states (R97 column `F`). -/
def Instr.operand (i : Instr) : Option FieldId :=
  match i.form with
  | .setf (.field f) _ _ | .rdbk (.field f) _ | .wait (.field f) _ _ => some f
  | .skeq (.field f) _ _ _ | .skge (.field f) _ _ _ | .skle (.field f) _ _ _ => some f
  | _ => none

/-- What a WAIT step awaits of a status field (R100). -/
def Instr.awaits (i : Instr) (S : StatusId) : Option ValSel :=
  match i.form with
  | .wait (.field f) V _ => if f = S.field then some V else none
  | _ => none

/-- What a SETF step writes to a field (R98). -/
def Instr.writes (i : Instr) : Option (FieldId × ValSel) :=
  match i.form with
  | .setf (.field f) V _ => some (f, V)
  | _ => none

/-- What the tables say of a field in the step after a read of, or a write beside, the register block of `g`: the same, or
known once drained. -/
def Settles (i n : Instr) (g f : FieldId) : Prop :=
  span n f = span i f ∨ (blockColumn f = blockColumn g ∧ span n f = ((span i f).2, (span i f).2))

/-- The tables from a read to the step after it. -/
theorem span_read {i n : Instr} {g f : FieldId} {c : Code} (hr : Instr.readsOnly i = true)
    (hg : Instr.operand i = some g) (hc : c ∈ i.successors) (hn : decode c = some n) (hf : f ≠ .flashWs) :
    (i = .o2a ∧ n = .o3a ∧ f = .bkpWpdis) ∨ Settles i n g f := by
  have hrows : ∀ i ∈ Instr.all, Instr.readsOnly i = true → ∀ g ∈ Instr.operand i, ∀ c ∈ i.successors, ∀ n ∈ decode c,
      ∀ f ∈ FieldId.all, f ≠ .flashWs → (i = .o2a ∧ n = .o3a ∧ f = .bkpWpdis) ∨ span n f = span i f ∨
        (blockColumn f = blockColumn g ∧ span n f = ((span i f).2, (span i f).2)) := by
    decide +kernel
  exact hrows i (Instr.mem_all i) hr g hg c hc n hn f (FieldId.mem_all f) hf

/-- The tables of the status fields from a read to the step after it. -/
theorem statusAt_read {b : Bool} {i n : Instr} {S : StatusId} {c : Code} {a : Option ValSel}
    (hr : Instr.readsOnly i = true) (hc : c ∈ i.successors) (hn : decode c = some n) (ha : statusAt b n S = some a) :
    statusAt b i S = some a ∨ (∃ V, Instr.awaits i S = some V ∧ a = some V) ∨
      (i = .o2a ∧ n = .o3a ∧ S = .bkpWpdis ∧ a = some .one) := by
  have hrows : ∀ b : Bool, ∀ i ∈ Instr.all, Instr.readsOnly i = true → ∀ c ∈ i.successors, ∀ n ∈ decode c,
      ∀ S ∈ StatusId.all, ∀ a ∈ statusAt b n S, statusAt b i S = some a ∨
        ((Instr.awaits i S).isSome = true ∧ a = Instr.awaits i S) ∨
        (i = .o2a ∧ n = .o3a ∧ S = .bkpWpdis ∧ a = some .one) := by decide
  rcases hrows b i (Instr.mem_all i) hr c hc n hn S (StatusId.mem_all S) a ha with h | ⟨hs, rfl⟩ | h
  · exact .inl h
  · obtain ⟨V, hV⟩ := Option.isSome_iff_exists.1 hs
    exact .inr (.inl ⟨V, hV, hV⟩)
  · exact .inr (.inr h)

/-- The tables from a SETF's write to the step after it. -/
theorem span_write {i n : Instr} {g f : FieldId} {V : ValSel} {c : Code} (hw : Instr.writes i = some (g, V))
    (hc : c ∈ i.successors) (hn : decode c = some n) (hf : f ≠ .flashWs) :
    if f = g ∨ (f = .lsesysFlag ∧ g = .lsesysEn) then span n f = ((span i f).2, some V) else Settles i n g f := by
  have hrows : ∀ i ∈ Instr.all, ∀ x ∈ Instr.writes i, ∀ c ∈ i.successors, ∀ n ∈ decode c, ∀ f ∈ FieldId.all,
      f ≠ .flashWs → if f = x.1 ∨ (f = .lsesysFlag ∧ x.1 = .lsesysEn) then span n f = ((span i f).2, some x.2)
        else span n f = span i f ∨ (blockColumn f = blockColumn x.1 ∧ span n f = ((span i f).2, (span i f).2)) := by
    decide
  exact hrows i (Instr.mem_all i) _ hw c hc n hn f (FieldId.mem_all f) hf

/-- The tables of the status fields from a SETF's write to the step after it. -/
theorem statusAt_write {b : Bool} {i n : Instr} {S : StatusId} {c : Code} {a : Option ValSel} (hset : i.isSetf = true)
    (hc : c ∈ i.successors) (hn : decode c = some n) (ha : statusAt b n S = some a) : statusAt b i S = some a := by
  have hrows : ∀ b : Bool, ∀ i ∈ Instr.all, i.isSetf = true → ∀ c ∈ i.successors, ∀ n ∈ decode c,
      ∀ S ∈ StatusId.all, ∀ a ∈ statusAt b n S, statusAt b i S = some a := by decide
  exact hrows b i (Instr.mem_all i) hset c hc n hn S (StatusId.mem_all S) a ha

/-- The steps that the flash tables do not tell apart. -/
def SameFlash (r r' : Nat) : Prop :=
  (r ≤ 24 ↔ r' ≤ 24) ∧ (r = 24 ↔ r' = 24) ∧ (r ≤ 29 ↔ r' ≤ 29) ∧ (r = 30 ↔ r' = 30)

/-- From a read that is not of the flash wait-states, and from a write to another field than these. -/
theorem sameFlash_successor {i n : Instr} {c : Code} (hflash : Instr.operand i ≠ some .flashWs) (hc : c ∈ i.successors)
    (hn : decode c = some n) :
    SameFlash (Instr.rank i) (Instr.rank n) ∧ (27 ≤ Instr.rank n → 27 ≤ Instr.rank i ∨ i = .s6a) := by
  have hrows : ∀ i ∈ Instr.all, Instr.operand i ≠ some .flashWs → ∀ c ∈ i.successors, ∀ n ∈ decode c,
      (Instr.rank i ≤ 24 ↔ Instr.rank n ≤ 24) ∧ (Instr.rank i = 24 ↔ Instr.rank n = 24) ∧
        (Instr.rank i ≤ 29 ↔ Instr.rank n ≤ 29) ∧ (Instr.rank i = 30 ↔ Instr.rank n = 30) := by decide
  have hrows27 : ∀ i ∈ Instr.all, Instr.operand i ≠ some .flashWs → ∀ c ∈ i.successors, ∀ n ∈ decode c,
      27 ≤ Instr.rank n → 27 ≤ Instr.rank i ∨ i = .s6a := by decide
  exact ⟨hrows i (Instr.mem_all i) hflash c hc n hn, hrows27 i (Instr.mem_all i) hflash c hc n hn⟩

/-- No step takes the run back behind the two marks that the tables use. -/
theorem rank_marks {i n : Instr} {c : Code} (hc : c ∈ i.successors) (hn : decode c = some n) :
    (3 ≤ Instr.rank i → 3 ≤ Instr.rank n) ∧ (10 ≤ Instr.rank i → 10 ≤ Instr.rank n) := by
  have hrows : ∀ i ∈ Instr.all, ∀ c ∈ i.successors, ∀ n ∈ decode c,
      (3 ≤ Instr.rank i → 3 ≤ Instr.rank n) ∧ (10 ≤ Instr.rank i → 10 ≤ Instr.rank n) := by decide
  exact hrows i (Instr.mem_all i) c hc n hn

section
variable {B : BindingData} {v0 : FieldId → Word} {i n : Instr} {Q : List PostedWrite} {e : Env}

/-! ### One field from a step to the next -/

/-- What a run knows of one field. -/
def Knows (B : BindingData) (v0 : FieldId → Word) (i : Instr) (Q : List PostedWrite) (e : Env) (f : FieldId) : Prop :=
  Within B Q e f (MayHold B v0 i f) ∧ Latest B Q e f (LastAsked B v0 i f)

theorem EnvInv.knows (h : EnvInv B v0 i Q e) {f : FieldId} (hf : f ∉ envFields B) : Knows B v0 i Q e f :=
  ⟨h.may f hf, h.last f hf⟩

theorem Knows.mono {f : FieldId} (h : Knows B v0 i Q e f) (hm : ∀ w, MayHold B v0 i f w → MayHold B v0 n f w)
    (hl : ∀ w, LastAsked B v0 i f w → LastAsked B v0 n f w) : Knows B v0 n Q e f := by
  obtain ⟨⟨hst, hpost⟩, hlp, hls⟩ := h
  exact ⟨⟨hm _ hst, fun p hp ha => hm _ (hpost p hp ha)⟩, fun p hp ha => hl _ (hlp p hp ha), fun hn => hl _ (hls hn)⟩

theorem Knows.of_span {f : FieldId} (h : Knows B v0 i Q e f) (hne : f ≠ .flashWs) (hs : span n f = span i f) :
    Knows B v0 n Q e f := by
  refine h.mono (fun w hw => ?_) fun w hw => ?_
  · rw [MayHold, if_neg hne] at hw ⊢; rwa [hs]
  · rw [LastAsked, if_neg hne] at hw ⊢; rwa [hs]

/-- With nothing posted to a field's register its stored value is the one last asked for. -/
theorem Knows.drained {f : FieldId} (hnone : ∀ p ∈ Q, (descOf B f).addr ≠ p.addr)
    (hm : MayHold B v0 n f (fieldVal B e.regs f)) (hl : LastAsked B v0 n f (fieldVal B e.regs f)) :
    Knows B v0 n Q e f :=
  ⟨⟨hm, fun p hp ha => absurd ha (hnone p hp)⟩, fun p hp ha => absurd ha (hnone p hp), fun _ => hl⟩

theorem Knows.of_drained {f : FieldId} (h : Knows B v0 i Q e f) (hne : f ≠ .flashWs)
    (hnone : ∀ p ∈ Q, (descOf B f).addr ≠ p.addr) (hs : span n f = ((span i f).2, (span i f).2)) :
    Knows B v0 n Q e f := by
  have hl := h.2.2 hnone
  rw [LastAsked, if_neg hne] at hl
  refine .drained hnone ?_ ?_
  · rw [MayHold, if_neg hne, hs]; exact .inl hl
  · rw [LastAsked, if_neg hne, hs]; exact hl

/-- The flash wait-states where the tables do not change. -/
theorem Knows.of_sameFlash (h : Knows B v0 i Q e .flashWs) (hr : SameFlash (Instr.rank i) (Instr.rank n))
    (h27 : 27 ≤ Instr.rank n → 27 ≤ Instr.rank i ∨ B.drainScope = .target) : Knows B v0 n Q e .flashWs := by
  obtain ⟨h24, he24, h29, he30⟩ := hr
  have hall27 : B.drainScope = .all → 27 ≤ Instr.rank n → 27 ≤ Instr.rank i := fun hall hr =>
    (h27 hr).resolve_right fun ht => by rw [ht] at hall; cases hall
  refine h.mono (fun w hw => ?_) fun w hw => ?_
  · simp only [MayHold, if_pos, FlashMay, h24, h29] at hw ⊢
    split_ifs at hw ⊢
    · exact hw
    · exact ⟨hw.1, fun hall hr => hw.2 hall (hall27 hall hr)⟩
    · exact hw
  · simpa only [LastAsked, if_pos, FlashLast, h24, he24, h29, he30] using hw

/-- A drain of the scope of a field leaves nothing posted to the registers of its block (R70). -/
theorem none_posted {f g : FieldId} (hlay : BlocksAgree B ∨ Q = [])
    (hscope : ∀ p ∈ Q, inScope B (descOf B g).addr p = false) (hcol : blockColumn f = blockColumn g) :
    ∀ p ∈ Q, (descOf B f).addr ≠ p.addr := by
  intro p hp ha
  rcases hlay with hb | hnil
  · have hin : inScope B (descOf B g).addr p = true := by
      unfold inScope
      split
      · rfl
      · rw [← ha, hb.1 f, hb.1 g, hcol]; exact decide_eq_true rfl
    rw [hscope p hp] at hin; cases hin
  · rw [hnil] at hp; cases hp

/-- A field that settles by the tables. -/
theorem Knows.settles {f g : FieldId} (h : Knows B v0 i Q e f) (hne : f ≠ .flashWs) (hlay : BlocksAgree B ∨ Q = [])
    (hscope : ∀ p ∈ Q, inScope B (descOf B g).addr p = false) (hs : Settles i n g f) : Knows B v0 n Q e f := by
  rcases hs with hs | ⟨hcol, hs⟩
  · exact h.of_span hne hs
  · exact h.of_drained hne (none_posted hlay hscope hcol) hs

/-! ### After a read -/

/-- What is left to show when the block goes on and nothing new is posted. -/
theorem EnvInv.advance (h : EnvInv B v0 i Q e) {c : Code} (hc : c ∈ i.successors) (hn : decode c = some n)
    (hlock : i = .p4 → ∀ p ∈ Q, (descOf B .pllCfg).addr ≠ p.addr) (hknow : ∀ f, f ∉ envFields B → Knows B v0 n Q e f)
    (hstatus : ∀ S a, statusAt (lsesysAliased B) n S = some a → current B e S = valueOf B v0 S.field a) :
    EnvInv B v0 n Q e where
  single := h.single
  aligned := h.aligned
  tame p hp f hf ha := (h.tame p hp f hf ha).imp_right fun hu =>
    ⟨fun hd => (rank_marks hc hn).2 (hu.1 hd), fun hcfg => absurd (hcfg ▸ ha) (hlock (hu.2 hcfg) p hp)⟩
  powered hb p hp hpwr := (rank_marks hc hn).1 (h.powered hb p hp hpwr)
  may f hf := (hknow f hf).1
  last f hf := (hknow f hf).2
  status := hstatus
  swsInit := h.swsInit

/-- What a read that completes its step has shown. -/
structure Learned (B : BindingData) (i n : Instr) (e : Env) : Prop where
  awaited : ∀ S V, Instr.awaits i S = some V → current B e S = valOf B V
  unprotected : i = .o2a → n = .o3a → current B e .bkpWpdis = 1
  raise : i = .s4a → n = .s4b → (fieldVal B e.regs .flashWs).toNat < B.vWsTarget.toNat
  enough : i = .s4a → n = .s5 → B.vWsTarget.toNat ≤ (fieldVal B e.regs .flashWs).toNat
  most : i = .s8a → n = .s9a → (fieldVal B e.regs .flashWs).toNat ≤ B.vWsTarget.toNat

/-- A read of the wait-states settles them (R137, R174). -/
theorem Knows.flash_read (h : Knows B v0 i Q e .flashWs) (hnone : ∀ p ∈ Q, (descOf B .flashWs).addr ≠ p.addr)
    (hi : i = .s4a ∧ (n = .s4b ∨ n = .s5) ∨ i = .s8a ∧ (n = .s8b ∨ n = .s9a)) (hlearn : Learned B i n e) :
    Knows B v0 n Q e .flashWs := by
  have hl := h.2.2 hnone
  refine .drained hnone ?_ ?_
  all_goals
    simp only [MayHold, LastAsked, if_pos] at hl ⊢
    rcases hi with ⟨rfl, rfl | rfl⟩ | ⟨rfl, rfl | rfl⟩
  · exact hl.1
  · exact ⟨by rw [hl.1], fun _ hr => absurd hr (by decide)⟩
  · exact hl.1
  · exact hl.1
  · exact ⟨hl.1, fun _ => by rw [← hl.1]; exact hlearn.raise rfl rfl⟩
  · exact ⟨hlearn.enough rfl rfl, by rw [hl.1]⟩
  · exact hl.1
  · exact BitVec.eq_of_toNat_eq (le_antisymm (hlearn.most rfl rfl) hl.1)

/-- The step after a read of the wait-states. -/
theorem flash_reads {c : Code} (hr : Instr.readsOnly i = true) (hg : Instr.operand i = some .flashWs)
    (hc : c ∈ i.successors) (hn : decode c = some n) :
    i = .s4a ∧ (n = .s4b ∨ n = .s5) ∨ i = .s8a ∧ (n = .s8b ∨ n = .s9a) := by
  have hrows : ∀ i ∈ Instr.all, Instr.readsOnly i = true → Instr.operand i = some .flashWs → ∀ c ∈ i.successors,
      ∀ n ∈ decode c, i = .s4a ∧ (n = .s4b ∨ n = .s5) ∨ i = .s8a ∧ (n = .s8b ∨ n = .s9a) := by decide
  exact hrows i (Instr.mem_all i) hr hg c hc n hn

/-- A read that completes its step leads to what the tables say of the next (R99 to R103). -/
theorem EnvInv.read (h : EnvInv B v0 i Q e) {g : FieldId} {c : Code} (hr : Instr.readsOnly i = true)
    (hg : Instr.operand i = some g) (hc : c ∈ i.successors) (hn : decode c = some n) (hlay : BlocksAgree B ∨ Q = [])
    (hscope : ∀ p ∈ Q, inScope B (descOf B g).addr p = false) (hlearn : Learned B i n e) : EnvInv B v0 n Q e := by
  -- the stored protection flag is the one shown where O2A skips
  have hskip : i = .o2a → n = .o3a → valueOf B v0 .bkpWpdis none = 1 := by
    rintro rfl hn
    exact (h.status .bkpWpdis none rfl).symm.trans (hlearn.unprotected rfl hn)
  refine h.advance hc hn (fun hp4 => by rw [hp4] at hr; cases hr) (fun f hf => ?_) fun S a ha => ?_
  · by_cases hflash : f = .flashWs
    · subst hflash
      by_cases hop : Instr.operand i = some .flashWs
      · rw [hg] at hop; cases hop
        exact (h.knows hf).flash_read (none_posted hlay hscope rfl) (flash_reads hr hg hc hn) hlearn
      · obtain ⟨hsame, h27⟩ := sameFlash_successor hop hc hn
        exact (h.knows hf).of_sameFlash hsame fun hn27 =>
          .inl ((h27 hn27).resolve_right fun hs => by rw [hs] at hr; cases hr)
    · rcases span_read hr hg hc hn hflash with ⟨rfl, rfl, rfl⟩ | hs
      · have hone := hskip rfl rfl
        refine (h.knows hf).mono (fun w hw => ?_) fun w hw => ?_
        · rw [MayHold, if_neg hflash] at hw ⊢
          exact .inl ((or_self_iff.1 hw).trans hone)
        · rw [LastAsked, if_neg hflash] at hw ⊢
          exact hw.trans hone
      · exact (h.knows hf).settles hflash hlay hscope hs
  · rcases statusAt_read hr hc hn ha with ha | ⟨V, hV, rfl⟩ | ⟨hi, hn, rfl, rfl⟩
    · exact h.status S a ha
    · exact hlearn.awaited S V hV
    · exact hlearn.unprotected hi hn

/-! ### After a write -/

/-- Between the halves of a SETF nothing is posted in the scope of its address, and `T` shows the block's fields there as
they are stored (R98). -/
structure Latched (B : BindingData) (A : Nat) (T : Word) (Q : List PostedWrite) (e : Env) : Prop where
  scope : ∀ p ∈ Q, inScope B A p = false
  word : ∀ f, f ∉ envFields B → (descOf B f).addr = A → fld (descOf B f) T = fieldVal B e.regs f

variable {A : Nat} {T : Word}

theorem Latched.addr_ne (h : Latched B A T Q e) {p : PostedWrite} (hp : p ∈ Q) : p.addr ≠ A := by
  intro ha
  have hin := inScope_self B p
  rw [ha, h.scope p hp] at hin; cases hin

/-- A write outside the scope of an address is outside its register block (R70). -/
theorem block_ne_of_not_inScope {p : PostedWrite} (h : inScope B A p = false) : blockOf B p.addr ≠ blockOf B A := by
  intro hb
  unfold inScope at h
  split at h
  · cases h
  · rw [hb] at h; exact absurd rfl (of_decide_eq_false h)

theorem Latched.block_ne (h : Latched B A T Q e) {p : PostedWrite} (hp : p ∈ Q) : blockOf B p.addr ≠ blockOf B A :=
  block_ne_of_not_inScope (h.scope p hp)

theorem Latched.apply (h : Latched B A T Q e) (hB : B.wf = true) {p : PostedWrite} (hp : p ∈ Q) (hpa : p.addr % 4 = 0)
    {l : List PostedWrite} (hl : ∀ q ∈ l, q ∈ Q) : Latched B A T l (applyWrite B e p) where
  scope q hq := h.scope q (hl q hq)
  word f hf ha := by
    rw [fieldVal_applyWrite_aligned hB hpa (by rw [ha]; exact (h.addr_ne hp).symm)]; exact h.word f hf ha

theorem Latched.calm (h : Latched B A T Q e) {e' : Env} (hc : Calm B e e') : Latched B A T Q e' where
  scope := h.scope
  word f hf ha := by rw [hc.owned f hf]; exact h.word f hf ha

/-- A write that changes the fields `W` of its register and no others joins the posted ones. -/
theorem EnvInv.post (h : EnvInv B v0 i Q e) {c : Code} (hc : c ∈ i.successors) (hn : decode c = some n)
    {p : PostedWrite} (hL : Latched B p.addr T Q e) (hpa : p.addr % 4 = 0)
    (hhigh : BlocksAgree B → blockOf B p.addr = .pwr → 3 ≤ Instr.rank n) (W : FieldId → Prop) (hlock : i = .p4 → ∀ q ∈ Q, (descOf B .pllCfg).addr ≠ q.addr)
    (hkeep : ∀ f, f ∉ envFields B → ¬ W f →
      ((descOf B f).addr = p.addr → fld (descOf B f) p.data = fieldVal B e.regs f) ∧ Knows B v0 n Q e f)
    (hwrite : ∀ f, f ∉ envFields B → W f → (descOf B f).addr = p.addr ∧ Unlocked B n f ∧
      MayHold B v0 n f (fieldVal B e.regs f) ∧ MayHold B v0 n f (fld (descOf B f) p.data) ∧
      LastAsked B v0 n f (fld (descOf B f) p.data))
    (hstatus : ∀ S a, statusAt (lsesysAliased B) n S = some a → current B e S = valueOf B v0 S.field a) :
    EnvInv B v0 n (Q ++ [p]) e := by
  have hmem : ∀ {q}, q ∈ Q ++ [p] → q ∈ Q ∨ q = p := fun {q} hq => by simpa using hq
  have hapart : ∀ {f q}, q ∈ Q → (descOf B f).addr = p.addr → (descOf B f).addr ≠ q.addr := fun {f q} hq ha hfq =>
    hL.addr_ne hq (hfq.symm.trans ha)
  exact {
    single := fun q hq r hr hb => by
      rcases hmem hq with hqQ | rfl <;> rcases hmem hr with hrQ | rfl
      · exact h.single q hqQ r hrQ hb
      · exact absurd hb (hL.block_ne hqQ)
      · exact absurd hb.symm (hL.block_ne hrQ)
      · rfl
    aligned := fun q hq => by
      rcases hmem hq with hq | rfl
      · exact h.aligned q hq
      · exact hpa
    tame := fun q hq f hf ha => by
      rcases hmem hq with hq | rfl
      · exact (h.tame q hq f hf ha).imp_right fun hu =>
          ⟨fun hd => (rank_marks hc hn).2 (hu.1 hd), fun hcfg => absurd (hcfg ▸ ha) (hlock (hu.2 hcfg) q hq)⟩
      · by_cases hW : W f
        · exact .inr (hwrite f hf hW).2.1
        · exact .inl ((hkeep f hf hW).1 ha)
    powered := fun hb q hq hpwr => by
      rcases hmem hq with hq | rfl
      · exact (rank_marks hc hn).1 (h.powered hb q hq hpwr)
      · exact hhigh hb hpwr
    may := fun f hf => by
      by_cases hW : W f
      · obtain ⟨ha, -, hst, hdata, -⟩ := hwrite f hf hW
        refine ⟨hst, fun q hq hfq => ?_⟩
        rcases hmem hq with hq | rfl
        · exact absurd hfq (hapart hq ha)
        · exact hdata
      · obtain ⟨hdata, ⟨hst, hpost⟩, -⟩ := hkeep f hf hW
        refine ⟨hst, fun q hq hfq => ?_⟩
        rcases hmem hq with hq | rfl
        · exact hpost q hq hfq
        · rw [hdata hfq]; exact hst
    last := fun f hf => by
      by_cases hW : W f
      · obtain ⟨ha, -, -, -, hdata⟩ := hwrite f hf hW
        refine ⟨fun q hq hfq => ?_, fun hnone => absurd ha (hnone p (by simp))⟩
        rcases hmem hq with hq | rfl
        · exact absurd hfq (hapart hq ha)
        · exact hdata
      · obtain ⟨hdata, -, hpost, hst⟩ := hkeep f hf hW
        refine ⟨fun q hq hfq => ?_, fun hnone => hst fun q hq => hnone q (by simp [hq])⟩
        rcases hmem hq with hq | rfl
        · exact hpost q hq hfq
        · rw [hdata hfq]; exact hst fun r hr => hapart hr hfq
    status := hstatus
    swsInit := h.swsInit }

/-- What the rows of the SETF steps over a field say of its protection and of its block (R75, R76, R245). -/
theorem unlocked_write {g : FieldId} {V : ValSel} {c : Code} (hw : Instr.writes i = some (g, V)) (hc : c ∈ i.successors)
    (hn : decode c = some n) :
    (g ∈ backupFields → 10 ≤ Instr.rank n) ∧ (g = .pllCfg → n = .p4) ∧ (blockColumn g = .pwr → 3 ≤ Instr.rank n) ∧
      g ≠ .lsesysFlag ∧ (i = .p4 → blockColumn g = .rcc) := by
  have hrows : ∀ i ∈ Instr.all, ∀ x ∈ Instr.writes i, ∀ c ∈ i.successors, ∀ n ∈ decode c,
      (x.1 ∈ backupFields → 10 ≤ Instr.rank n) ∧ (x.1 = .pllCfg → n = .p4) ∧
      (blockColumn x.1 = .pwr → 3 ≤ Instr.rank n) ∧ x.1 ≠ .lsesysFlag ∧ (i = .p4 → blockColumn x.1 = .rcc) := by decide
  exact hrows i (Instr.mem_all i) _ hw c hc n hn

/-- The steps that write the wait-states. -/
theorem flash_writes {V : ValSel} {c : Code} (hw : Instr.writes i = some (.flashWs, V)) (hc : c ∈ i.successors)
    (hn : decode c = some n) : V = .wsTarget ∧ (i = .s4b ∧ n = .s5 ∨ i = .s8b ∧ n = .s9a) := by
  have hrows : ∀ i ∈ Instr.all, ∀ x ∈ Instr.writes i, x.1 = .flashWs → ∀ c ∈ i.successors, ∀ n ∈ decode c,
      x.2 = .wsTarget ∧ (i = .s4b ∧ n = .s5 ∨ i = .s8b ∧ n = .s9a) := by decide
  exact hrows i (Instr.mem_all i) _ hw rfl c hc n hn

/-- The fields a SETF over `g` writes: `g`, and F_LSESYS_FLAG where it is the same bit (R36). -/
def WrittenWith (B : BindingData) (g f : FieldId) : Prop :=
  f = g ∨ (f = .lsesysFlag ∧ g = .lsesysEn ∧ lsesysAliased B = true)

theorem WrittenWith.descOf {g f : FieldId} (h : WrittenWith B g f) : descOf B f = descOf B g := by
  rcases h with rfl | ⟨rfl, rfl, hb⟩
  · rfl
  · exact of_decide_eq_true hb

theorem operand_of_writes {g : FieldId} {V : ValSel} (hw : Instr.writes i = some (g, V)) : Instr.operand i = some g := by
  have hrows : ∀ i ∈ Instr.all, ∀ x ∈ Instr.writes i, Instr.operand i = some x.1 := by decide
  exact hrows i (Instr.mem_all i) _ hw

/-- A write to another field than the wait-states leaves what is known of these; under ALL the switch is requested with
the target stored (R243). -/
theorem Knows.flash_write (h : Knows B v0 i Q e .flashWs) {g : FieldId} {V : ValSel} {c : Code}
    (hw : Instr.writes i = some (g, V)) (hg : g ≠ .flashWs) (hc : c ∈ i.successors) (hn : decode c = some n)
    (hL : Latched B A T Q e) : Knows B v0 n Q e .flashWs := by
  have hop : Instr.operand i ≠ some .flashWs := by rw [operand_of_writes hw]; simpa using hg
  obtain ⟨hsame, h27⟩ := sameFlash_successor hop hc hn
  by_cases hs : i = .s6a
  · cases hscope : B.drainScope with
    | target => exact h.of_sameFlash hsame fun _ => .inr hscope
    | all =>
      have hnil : ∀ p ∈ Q, False := fun p hp => by
        have hin := hL.scope p hp
        rw [inScope, hscope] at hin; cases hin
      have hl := h.2.2 fun p hp => (hnil p hp).elim
      have hrn : n = .s6b := by
        rw [hs, show Instr.successors .s6a = [0x42] from rfl, List.mem_singleton] at hc
        subst hc; exact (Option.some.inj hn).symm
      subst hs hrn
      simp only [LastAsked, if_pos] at hl
      refine .drained (fun p hp => (hnil p hp).elim) ?_ hl
      simp only [MayHold, if_pos]
      exact ⟨hl.2, fun _ _ => hl.1⟩
  · exact h.of_sameFlash hsame fun hr => .inl ((h27 hr).resolve_right hs)

/-- A SETF's write over a field leads to what the tables say of the next step (R98). -/
theorem EnvInv.write (h : EnvInv B v0 i Q e) (hB : B.wf = true) {g : FieldId} {V : ValSel} {c : Code}
    (hi : i.form = .setf (.field g) V c) (hn : decode c = some n) (hlay : BlocksAgree B ∨ Q = [])
    (hL : Latched B (descOf B g).addr T Q e) :
    EnvInv B v0 n (Q ++ [⟨(descOf B g).addr, ins (descOf B g) T (valOf B V)⟩]) e := by
  have hw : Instr.writes i = some (g, V) := by rw [Instr.writes, hi]
  have hc : c ∈ i.successors := by rw [successors_setf hi]; simp
  obtain ⟨hbackup, hcfg, hpwr, hflag, hrcc⟩ := unlocked_write hw hc hn
  refine h.post hc hn hL (wf_addr hB g).1 (fun hb hp => hpwr ((hb.1 g).symm.trans hp)) (WrittenWith B g)
    (fun hp4 => none_posted hlay hL.scope (hrcc hp4).symm) (fun f hf hW => ⟨fun ha => ?_, ?_⟩) (fun f hf hW => ?_)
    fun S a ha => h.status S a (statusAt_write (by rw [Instr.isSetf, hi]) hc hn ha)
  · have hne : f ≠ g := fun hfg => hW (.inl hfg)
    have hpair : mayAlias B f g = false := Bool.eq_false_iff.2 fun hm => by
      obtain ⟨⟨hf, hg⟩ | ⟨-, hg⟩, hb⟩ := (mayAlias_iff B f g).1 hm
      · exact hW (.inr ⟨hf, hg, hb⟩)
      · exact hflag hg
    exact (fld_ins_disjoint _ _ _ _ (masks_disjoint hB hne hpair ha)).trans (hL.word f hf ha)
  · by_cases hflash : f = .flashWs
    · subst hflash
      exact (h.knows hf).flash_write hw (fun hg => hW (.inl hg.symm)) hc hn hL
    · have hs := span_write hw hc hn hflash
      rw [if_neg] at hs
      · exact (h.knows hf).settles hflash hlay hL.scope hs
      · rintro (hfg | ⟨rfl, rfl⟩)
        · exact hW (.inl hfg)
        · refine hW (.inr ⟨rfl, rfl, ?_⟩)
          have hecho := (mem_envFields_iff B .lsesysFlag).not.1 hf
          simpa [isEcho] using hecho
  · have hdesc := hW.descOf
    have hnone : ∀ p ∈ Q, (descOf B f).addr ≠ p.addr := fun p hp => by rw [hdesc]; exact (hL.addr_ne hp).symm
    have hl := (h.last f hf).2 hnone
    have hdata : fld (descOf B f) (ins (descOf B g) T (valOf B V)) = valOf B V := by
      rw [hdesc]; exact fld_ins_same _ _ _ (wf_fits hB hi)
    refine ⟨by rw [hdesc], ⟨fun hd => ?_, fun hf => ?_⟩, ?_⟩
    · refine hbackup ?_
      rcases hW with rfl | ⟨-, rfl, -⟩
      · simpa [backupDomain, hflag] using hd
      · decide
    · rcases hW with rfl | ⟨rfl, -⟩
      · exact hcfg hf
      · cases hf
    · dsimp only
      rw [hdata]
      by_cases hflash : f = .flashWs
      · have hg : g = .flashWs := by
          rcases hW with rfl | ⟨rfl, -⟩
          · exact hflash
          · cases hflash
        subst hg hflash
        obtain ⟨rfl, ⟨rfl, rfl⟩ | ⟨rfl, rfl⟩⟩ := flash_writes hw hc hn
        · simp only [MayHold, LastAsked, if_pos] at hl ⊢
          have hlt := hl.2 rfl
          exact ⟨⟨by rw [hl.1], fun _ hr => absurd hr (by decide)⟩, ⟨hlt.le, fun _ hr => absurd hr (by decide)⟩,
            le_rfl, hlt.le⟩
        · simp only [MayHold, LastAsked, if_pos] at hl ⊢
          exact ⟨hl, le_rfl, rfl⟩
      · have hs := span_write hw hc hn hflash
        rw [if_pos (hW.imp_right fun hp => ⟨hp.1, hp.2.1⟩)] at hs
        simp only [MayHold, LastAsked, if_neg hflash, hs] at hl ⊢
        exact ⟨.inl hl, .inr rfl, rfl⟩

/-! ### DONE and G1 -/

/-- The tables do not tell DONE from G1, nor IDLE from S1A. -/
theorem EnvInv.same_row (h : EnvInv B v0 i Q e) (hin : (i = .done ∧ n = .g1) ∨ (i = .idle ∧ n = .s1a)) :
    EnvInv B v0 n Q e := by
  have hrows : ∀ x ∈ [(Instr.done, Instr.g1), (.idle, .s1a)], encode x.2 ∈ x.1.successors ∧ x.1 ≠ .p4 ∧
      Instr.operand x.1 ≠ some .flashWs ∧ x.1 ≠ .s6a ∧ (∀ f ∈ FieldId.all, span x.2 f = span x.1 f) ∧
      ∀ b : Bool, ∀ S ∈ StatusId.all, statusAt b x.2 S = statusAt b x.1 S := by decide
  obtain ⟨hc, hp4, hop, hs6a, hspan, hstatus⟩ := hrows (i, n) (by rcases hin with ⟨rfl, rfl⟩ | ⟨rfl, rfl⟩ <;> simp)
  obtain ⟨hsame, h27⟩ := sameFlash_successor hop hc (decode_encode n)
  refine h.advance hc (decode_encode n) (fun h4 => absurd h4 hp4) (fun f hf => ?_) fun S a ha =>
    h.status S a ((hstatus _ S (StatusId.mem_all S)).symm.trans ha)
  by_cases hflash : f = .flashWs
  · subst hflash
    exact (h.knows hf).of_sameFlash hsame fun hr => .inl ((h27 hr).resolve_right hs6a)
  · exact (h.knows hf).of_span hflash (hspan f (FieldId.mem_all f))

/-- Bits set outside a mask are not seen under it. -/
theorem or_and_of_disjoint {w x m : Word} (h : m &&& x = 0) : (w ||| x) &&& m = w &&& m := by
  ext k hk
  have hb : (m &&& x)[k] = false := by rw [h]; simp
  rw [BitVec.getElem_and] at hb
  simp only [BitVec.getElem_and, BitVec.getElem_or]
  revert hb
  cases m[k] <;> simp +contextual

/-- A set bit stays set, whatever bit a gate request sets. -/
theorem fld_or_of_bit {D : Descriptor} (hD : MaskFromPos D) (hbit : D.mask = (1 : Word) <<< D.pos.toNat) {w : Word}
    (hw : fld D w = 1) (x : Word) : fld D (w ||| x) = fld D w := by
  have hone : ∀ k : BitPos, ((1 : Word) <<< k.toNat) >>> k.toNat = 1 := by decide
  have hmask : fld D D.mask = 1 := by rw [fld, BitVec.and_self, hbit]; exact hone D.pos
  have hset : w &&& D.mask = D.mask := by
    rw [and_mask_of_fld hD (hw.trans hmask.symm), BitVec.and_self]
  refine fld_congr D _ _ ?_
  ext k hk
  have hb : (w &&& D.mask)[k] = D.mask[k] := by rw [hset]
  simp only [BitVec.getElem_and, BitVec.getElem_or] at hb ⊢
  revert hb
  cases D.mask[k] <;> simp +contextual

/-- A gate request's write changes no field (R192, R194). -/
theorem EnvInv.gate (h : EnvInv B v0 .g1 Q e) (hB : B.wf = true) (hgates : GateBitsApart B) (hwidths : WidthsAgree B)
    {g : GateEntry} (hg : g ∈ B.gateTable) (hrcc : BlocksAgree B → blockOf B (B.bankAddr.get g.bank) = .rcc)
    (hL : Latched B (B.bankAddr.get g.bank) T Q e) :
    EnvInv B v0 .done (Q ++ [⟨B.bankAddr.get g.bank, T ||| (1 : Word) <<< g.bit⟩]) e := by
  have hrows : (0x1F : Code) ∈ Instr.successors .g1 ∧ (∀ f ∈ FieldId.all, span .done f = span .g1 f) ∧
      ∀ b : Bool, ∀ S ∈ StatusId.all, statusAt b .done S = statusAt b .g1 S := by decide
  obtain ⟨hc, hspan, hstatus⟩ := hrows
  refine h.post hc rfl hL (wf_bankAddr hB _).1 (fun hb hp => by rw [hrcc hb] at hp; cases hp) (fun _ => False)
    (fun h4 => by cases h4) (fun f hf _ => ⟨fun ha => ?_, ?_⟩) (fun f _ hW => hW.elim) fun S a ha =>
      h.status S a ((hstatus _ S (StatusId.mem_all S)).symm.trans ha)
  · rw [← hL.word f hf ha]
    by_cases hpwr : f = .pwrclkEn
    · subst hpwr
      refine fld_or_of_bit (wf_maskFromPos hB _) (hwidths _ rfl) ?_ _
      rw [hL.word _ hf ha]; exact h.pwrclkEn (by decide) (by decide)
    · exact fld_congr _ _ _ (or_and_of_disjoint (hgates g hg f hpwr ha))
  · by_cases hflash : f = .flashWs
    · subst hflash
      have hsame : SameFlash (Instr.rank .g1) (Instr.rank .done) := by unfold SameFlash; decide
      exact (h.knows hf).of_sameFlash hsame fun _ => .inl (by decide)
    · exact (h.knows hf).of_span hflash (hspan f (FieldId.mem_all f))

end

end Sys2Proof.Machine
end

section
/-! PROOFS. The invariant of a run: where the block is, what is known of the registers there, and that no violation has been
flagged (70_reset_and_hazards R241 to R246). -/

namespace Sys2Proof.Machine

/-- What a run of the binding `b`, whose registers started with the values `v0`, keeps while the block is in the step `i`,
or in HALT after a timeout there. `off` says that other masters keep off the PWR block. -/
structure RunInv (b : Binding) (v0 : FieldId → Word) (off : Prop) (i : Instr) (s : State) : Prop where
  binding : s.binding = b
  place : s.ST = encode i ∨ (s.ST = 0x1E ∧ s.PH = false ∧ i.isWait = true)
  running : i ≠ .halt
  rst : s.ports.rst = false
  phase : s.PH = true → i.isSetf = true
  latch : s.PH = true → Latched b.data (readAddr i s) s.T s.env.posted s.env
  gate : i = .g1 → ∃ g ∈ b.data.gateTable, s.GA = b.data.bankAddr.get g.bank ∧ s.GB = BitVec.ofNat 5 g.bit
  late : s.DN = true → 33 ≤ Instr.rank i
  sound : Sound b.data v0 off i s.env.posted s.env
  layout : BlocksAgree b.data ∨ s.env.posting = false
  immediate : s.env.posting = false → s.env.posted = []

/-! ### What a read shows -/

section
variable {B : BindingData} {v0 : FieldId → Word} {i : Instr} {Q : List PostedWrite} {e : Env} (hB : B.wf = true)
include hB

/-- A read shows what a status field shows (R80 (f)). -/
theorem fld_answer_status (e : Env) (S : StatusId) :
    fld (descOf B S.field) (answer B e (descOf B S.field).addr) = current B e S := by
  cases hS : isEcho B S with
  | true => exact fld_answer_echo hB e hS
  | false =>
    simp only [current, hS, Bool.false_eq_true, if_false]
    refine fld_answer_stored hB e fun R hR => descOf_ne hB (fun hRS => ?_) (mayAlias_status B R S)
    rw [StatusId.field_injective hRS, hS] at hR; cases hR

/-- A read shows the stored wait-states. -/
theorem fld_answer_flashWs (e : Env) :
    fld (descOf B .flashWs) (answer B e (descOf B .flashWs).addr) = fieldVal B e.regs .flashWs := by
  refine fld_answer_stored hB e fun S _ => descOf_ne hB (by cases S <;> simp [StatusId.field]) ?_
  refine Bool.eq_false_iff.2 fun hm => ?_
  obtain ⟨⟨-, hf⟩ | ⟨-, hf⟩, -⟩ := (mayAlias_iff B _ _).1 hm <;> cases hf

/-- Before a SETF's write the word read shows every field of the block as it is stored: each echo field has been seen to
show its stored value by then (R37). -/
theorem EnvInv.fld_answer_owned (h : EnvInv B v0 i Q e) (hv : StartValues B v0) (hi : i.isSetf = true) {f : FieldId} :
    fld (descOf B f) (answer B e (descOf B f).addr) = fieldVal B e.regs f := by
  have hrun : i ≠ .halt := fun hq => by rw [hq] at hi; cases hi
  by_cases hecho : ∃ S, isEcho B S = true ∧ descOf B S.field = descOf B f
  · obtain ⟨S, hS, hdesc⟩ := hecho
    have hkind : S = .bkpWpdis ∨ S = .lseOn ∨ (S = .lsesysFlag ∧ lsesysAliased B = true) := by
      cases S <;> simp_all [isEcho]
    obtain ⟨a, ha⟩ := statusAt_setf hi hkind
    have hstored : Machine.target B e S = fieldVal B e.regs f := by
      have hdriver : Machine.target B e S = fieldVal B e.regs (driver S) := by
        rcases hkind with rfl | rfl | ⟨rfl, -⟩ <;> rfl
      have hsame : descOf B (driver S) = descOf B S.field := by
        rcases hkind with rfl | rfl | ⟨rfl, hb⟩
        · rfl
        · rfl
        · exact (of_decide_eq_true hb).symm
      rw [hdriver, fieldVal, hsame, hdesc]; rfl
    rw [← hdesc, fld_answer_echo hB e hS, h.status S a ha, ← h.target hv hrun ha, hstored]
  · exact fld_answer_stored hB e fun S hS hd => hecho ⟨S, hS, hd⟩

end

/-! ### Acts of the other agents -/

section
variable {b : Binding} {v0 : FieldId → Word} {off : Prop} {i : Instr} {s : State}

/-- A quiet change of the environment keeps the invariant. -/
theorem RunInv.calm (h : RunInv b v0 off i s) (hv : StartValues b.data v0) {e' : Env} (hc : Calm b.data s.env e')
    (hposted : e'.posted = s.env.posted) (hposting : e'.posting = s.env.posting)
    (hpwr : off → e'.violPwrclk = s.env.violPwrclk) : RunInv b v0 off i { s with env := e' } :=
  { h with
    latch := fun hph => by
      show Latched b.data (readAddr i s) s.T e'.posted e'
      rw [hposted]; exact (h.latch hph).calm hc
    sound := by
      show Sound b.data v0 off i e'.posted e'
      rw [hposted]; exact h.sound.calm b.ok hv h.running hc hpwr
    layout := h.layout.imp_right fun hl => hposting.trans hl
    immediate := fun hp => hposted.trans (h.immediate (hposting.symm.trans hp)) }

theorem Latched.applyOldest {B : BindingData} {A : Nat} {T : Word} {e : Env} (h : Latched B A T e.posted e)
    (hB : B.wf = true) (hal : ∀ p ∈ e.posted, p.addr % 4 = 0) (c : RegBlock) :
    Latched B A T (applyOldest B c e).posted (applyOldest B c e) := by
  unfold Machine.applyOldest
  cases hf : e.posted.find? (inClass B c) with
  | none => exact h
  | some p =>
    have hp := List.mem_of_find?_eq_some hf
    simp only [applyWrite_posted]
    exact (h.calm (calm_withPosted (e.posted.eraseP (inClass B c)))).apply hB hp (hal p hp) fun q => List.mem_of_mem_eraseP

/-- The environment's oldest posted write keeps the invariant. -/
theorem RunInv.applyOldest (h : RunInv b v0 off i s) (hv : StartValues b.data v0) (hoff : off → BlocksAgree b.data)
    (c : RegBlock) : RunInv b v0 off i { s with env := applyOldest b.data c s.env } := by
  have hposting := (applyOldest_keeps b.data c s.env).posting
  exact { h with
    latch := fun hph => (h.latch hph).applyOldest b.ok h.sound.inv.aligned c
    sound := h.sound.applyOldest b.ok hv h.running hoff c
    layout := h.layout.imp_right fun hl => hposting.trans hl
    immediate := fun hp => by
      have hnil := h.immediate (hposting.symm.trans hp)
      have hid : Machine.applyOldest b.data c s.env = s.env := by rw [Machine.applyOldest, hnil]; rfl
      show (Machine.applyOldest b.data c s.env).posted = []
      rw [hid, hnil] }

/-- What a run asks of an act of another agent. -/
structure Allowed (off : Prop) (s : State) (a : Act) : Prop where
  hold : EnvHold s a
  ro : EnvRo s a
  sole : SoleSoFar s a
  noReset : NoReset a
  offPower : off → OffPowerBlock s a

/-- An act of another agent under the premises of R78 keeps the invariant. -/
theorem RunInv.agent (h : RunInv b v0 off i s) (hv : StartValues b.data v0) (hoff : off → BlocksAgree b.data) {a : Act}
    (ha : a ≠ .edge) (hok : Allowed off s a) : RunInv b v0 off i (actOf a s) := by
  obtain rfl := h.binding
  cases a with
  | edge => exact absurd rfl ha
  | setRst level => exact { h with rst := hok.noReset }
  | setStart level | setAck level => exact { h with }
  | gateRequest id =>
    rw [actOf, requestGate_eq]
    refine { h with rst := ?_ }
    show Ports.rst (if s.ports.gateReq = true then _ else _) = false
    split <;> exact h.rst
  | applyPosted c => exact h.applyOldest hv hoff c
  | settle S =>
    exact h.calm hv (calm_settle s.binding.ok S) (settle_posted _ S _) (settle_keeps _ S _).posting fun _ =>
      settle_violPwrclk _ S _
  | status S v =>
    exact h.calm hv (calm_setStatus s.binding.ok hok.ro) (setCurrent_posted _ _ S v) (setStatus_keeps _ S v _).posting
      fun _ => setCurrent_violPwrclk _ _ S v
  | otherWrite a w =>
    refine h.calm hv (calm_otherWrite hok.sole) (applyWrite_posted _ _ _) (applyWrite_keeps _ _ _).posting fun ho => ?_
    rw [applyWrite_violPwrclk, decide_eq_false (hok.offPower ho), Bool.false_and, Bool.or_false]
  | poke a w => exact h.calm hv (calm_pokeReg hok.hold hok.ro) rfl rfl fun _ => rfl

/-! ### The block's moves -/

/-- A read of the PWR block comes after step 1 (R245). -/
theorem rank_of_pwr_read {B : BindingData} {g : FieldId} (hg : Instr.operand i = some g) (hb : BlocksAgree B)
    (hpwr : blockOf B (descOf B g).addr = .pwr) : 3 ≤ Instr.rank i := by
  have hrows : ∀ i ∈ Instr.all, ∀ g ∈ Instr.operand i, blockColumn g = .pwr → 3 ≤ Instr.rank i := by decide
  exact hrows i (Instr.mem_all i) g hg ((hb.1 g).symm.trans hpwr)

/-- The environment's side of the read that a step issues keeps what the run knows. -/
theorem RunInv.read (h : RunInv b v0 off i s) (hv : StartValues b.data v0) (hoff : off → BlocksAgree b.data) {a : Nat}
    (hpwr : BlocksAgree b.data → blockOf b.data a = .pwr → 3 ≤ Instr.rank i) :
    Sound b.data v0 off i (memRead a s).env.posted (memRead a s).env ∧
      (BlocksAgree b.data ∨ (memRead a s).env.posted = []) ∧
      (BlocksAgree b.data ∨ (memRead a s).env.posting = false) ∧
      ((memRead a s).env.posting = false → (memRead a s).env.posted = []) := by
  obtain rfl := h.binding
  have hkeeps := (serveRead_keeps s.bind a s.env).posting
  have himm : (memRead a s).env.posting = false → (memRead a s).env.posted = [] := fun hp => by
    show (serveRead s.bind a s.env).posted = []
    rw [serveRead_posted, h.immediate (hkeeps.symm.trans hp)]; rfl
  have hlay : BlocksAgree s.bind ∨ (memRead a s).env.posting = false := h.layout.imp_right fun hl => hkeeps.trans hl
  exact ⟨h.sound.serveRead s.binding.ok hv h.running hoff fun ho => hpwr (hoff ho), hlay.imp_right himm, hlay, himm⟩

/-- A read that leaves the block in its step: another poll, or the read half of a SETF. -/
theorem RunInv.stay (h : RunInv b v0 off i s) (hv : StartValues b.data v0) (hoff : off → BlocksAgree b.data) {a : Nat}
    (hpwr : BlocksAgree b.data → blockOf b.data a = .pwr → 3 ≤ Instr.rank i) {t : State}
    (ht : t = { memRead a s with ST := t.ST, PH := t.PH, PCNT := t.PCNT, FAIL := t.FAIL, TO := t.TO })
    (hplace : t.ST = encode i ∨ (t.ST = 0x1E ∧ t.PH = false ∧ i.isWait = true)) (hphase : t.PH = true → i.isSetf = true)
    (haddr : t.PH = true → readAddr i s = a) : RunInv b v0 off i t := by
  obtain ⟨hsound, -, hlay, himm⟩ := h.read hv hoff hpwr
  obtain rfl := h.binding
  rw [ht]
  exact {
    binding := rfl
    place := hplace
    running := h.running
    rst := h.rst
    phase := hphase
    latch := fun hph => by
      show Latched s.bind (readAddr i s) (memRead a s).T (memRead a s).env.posted (memRead a s).env
      rw [haddr hph]
      refine ⟨fun p hp => ?_, fun f _ ha => ?_⟩
      · replace hp : p ∈ (serveRead s.bind a s.env).posted := hp
        rw [serveRead_posted] at hp
        simpa using (List.mem_filter.1 hp).2
      · have hword := hsound.inv.fld_answer_owned s.binding.ok hv (hphase hph) (f := f)
        rw [ha] at hword
        exact hword
    gate := h.gate
    late := h.late
    sound := hsound
    layout := hlay
    immediate := himm }

/-- A read that completes its step. -/
theorem RunInv.goOn (h : RunInv b v0 off i s) (hv : StartValues b.data v0) (hoff : off → BlocksAgree b.data)
    {g : FieldId} {c : Code} {n : Instr} (hr : Instr.readsOnly i = true) (hg : Instr.operand i = some g) (hc : c ∈ i.successors)
    (hn : decode c = some n) (hlearn : Learned b.data i n (memRead (descOf b.data g).addr s).env) :
    RunInv b v0 off n (goto c (memRead (descOf b.data g).addr s)) := by
  obtain ⟨hsound, hnil, hlay, himm⟩ := h.read hv hoff (rank_of_pwr_read hg)
  obtain rfl := h.binding
  obtain ⟨hctrl, hset⟩ := (Instr.readsOnly_iff i).1 hr
  have hph : s.PH = false := Bool.eq_false_iff.2 fun hph => by rw [h.phase hph] at hset; cases hset
  obtain ⟨hhalt, hg1, -⟩ := successor_row hctrl hc
  have hcode := encode_of_decode hn
  have hscope : ∀ p ∈ (memRead (descOf s.bind g).addr s).env.posted,
      inScope s.bind (descOf s.bind g).addr p = false := by
    intro p hp
    replace hp : p ∈ (serveRead s.bind (descOf s.bind g).addr s.env).posted := hp
    rw [serveRead_posted] at hp
    simpa using (List.mem_filter.1 hp).2
  have hinv := hsound.inv.read hr hg hc hn hnil hscope hlearn
  exact {
    binding := rfl
    place := .inl hcode.symm
    running := fun hq => hhalt (by rw [← hcode, hq]; rfl)
    rst := h.rst
    phase := fun hq => by rw [goto_PH, memRead_PH, hph] at hq; cases hq
    latch := fun hq => by rw [goto_PH, memRead_PH, hph] at hq; cases hq
    gate := fun hq => absurd (by rw [← hcode, hq]; rfl) hg1
    late := fun hd => by
      have hrow : ∀ i ∈ Instr.all, Instr.readsOnly i = true → Instr.rank i < 33 := by decide
      exact absurd (h.late hd) (by have := hrow i (Instr.mem_all i) hr; omega)
    sound := { hsound with inv := hinv }
    layout := hlay
    immediate := himm }

/-- An accepted write keeps what the run knows once it is posted. -/
theorem Sound.acceptWrite {B : BindingData} {n : Instr} {e : Env} {p : PostedWrite}
    (h : Sound B v0 off n (e.posted ++ [p]) e) (hB : B.wf = true) (hv : StartValues B v0) (hn : n ≠ .halt)
    (hoff : off → BlocksAgree B) (himm : e.posting = false → e.posted = []) :
    Sound B v0 off n (acceptWrite B p e).posted (acceptWrite B p e) := by
  cases hp : e.posting with
  | true =>
    rw [acceptWrite_posting B p hp]
    exact h.calm hB hv hn (calm_withPosted _) fun _ => rfl
  | false =>
    have hnil := himm hp
    rw [acceptWrite_immediate B p hp, drain_of_empty B _ e hnil, applyWrite_posted, hnil]
    exact h.apply hB hv hn hoff (by simp) fun q => by simp [hnil]

/-- An acknowledged write half leads to the next step. -/
theorem RunInv.writeHalf (h : RunInv b v0 off i s) (hv : StartValues b.data v0) (hoff : off → BlocksAgree b.data)
    {F : FieldRef} {V : ValSel} {c : Code} {n : Instr} (hi : i.form = .setf F V c) (hn : decode c = some n)
    (hinv : EnvInv b.data v0 n (s.env.posted ++ [⟨(resolve s F).addr, ins (resolve s F) s.T (valOf s.bind V)⟩]) s.env) :
    RunInv b v0 off n (setfWrite (resolve s F) (valOf s.bind V) c (finishOf i) s) := by
  obtain rfl := h.binding
  have hc : c ∈ i.successors := by rw [successors_setf hi]; simp
  obtain ⟨hhalt, hg1, hdone⟩ := successor_row (by rw [hi]; simp) hc
  have hcode := encode_of_decode hn
  have hrun : n ≠ .halt := fun hq => hhalt (by rw [← hcode, hq]; rfl)
  have hfin : ∀ x : State, (finishOf i x).PH = x.PH ∧ (finishOf i x).ports.rst = x.ports.rst ∧
      ((finishOf i x).DN = true → x.DN = true ∨ i = .s9b) := fun x => by
    cases i <;> first | exact ⟨rfl, rfl, .inl⟩ | exact ⟨rfl, rfl, fun _ => .inr rfl⟩
  have henv := setfWrite_env (resolve s F) (valOf s.bind V) c i s
  obtain ⟨hnot, hrst, hDN⟩ : (setfWrite (resolve s F) (valOf s.bind V) c (finishOf i) s).PH = false ∧
      (setfWrite (resolve s F) (valOf s.bind V) c (finishOf i) s).ports.rst = s.ports.rst ∧
      ((setfWrite (resolve s F) (valOf s.bind V) c (finishOf i) s).DN = true → s.DN = true ∨ i = .s9b) := hfin _
  generalize (⟨(resolve s F).addr, ins (resolve s F) s.T (valOf s.bind V)⟩ : PostedWrite) = p at hinv henv
  have hkeeps := (acceptWrite_keeps s.bind p s.env).posting
  have himm : (Machine.acceptWrite s.bind p s.env).posting = false → (Machine.acceptWrite s.bind p s.env).posted = [] :=
    fun hp => by
      have hpost := hkeeps.symm.trans hp
      have hnil := h.immediate hpost
      rw [acceptWrite_immediate _ _ hpost, drain_of_empty _ _ _ hnil, applyWrite_posted, hnil]
  exact {
    binding := setfWrite_binding _ _ _ _ _
    place := .inl (by rw [setfWrite, finishOf_ST, hcode]; rfl)
    running := hrun
    rst := hrst.trans h.rst
    phase := fun hq => by rw [hnot] at hq; cases hq
    latch := fun hq => by rw [hnot] at hq; cases hq
    gate := fun hq => absurd (by rw [← hcode, hq]; rfl) hg1
    late := fun hd => by
      have hcdone : c = 0x1F := by
        rcases hDN hd with hd | hi9
        · have hrow : ∀ i ∈ Instr.all, i.isSetf = true → 33 ≤ Instr.rank i → i = .g1 := by decide
          exact hdone.2 (.inr (hrow i (Instr.mem_all i) (by rw [Instr.isSetf, hi]) (h.late hd)))
        · exact hdone.2 (.inl hi9)
      subst hcdone
      cases hn; decide
    sound := by
      rw [henv]
      exact Sound.acceptWrite { h.sound with inv := hinv } s.binding.ok hv hrun hoff h.immediate
    layout := by rw [henv]; exact h.layout.imp_right fun hl => hkeeps.trans hl
    immediate := by rw [henv]; exact himm }

/-- The reading steps read a field; only G1 is about a computed descriptor (R97, R110). -/
theorem field_of_read {F : FieldRef} (hr : Instr.readsOnly i = true)
    (hF : Instr.operand i = (match F with | .field g => some g | .gate => none)) :
    ∃ g, F = .field g ∧ Instr.operand i = some g := by
  have hrows : ∀ i ∈ Instr.all, Instr.readsOnly i = true → (Instr.operand i).isSome = true := by decide
  cases F with
  | field g => exact ⟨g, rfl, hF⟩
  | gate =>
    have hsome := hrows i (Instr.mem_all i) hr
    rw [hF] at hsome; cases hsome

/-- The bank register a gate step addresses, and the word it writes there (R110, R192). -/
theorem gate_operand {B : BindingData} (hB : B.wf = true) {g : GateEntry} (hg : g ∈ B.gateTable) (w : Word) :
    (gateDesc B (B.bankAddr.get g.bank) (BitVec.ofNat 5 g.bit)).addr = B.bankAddr.get g.bank ∧
    ins (gateDesc B (B.bankAddr.get g.bank) (BitVec.ofNat 5 g.bit)) w 1 = w ||| (1 : Word) <<< g.bit := by
  refine ⟨Nat.mod_eq_of_lt (wf_bankAddr hB _).2, ?_⟩
  rw [ins_gateDesc, BitVec.toNat_ofNat, Nat.mod_eq_of_lt (show g.bit < 2 ^ 5 from wf_gateBit hB hg)]

/-- The write half of a SETF keeps the invariant (R98, R192). -/
theorem RunInv.writes (h : RunInv b v0 off i s) (hv : StartValues b.data v0) (hoff : off → BlocksAgree b.data)
    (hgates : i = .g1 → GateBitsApart b.data ∧ WidthsAgree b.data) {F : FieldRef} {V : ValSel} {c : Code}
    (hi : i.form = .setf F V c) (hph : s.PH = true) :
    ∃ n, RunInv b v0 off n (setfWrite (resolve s F) (valOf s.bind V) c (finishOf i) s) := by
  have hc : c ∈ i.successors := by rw [successors_setf hi]; simp
  obtain ⟨n, hn⟩ := Option.isSome_iff_exists.1 (listed_of_successor hc)
  have hlatch := h.latch hph
  rw [readAddr, hi] at hlatch
  refine ⟨n, h.writeHalf hv hoff hi hn ?_⟩
  obtain rfl := h.binding
  cases F with
  | field g => exact h.sound.inv.write s.binding.ok hi hn (h.layout.imp_right h.immediate) hlatch
  | gate =>
    have hg1 : i = .g1 := by cases i <;> first | rfl | cases hi
    subst hg1
    cases hi
    cases hn
    obtain ⟨g, hg, hGA, hGB⟩ := h.gate rfl
    obtain ⟨hgb, hw⟩ := hgates rfl
    obtain ⟨haddr, hins⟩ := gate_operand s.binding.ok hg s.T
    simp only [resolve, hGA, hGB] at hlatch ⊢
    rw [haddr] at hlatch ⊢
    rw [show valOf s.bind .one = 1 from rfl, hins]
    exact h.sound.inv.gate s.binding.ok hgb hw hg (fun hb => hb.2 g.bank) hlatch

/-- Every outcome of the step that the block is in keeps the invariant. -/
theorem RunInv.blockMove (h : RunInv b v0 off i s) (hv : StartValues b.data v0) (hoff : off → BlocksAgree b.data)
    (hgates : i = .g1 → GateBitsApart b.data ∧ WidthsAgree b.data) (hat : s.ST = encode i) {t : State}
    (hm : BlockMove i s t) : ∃ n, RunInv b v0 off n t := by
  have hpoll : i.isWait = true → s.PH = false := fun hw => Bool.eq_false_iff.2 fun hph => by
    have hset := h.phase hph
    unfold Instr.isWait at hw; unfold Instr.isSetf at hset
    split at hw
    · next hf => rw [hf] at hset; cases hset
    · cases hw
  obtain rfl := h.binding
  cases hm with
  | still => exact ⟨i, h⟩
  | @readHalf F V n hi hack hph =>
    refine ⟨i, h.stay (a := (resolve s F).addr) hv hoff (fun hb hp => ?_) rfl (.inl hat)
      (fun _ => by rw [Instr.isSetf, hi]) fun _ => by rw [readAddr, hi]⟩
    cases F with
    | field g => exact rank_of_pwr_read (by rw [Instr.operand, hi]) hb hp
    | gate =>
      have hg1 : i = .g1 := by cases i <;> first | rfl | cases hi
      rw [hg1]; decide
  | writeHalf hi hack hph => exact h.writes hv hoff hgates hi hph
  | @readBack F n hi hack =>
    have hr : Instr.readsOnly i = true := (Instr.readsOnly_iff i).2 ⟨by rw [hi]; simp, by rw [Instr.isSetf, hi]⟩
    obtain ⟨g, rfl, hg⟩ := field_of_read (F := F) hr (by rw [Instr.operand, hi]; cases F <;> rfl)
    have hc : n ∈ i.successors := by rw [successors_rdbk hi]; simp
    obtain ⟨j, hj⟩ := Option.isSome_iff_exists.1 (listed_of_successor hc)
    refine ⟨j, h.goOn hv hoff hr hg hc hj ⟨fun S V hS => ?_, ?_, ?_, ?_, ?_⟩⟩
    · rw [Instr.awaits, hi] at hS; cases hS
    all_goals rintro rfl; cases hi
  | @found F V n hi hack hmatch =>
    have hr : Instr.readsOnly i = true := (Instr.readsOnly_iff i).2 ⟨by rw [hi]; simp, by rw [Instr.isSetf, hi]⟩
    obtain ⟨g, rfl, hg⟩ := field_of_read (F := F) hr (by rw [Instr.operand, hi]; cases F <;> rfl)
    have hc : n ∈ i.successors := by rw [successors_wait hi]; simp
    obtain ⟨j, hj⟩ := Option.isSome_iff_exists.1 (listed_of_successor hc)
    refine ⟨j, h.goOn hv hoff hr hg hc hj ⟨fun S V' hS => ?_, ?_, ?_, ?_, ?_⟩⟩
    · simp only [Instr.awaits, hi] at hS
      split at hS
      · next hgS => subst hgS; cases hS; rw [← hmatch]; exact (fld_answer_status s.binding.ok _ S).symm
      · cases hS
    all_goals rintro rfl; cases hi
  | @again F V n hi hack =>
    have hw : i.isWait = true := by rw [Instr.isWait, hi]
    have hr : Instr.readsOnly i = true := (Instr.readsOnly_iff i).2 ⟨by rw [hi]; simp, by rw [Instr.isSetf, hi]⟩
    obtain ⟨g, rfl, hg⟩ := field_of_read (F := F) hr (by rw [Instr.operand, hi]; cases F <;> rfl)
    exact ⟨i, h.stay (a := (descOf s.bind g).addr) hv hoff (rank_of_pwr_read hg) rfl (.inl hat) h.phase fun hph =>
      absurd ((hpoll hw).symm.trans hph) (by decide)⟩
  | @count F V n hi hack =>
    have hw : i.isWait = true := by rw [Instr.isWait, hi]
    have hr : Instr.readsOnly i = true := (Instr.readsOnly_iff i).2 ⟨by rw [hi]; simp, by rw [Instr.isSetf, hi]⟩
    obtain ⟨g, rfl, hg⟩ := field_of_read (F := F) hr (by rw [Instr.operand, hi]; cases F <;> rfl)
    exact ⟨i, h.stay (a := (descOf s.bind g).addr) hv hoff (rank_of_pwr_read hg) rfl (.inl hat) h.phase fun hph =>
      absurd ((hpoll hw).symm.trans hph) (by decide)⟩
  | @timeout F V n hi hack =>
    have hw : i.isWait = true := by rw [Instr.isWait, hi]
    have hr : Instr.readsOnly i = true := (Instr.readsOnly_iff i).2 ⟨by rw [hi]; simp, by rw [Instr.isSetf, hi]⟩
    obtain ⟨g, rfl, hg⟩ := field_of_read (F := F) hr (by rw [Instr.operand, hi]; cases F <;> rfl)
    exact ⟨i, h.stay (a := (descOf s.bind g).addr) hv hoff (rank_of_pwr_read hg) rfl (.inr ⟨rfl, rfl, hw⟩)
      (fun hph => by cases hph) fun hph => by cases hph⟩
  | skipEq hi hack =>
    have ho : i = .o2a := by cases i <;> first | rfl | cases hi
    subst ho
    cases hi
    split
    · next hskip =>
      refine ⟨.o3a, h.goOn (g := .bkpWpdis) hv hoff rfl rfl (by decide) rfl
        ⟨fun S V hS => (by cases hS), fun _ _ => ?_, by simp, by simp, by simp⟩⟩
      exact (fld_answer_status s.binding.ok _ .bkpWpdis).symm.trans hskip
    · exact ⟨.o2b, h.goOn (g := .bkpWpdis) hv hoff rfl rfl (by decide) rfl
        ⟨fun S V hS => (by cases hS), by simp, by simp, by simp, by simp⟩⟩
  | skipGe hi hack =>
    have ho : i = .s4a := by cases i <;> first | rfl | cases hi
    subst ho
    cases hi
    split
    · next hskip =>
      refine ⟨.s5, h.goOn (g := .flashWs) hv hoff rfl rfl (by decide) rfl
        ⟨fun S V hS => (by cases hS), by simp, by simp, fun _ _ => ?_, by simp⟩⟩
      rw [← fld_answer_flashWs s.binding.ok]; exact hskip
    · next hskip =>
      refine ⟨.s4b, h.goOn (g := .flashWs) hv hoff rfl rfl (by decide) rfl
        ⟨fun S V hS => (by cases hS), by simp, fun _ _ => ?_, by simp, by simp⟩⟩
      rw [← fld_answer_flashWs s.binding.ok]; exact Nat.lt_of_not_le hskip
  | skipLe hi hack =>
    have ho : i = .s8a := by cases i <;> first | rfl | cases hi
    subst ho
    cases hi
    split
    · next hskip =>
      refine ⟨.s9a, h.goOn (g := .flashWs) hv hoff rfl rfl (by decide) rfl
        ⟨fun S V hS => (by cases hS), by simp, by simp, by simp, fun _ _ => ?_⟩⟩
      rw [← fld_answer_flashWs s.binding.ok]; exact hskip
    · exact ⟨.s8b, h.goOn (g := .flashWs) hv hoff rfl rfl (by decide) rfl
        ⟨fun S V hS => (by cases hS), by simp, by simp, by simp, by simp⟩⟩
  | start hi hstart =>
    subst hi
    exact ⟨.s1a, { h with
      place := .inl rfl, running := (by decide), phase := fun hq => (by cases hq), latch := fun hq => (by cases hq)
      gate := fun hq => by cases hq
      late := fun hd => absurd (h.late hd) (by decide)
      sound := { h.sound with inv := h.sound.inv.same_row (.inr ⟨rfl, rfl⟩) } }⟩
  | @hit g hi hreq hg =>
    subst hi
    exact ⟨.g1, { h with
      place := .inl rfl, running := (by decide), phase := fun hq => (by cases hq), latch := fun hq => (by cases hq)
      gate := fun _ => ⟨g, (gateLookup_mem hg).1, rfl, rfl⟩
      late := fun _ => by decide
      sound := { h.sound with inv := h.sound.inv.same_row (.inl ⟨rfl, rfl⟩) } }⟩
  | miss hi => exact ⟨i, { h with }⟩

/-- Every step of a run under the premises keeps the invariant. -/
theorem RunInv.step {t : State} (h : RunInv b v0 off i s) (hv : StartValues b.data v0) (hoff : off → BlocksAgree b.data)
    (hgates : i = .g1 → GateBitsApart b.data ∧ WidthsAgree b.data)
    (hok : ∀ a rest, s.sched = a :: rest → Allowed off s a) (hst : Machine.step s = .next t) : ∃ n, RunInv b v0 off n t := by
  have hedge : ∀ r, RunInv b v0 off i r → ∃ n, RunInv b v0 off n (actOf .edge r) := by
    intro r hr
    rcases hr.place with hp | ⟨hp, -, -⟩
    · rw [actOf_edge_decoded hr.rst (by rw [hp]; exact decode_encode i)]
      exact hr.blockMove hv hoff hgates hp (blockMove_moveOf i r)
    · rw [actOf_edge_decoded hr.rst (by rw [hp]; rfl : decode r.ST = some .halt)]
      exact ⟨i, hr⟩
  rcases step_cases hst with ⟨-, rfl⟩ | ⟨a, rest, hs, rfl⟩
  · exact hedge s h
  · have hpop : RunInv b v0 off i { s with sched := rest } := { h with }
    by_cases ha : a = .edge
    · rw [ha]; exact hedge _ hpop
    · obtain ⟨h1, h2, h3, h4, h5⟩ := hok a rest hs
      refine ⟨i, hpop.agent hv hoff ha ?_⟩
      cases a <;> exact ⟨h1, h2, h3, h4, h5⟩

end

end Sys2Proof.Machine
end

section
/-! PROOFS. What the sequence guarantees: a state that meets the start-up premises starts the run's invariant, and the claims
of 70_reset_and_hazards R241 to R246 are read off it. -/

namespace Sys2Proof.Machine

/-! ### The start -/

/-- BOOT_OK says what the tables take of the start's values (R232). -/
theorem startValues {s : State} (hboot : BootOk s) : StartValues s.bind (fieldVal s.bind s.env.regs) := by
  have hreset : fSysclkUb s.bind s.env.regs = s.bind.fReset := by
    simp [fSysclkUb, hboot.switchNotPll, hboot.statusNotPll]
  obtain ⟨hH, hP1, hP2⟩ := hboot.ratings
  rw [fPclk1Ub] at hP1; rw [fPclk2Ub] at hP2
  rw [fHclkUb, hreset] at hH hP1 hP2
  exact {
    paired := fun hb => by
      have hdesc : descOf s.bind .lsesysFlag = descOf s.bind .lsesysEn := of_decide_eq_true hb
      rw [fieldVal, fieldVal, hdesc]
    switch := of_decide_eq_false hboot.switchNotPll
    reported := of_decide_eq_false hboot.statusNotPll
    waitStates := by rw [← hreset]; exact hboot.waitStates
    ahbCode := fld_le _ _
    hclk := hH
    pclk1 := hP1
    pclk2 := hP2
    apb1 := hboot.apb1AtFinal
    apb2 := hboot.apb2AtFinal }

/-- What is known of the environment at the start (BOOT_OK, R80, R81). -/
theorem envInv_start {s : State} (hboot : BootOk s) (hstart : EnvStarts s.bind s.env) :
    EnvInv s.bind (fieldVal s.bind s.env.regs) .idle [] s.env where
  single p hp := absurd hp (by simp)
  aligned p hp := absurd hp (by simp)
  tame p hp := absurd hp (by simp)
  powered _ p hp := absurd hp (by simp)
  may f _ := by
    have hrows : ∀ f ∈ FieldId.all, (span .idle f).1 = none := by decide
    refine ⟨?_, fun p hp => absurd hp (by simp)⟩
    by_cases hf : f = .flashWs
    · subst hf; rw [MayHold, if_pos rfl]; exact rfl
    · rw [MayHold, if_neg hf, hrows f (FieldId.mem_all f)]; exact .inl rfl
  last f _ := by
    have hrows : ∀ f ∈ FieldId.all, (span .idle f).2 = none := by decide
    refine ⟨fun p hp => absurd hp (by simp), fun _ => ?_⟩
    by_cases hf : f = .flashWs
    · subst hf; rw [LastAsked, if_pos rfl]; exact ⟨rfl, fun hr => absurd hr (by decide)⟩
    · rw [LastAsked, if_neg hf, hrows f (FieldId.mem_all f)]; rfl
  status S a ha := by
    have hnone : a = none := by
      have hrows : ∀ b : Bool, ∀ S ∈ StatusId.all, ∀ a ∈ statusAt b .idle S, a = none := by decide
      exact hrows _ S (StatusId.mem_all S) a ha
    subst hnone
    rcases statusAt_none ha with rfl | rfl | rfl | ⟨rfl, hb⟩
    · rfl
    · exact hstart.echoShown _ rfl
    · exact hstart.echoShown _ rfl
    · exact (hstart.echoShown .lsesysFlag hb).trans ((startValues hboot).paired hb).symm
  swsInit := hstart.swsInit

/-- A state that meets the start-up premises starts a run (R232). -/
theorem runInv_start {s : State} {off : Prop} (hboot : BootOk s) (hstart : EnvStarts s.bind s.env)
    (hlay : BlocksAgree s.bind ∨ s.env.posting = false) :
    RunInv s.binding (fieldVal s.bind s.env.regs) off .idle s := by
  have hreset := hboot.blockJustReset
  have hPH : s.PH = false := by rw [← hreset]; rfl
  have hDN : s.DN = false := by rw [← hreset]; rfl
  exact {
    binding := rfl
    place := .inl (by rw [← hreset]; rfl)
    running := by decide
    rst := hboot.resetLow
    phase := fun hq => by rw [hPH] at hq; cases hq
    latch := fun hq => by rw [hPH] at hq; cases hq
    gate := fun hq => by cases hq
    late := fun hq => by rw [hDN] at hq; cases hq
    sound := by
      rw [hboot.drained]
      exact ⟨envInv_start hboot hstart, hstart.noPllCfg, fun _ => hstart.noFmax, fun _ _ => hstart.noWs,
        fun _ => hstart.noPwrclk⟩
    layout := hlay
    immediate := fun _ => hboot.drained }

/-- Every state of a run that meets the premises of R78 meets the invariant; `off` as in `Sound`. -/
theorem runInv_reached {s t : State} (hs : BringUpPremises s) {off : Prop}
    (h : ReachesUnder (fun x => EnvPremises x ∧ (off → NextAct OffPowerBlock x)) s t) :
    ∃ i, RunInv s.binding (fieldVal s.bind s.env.regs) off i t := by
  refine reachesUnder_invariant (fun x => ∃ i, RunInv s.binding (fieldVal s.bind s.env.regs) off i x) ?_ h
    ⟨.idle, runInv_start hs.boot hs.start (.inl hs.blocks)⟩
  rintro x y ⟨hpre, hoff⟩ ⟨i, hx⟩ hst
  refine hx.step (startValues hs.boot) (fun _ => hs.blocks) (fun _ => ⟨hs.gates, hs.widths⟩) (fun a rest ha => ?_) hst
  obtain ⟨hhold, hro, -, hsole, hnoReset⟩ := hpre a rest ha
  exact ⟨hhold, hro, hsole, hnoReset, fun ho => hoff ho a rest ha⟩

/-- The same, with nothing asked of the other masters beside ENV_SOLE. -/
theorem runInv_of_premises {s t : State} (hs : BringUpPremises s) (h : ReachesUnder EnvPremises s t) :
    ∃ i, RunInv s.binding (fieldVal s.bind s.env.regs) False i t :=
  runInv_reached hs (h.mono fun _ hx => ⟨hx, False.elim⟩)

/-! ### The claims -/

/-- Settles O48. -/
theorem powerInterfaceIsNeverUnclocked : Obligations.PowerInterfaceIsNeverUnclocked := by
  intro s t hs h
  obtain ⟨i, hi⟩ := runInv_reached (off := True) hs (h.mono fun _ hx => ⟨hx.1, fun _ => hx.2⟩)
  exact hi.sound.pwrclk trivial

/-- Settles O49. -/
theorem pllConfigurationOnlyWhileOff : Obligations.PllConfigurationOnlyWhileOff := by
  intro s t hs h
  obtain ⟨i, hi⟩ := runInv_of_premises hs h
  exact hi.sound.pllCfg

/-- Settles O50: a switch that is requested and not reported is that of S6B, and there the safe code is stored. -/
theorem ahbIsCappedDuringTheSwitch : Obligations.AhbIsCappedDuringTheSwitch := by
  intro s t hs h hreq hrep
  obtain ⟨i, hi⟩ := runInv_of_premises hs h
  have hbind : t.bind = s.bind := congrArg Binding.data hi.binding
  rw [hbind] at hreq hrep ⊢
  have hinv := hi.sound.inv
  rcases hinv.switch_stage (startValues hs.boot) hi.running with ⟨-, hno, -⟩ | rfl | ⟨-, hyes⟩
  · rw [show s.binding.data = s.bind from rfl, hreq] at hno; cases hno
  · exact hinv.stored (f := .ahbPre) (a := some .ahbSafe) (owned_of_not_status (by decide)) (by decide) (by decide)
  · rw [show s.binding.data = s.bind from rfl, hrep] at hyes; cases hyes

/-- Settles O51. -/
theorem clocksStayRated : Obligations.ClocksStayRated := by
  intro s t hs hsafe h
  obtain ⟨i, hi⟩ := runInv_of_premises hs h
  have hbind : t.bind = s.bind := congrArg Binding.data hi.binding
  rw [hbind]
  exact ⟨hi.sound.inv.fmax s.binding.ok (startValues hs.boot) hi.running hsafe, hi.sound.fmax hsafe⟩

/-- Settles O52. -/
theorem waitStatesSufficeUnderAll : Obligations.WaitStatesSufficeUnderAll := by
  intro s t hs hsafe hall h
  obtain ⟨i, hi⟩ := runInv_of_premises hs h
  have hbind : t.bind = s.bind := congrArg Binding.data hi.binding
  rw [hbind]
  exact ⟨hi.sound.inv.waitStates (startValues hs.boot) hi.running hsafe hall, hi.sound.ws hsafe hall⟩

/-- The values that the last two steps of the tables give (R246). -/
theorem EnvInv.doneGuarantee {B : BindingData} {v0 : FieldId → Word} {i : Instr} {e : Env} (h : EnvInv B v0 i [] e)
    (hi : i ≠ .halt) (hr : 33 ≤ Instr.rank i) : DoneGuarantee B e := by
  have hdone : i = .done ∨ i = .g1 := by
    have hrows : ∀ i ∈ Instr.all, i ≠ .halt → 33 ≤ Instr.rank i → i = .done ∨ i = .g1 := by decide
    exact hrows i (Instr.mem_all i) hi hr
  have hasked : ∀ f V, f ∉ [FieldId.hsiRdy, .hsi48Rdy, .pllRdy, .sysclkSws, .lsesysFlag] → f ≠ .flashWs →
      (span .done f).2 = some V → (span .g1 f).2 = some V → fieldVal B e.regs f = valOf B V := by
    intro f V hf hne h1 h2
    have hl := (h.last f (owned_of_not_status hf)).2 (by simp)
    rw [LastAsked, if_neg hne] at hl
    rcases hdone with rfl | rfl
    · rw [h1] at hl; exact hl
    · rw [h2] at hl; exact hl
  have hshown : ∀ S V, (∀ b : Bool, statusAt b .done S = some (some V) ∧ statusAt b .g1 S = some (some V)) →
      current B e S = valOf B V := by
    intro S V hS
    rcases hdone with rfl | rfl
    · exact h.status S _ (hS _).1
    · exact h.status S _ (hS _).2
  have hflash : fieldVal B e.regs .flashWs = B.vWsTarget := by
    have hl := (h.last .flashWs (owned_of_not_status (by decide))).2 (by simp)
    rcases hdone with rfl | rfl <;> simpa [LastAsked, FlashLast, Instr.rank] using hl
  exact {
    pwrclkEn := hasked _ .one (by decide) (by decide) rfl rfl
    vos := hasked _ .vosTarget (by decide) (by decide) rfl rfl
    hsiOn := hasked _ .one (by decide) (by decide) rfl rfl
    hsiRdy := hshown .hsiRdy .one (by decide)
    bkpWpdis := hshown .bkpWpdis .one (by decide)
    lseDrv := hasked _ .lseDrvLowest (by decide) (by decide) rfl rfl
    lseOn := hshown .lseOn .one (by decide)
    lsesysEn := hasked _ .zero (by decide) (by decide) rfl rfl
    lsesysFlag := hshown .lsesysFlag .zero (by decide)
    hsi48On := hasked _ .one (by decide) (by decide) rfl rfl
    hsi48Rdy := hshown .hsi48Rdy .one (by decide)
    pllCfg := hasked _ .pllCfg (by decide) (by decide) rfl rfl
    pllOn := hasked _ .one (by decide) (by decide) rfl rfl
    pllSysoutEn := hasked _ .one (by decide) (by decide) rfl rfl
    pllRdy := hshown .pllRdy .one (by decide)
    flashWs := hflash
    ahbPre := hasked _ .ahbFinal (by decide) (by decide) rfl rfl
    sysclkSw := hasked _ .swPll (by decide) (by decide) rfl rfl
    sysclkSws := hshown .sysclkSws .swsPll (by decide)
    apb1Pre := hasked _ .apb1Final (by decide) (by decide) rfl rfl
    apb2Pre := hasked _ .apb2Final (by decide) (by decide) rfl rfl }

/-- Once DN is 1 and POSTED is empty the table of R246 holds. -/
theorem doneGuarantee_of_run {s t : State} (hs : BringUpPremises s) (h : ReachesUnder EnvPremises s t) (hdn : t.DN = true)
    (hposted : t.env.posted = []) : DoneGuarantee t.bind t.env := by
  obtain ⟨i, hi⟩ := runInv_of_premises hs h
  have hinv := hi.sound.inv
  rw [hposted] at hinv
  rw [show t.bind = s.bind from congrArg Binding.data hi.binding]
  exact hinv.doneGuarantee hi.running (hi.late hdn)

end Sys2Proof.Machine
end

section
/-! PROOFS. A bit under no descriptor is left alone by the block's moves and by the environment's (70_reset_and_hazards R246,
the last row of its table). -/

namespace Sys2Proof.Machine

/-- A posted write is at an aligned address and carries the bit `n` of the word at `a` as `v`. -/
def CarriesBit (a n : Nat) (v : Bool) (p : PostedWrite) : Prop := p.addr % 4 = 0 ∧ (p.addr = a → p.data.getLsbD n = v)

/-- The bit `n` of the word at `a` is stored as `v`, and no posted write changes it. -/
structure HoldsBit (a n : Nat) (v : Bool) (e : Env) : Prop where
  stored : (readWord e.regs a).getLsbD n = v
  posted : ∀ p ∈ e.posted, CarriesBit a n v p

/-- The bit `n` of the word at `a` lies under no descriptor. -/
def UnderNone (B : BindingData) (a n : Nat) : Prop := ∀ f, (descOf B f).addr = a → (descOf B f).mask.getLsbD n = false

/-- An insertion leaves the bits outside its mask. -/
theorem getLsbD_ins_outside {F : Descriptor} {n : Nat} (hn : F.mask.getLsbD n = false) (w v : Word) :
    (ins F w v).getLsbD n = w.getLsbD n := by
  by_cases hlt : n < 32
  · have hbit : (ins F w v &&& ~~~F.mask).getLsbD n = (w &&& ~~~F.mask).getLsbD n := by rw [ins_outside]
    simpa only [BitVec.getLsbD_and, BitVec.getLsbD_not, hn, hlt, decide_true, Bool.not_false, Bool.and_true] using hbit
  · rw [BitVec.getLsbD_of_ge _ _ (by omega), BitVec.getLsbD_of_ge _ _ (by omega)]

section
variable {B : BindingData} {a n : Nat} {v : Bool} {e : Env}

/-! ### The environment -/

theorem HoldsBit.applyWrite (h : HoldsBit a n v e) (ha : a % 4 = 0) {p : PostedWrite} (hp : CarriesBit a n v p) :
    HoldsBit a n v (applyWrite B e p) where
  posted := by rw [applyWrite_posted]; exact h.posted
  stored := by
    rw [applyWrite_regs]
    by_cases hpa : p.addr = a
    · have hst : (readWord e.regs p.addr).getLsbD n = v := by rw [hpa]; exact h.stored
      rw [← hpa, readWord_writeWord_self]
      by_cases hlt : n < 32
      · simp only [storedWord, BitVec.getLsbD_or, BitVec.getLsbD_and, BitVec.getLsbD_not, hst, hp.2 hpa, hlt, decide_true,
          Bool.true_and]
        cases (keptMask B e p).getLsbD n <;> simp
      · rw [← hst, BitVec.getLsbD_of_ge _ _ (by omega), BitVec.getLsbD_of_ge _ _ (by omega)]
    · rw [readWord_writeWord_ne _ _ _ _ (aligned_apart hp.1 ha hpa)]; exact h.stored

theorem HoldsBit.drain (h : HoldsBit a n v e) (ha : a % 4 = 0) (x : Nat) : HoldsBit a n v (drain B x e) := by
  unfold Machine.drain
  have hbase : HoldsBit a n v { e with posted := e.posted.filter fun p => !inScope B x p } :=
    ⟨h.stored, fun p hp => h.posted p (List.mem_of_mem_filter hp)⟩
  exact List.foldlRecOn _ _ hbase fun e' he' p hp => he'.applyWrite ha (h.posted p (List.mem_of_mem_filter hp))

theorem HoldsBit.setCurrent (h : HoldsBit a n v e) (hB : B.wf = true) (ha : a % 4 = 0) (hn : UnderNone B a n)
    (S : StatusId) (x : Word) : HoldsBit a n v (setCurrent B e S x) where
  posted := by rw [setCurrent_posted]; exact h.posted
  stored := by
    rw [setCurrent_regs]
    split
    · exact h.stored
    · by_cases hS : (descOf B S.field).addr = a
      · rw [← hS, readWord_writeWord_self, getLsbD_ins_outside (hn _ hS), hS]; exact h.stored
      · rw [readWord_writeWord_ne _ _ _ _ (aligned_apart (wf_addr hB _).1 ha hS)]; exact h.stored

theorem HoldsBit.settle (h : HoldsBit a n v e) (hB : B.wf = true) (ha : a % 4 = 0) (hn : UnderNone B a n) (S : StatusId) :
    HoldsBit a n v (settle B S e) :=
  have hset := h.setCurrent hB ha hn S (target B e S)
  ⟨hset.stored, hset.posted⟩

theorem HoldsBit.serveRead (h : HoldsBit a n v e) (hB : B.wf = true) (ha : a % 4 = 0) (hn : UnderNone B a n) (x : Nat) :
    HoldsBit a n v (serveRead B x e) := by
  have hdrained := h.drain (B := B) ha x
  have hnoted : HoldsBit a n v (notePwr B x (Machine.drain B x e)) := ⟨hdrained.stored, hdrained.posted⟩
  unfold Machine.serveRead tick
  refine List.foldlRecOn _ _ hnoted fun e' he' S _ => ?_
  rcases tickOne_cases B x e' S with hq | ⟨k, -, -, hq⟩ | ⟨-, -, hq⟩ <;> rw [hq]
  · exact he'
  · exact ⟨he'.stored, he'.posted⟩
  · exact he'.settle hB ha hn S

theorem HoldsBit.applyOldest (h : HoldsBit a n v e) (ha : a % 4 = 0) (c : RegBlock) :
    HoldsBit a n v (applyOldest B c e) := by
  unfold Machine.applyOldest
  cases hf : e.posted.find? (inClass B c) with
  | none => exact h
  | some p =>
    have hbase : HoldsBit a n v { e with posted := e.posted.eraseP (inClass B c) } :=
      ⟨h.stored, fun q hq => h.posted q (List.mem_of_mem_eraseP hq)⟩
    exact hbase.applyWrite ha (h.posted p (List.mem_of_find?_eq_some hf))

theorem HoldsBit.acceptWrite (h : HoldsBit a n v e) (ha : a % 4 = 0) {p : PostedWrite} (hp : CarriesBit a n v p) :
    HoldsBit a n v (acceptWrite B p e) := by
  have hbase : HoldsBit a n v { e with posted := e.posted ++ [p] } := by
    refine ⟨h.stored, fun q hq => ?_⟩
    rcases List.mem_append.1 hq with hq | hq
    · exact h.posted q hq
    · rw [List.mem_singleton.1 hq]; exact hp
  unfold Machine.acceptWrite
  dsimp only
  split
  · exact hbase
  · exact hbase.drain ha _

/-- A read shows the bit as it is stored. -/
theorem HoldsBit.answer (h : HoldsBit a n v e) (hn : UnderNone B a n) : (answer B e a).getLsbD n = v := by
  unfold Machine.answer
  refine List.foldlRecOn (motive := fun w : Word => w.getLsbD n = v) _ _ h.stored fun w hw S _ => ?_
  unfold overlay
  split
  · next hS => rw [getLsbD_ins_outside (hn _ hS.2)]; exact hw
  · exact hw

/-! ### The run -/

/-- What a run keeps of the bit: besides the environment, the word latched between the halves of a SETF, and the requests
that reach the gate port. -/
structure BitInv (b : Binding) (a n : Nat) (v : Bool) (s : State) : Prop where
  binding : s.binding = b
  ctrl : ControlInv s
  held : HoldsBit a n v s.env
  latch : s.PH = true → ∀ i, decode s.ST = some i → readAddr i s = a → s.T.getLsbD n = v
  request : s.ports.gateReq = true → ¬ AsksForBit b.data s.ports.gateId a n
  gate : s.ST = 0x60 → ¬ (s.GA = a ∧ s.GB.toNat = n)

variable {b : Binding} {s t : State}

/-- A state outside the halves of a SETF and outside G1 has nothing latched and no gate address. -/
theorem BitInv.of_rest (h : BitInv b a n v s) (ht : ControlInv t) (hbind : t.binding = s.binding)
    (hheld : HoldsBit a n v t.env) (hports : t.ports.gateReq = true → s.ports.gateReq = true ∧ t.ports.gateId = s.ports.gateId) (hPH : t.PH = false)
    (hST : t.ST ≠ 0x60) : BitInv b a n v t where
  binding := hbind.trans h.binding
  ctrl := ht
  held := hheld
  latch hq := by rw [hPH] at hq; cases hq
  request hq := by rw [(hports hq).2]; exact h.request (hports hq).1
  gate hq := absurd hq hST

/-- The word a SETF writes carries the bit as it was latched. -/
theorem BitInv.carriesBit (h : BitInv b a n v s) (hn : UnderNone b.data a n) {i : Instr} (hd : decode s.ST = some i)
    {F : FieldRef} {V : ValSel} {c : Code} (hi : i.form = .setf F V c) (hph : s.PH = true) :
    CarriesBit a n v ⟨(resolve s F).addr, ins (resolve s F) s.T (valOf s.bind V)⟩ := by
  have hlatch := h.latch hph i hd
  rw [readAddr, hi] at hlatch
  obtain rfl := h.binding
  cases F with
  | field g => exact ⟨(wf_addr s.binding.ok g).1, fun ha => (getLsbD_ins_outside (hn g ha) _ _).trans (hlatch ha)⟩
  | gate =>
    have hg1 : i = .g1 := by cases i <;> first | rfl | cases hi
    subst hg1
    cases hi
    have hST : s.ST = 0x60 := (encode_of_decode hd).symm
    obtain ⟨g, hg, hGA, hGB⟩ := h.ctrl.gate hST
    have hnot := h.gate hST
    obtain ⟨haddr, hins⟩ := gate_operand s.binding.ok hg s.T
    simp only [resolve] at hlatch ⊢
    rw [hGA, hGB] at hlatch ⊢
    rw [haddr] at hlatch ⊢
    rw [show valOf s.bind .one = 1 from rfl, hins]
    refine ⟨(wf_bankAddr s.binding.ok _).1, fun ha => ?_⟩
    have hbits : (BitVec.ofNat 5 g.bit).toNat = g.bit := by
      rw [BitVec.toNat_ofNat, Nat.mod_eq_of_lt (show g.bit < 2 ^ 5 from wf_gateBit s.binding.ok hg)]
    have hne : n ≠ g.bit := fun hbit => hnot ⟨hGA.trans ha, by rw [hGB, hbits, hbit]⟩
    have hzero : ((1 : Word) <<< g.bit).getLsbD n = false := by
      rw [BitVec.getLsbD_shiftLeft, show (1 : Word) = 1#32 from rfl, BitVec.getLsbD_one]
      have hcases : n < g.bit ∨ n - g.bit ≠ 0 := by omega
      rcases hcases with hlt | hlt <;> simp [hlt]
    rw [BitVec.getLsbD_or, hzero, Bool.or_false]
    exact hlatch ha

/-- The block's moves keep the bit. -/
theorem BitInv.blockMove (h : BitInv b a n v s) (ha : a % 4 = 0) (hn : UnderNone b.data a n) {i : Instr}
    (hd : decode s.ST = some i) (hm : BlockMove i s t) : BitInv b a n v t := by
  have hctrl : ControlInv t := h.ctrl.blockMove hd hm
  obtain rfl := h.binding
  have hread : ∀ x, HoldsBit a n v (memRead x s).env := fun x => h.held.serveRead s.binding.ok ha hn x
  have hcode := encode_of_decode hd
  have hrest : i.form ≠ .ctrl → i.isSetf = false → s.PH = false ∧ s.ST ≠ 0x60 := by
    intro hf hset
    have hg : i ≠ .g1 := fun hg => by rw [hg] at hset; cases hset
    refine ⟨Bool.eq_false_iff.2 fun hph => ?_, fun hST => ?_⟩
    · have hsetf := h.ctrl.phase hph
      rw [← hcode, setfCode_encode, hset] at hsetf; cases hsetf
    · exact hg ((encode_row hf).2.2.1 (hcode.trans hST))
  have hgoOn : ∀ (x : Nat) (c : Code), i.form ≠ .ctrl → i.isSetf = false → c ∈ i.successors →
      ControlInv (goto c (memRead x s)) → BitInv s.binding a n v (goto c (memRead x s)) := fun x c hf hset hc hI =>
    h.of_rest hI rfl (hread x) (fun hq => ⟨hq, rfl⟩) (hrest hf hset).1 (successor_row hf hc).2.1
  cases hm with
  | still => exact h
  | @readHalf F V c hi hack hph =>
    exact { h with
      ctrl := hctrl
      held := hread _
      latch := fun _ j hj hja => by
        replace hj : decode s.ST = some j := hj
        rw [hd] at hj; cases hj
        replace hja : readAddr i s = a := hja
        simp only [readAddr, hi] at hja
        have hbit := (hread (resolve s F).addr).answer hn
        rwa [← hja] at hbit }
  | @writeHalf F V c hi hack hph =>
    have hfin : ∀ x : State, (finishOf i x).PH = x.PH ∧
        ((finishOf i x).ports.gateReq = true → x.ports.gateReq = true ∧ (finishOf i x).ports.gateId = x.ports.gateId) :=
      fun x => by cases i <;> first | exact ⟨rfl, fun hq => ⟨hq, rfl⟩⟩ | exact ⟨rfl, fun hq => by cases hq⟩
    obtain ⟨hPH, hports⟩ := hfin (goto c
      { memWrite (resolve s F).addr (ins (resolve s F) s.T (valOf s.bind V)) s with PH := false })
    refine h.of_rest hctrl (setfWrite_binding _ _ _ _ _) ?_ hports hPH ?_
    · rw [setfWrite_env]; exact h.held.acceptWrite ha (h.carriesBit hn hd hi hph)
    · rw [setfWrite, finishOf_ST]
      exact (successor_row (by rw [hi]; simp) (by rw [successors_setf hi]; simp)).2.1
  | @readBack F c hi hack =>
    exact hgoOn _ c (by rw [hi]; simp) (by rw [Instr.isSetf, hi]) (by rw [successors_rdbk hi]; simp) hctrl
  | @found F V c hi hack =>
    exact hgoOn _ c (by rw [hi]; simp) (by rw [Instr.isSetf, hi]) (by rw [successors_wait hi]; simp) hctrl
  | again hi hack =>
    obtain ⟨hph, hST⟩ := hrest (by rw [hi]; simp) (by rw [Instr.isSetf, hi])
    exact h.of_rest hctrl rfl (hread _) (fun hq => ⟨hq, rfl⟩) hph hST
  | count hi hack =>
    obtain ⟨hph, hST⟩ := hrest (by rw [hi]; simp) (by rw [Instr.isSetf, hi])
    exact h.of_rest hctrl rfl (hread _) (fun hq => ⟨hq, rfl⟩) hph hST
  | timeout hi hack =>
    exact h.of_rest hctrl rfl (hread _) (fun hq => ⟨hq, rfl⟩) rfl (show (0x1E : Code) ≠ 0x60 by decide)
  | skipEq hi hack =>
    exact hgoOn _ _ (by rw [hi]; simp) (by rw [Instr.isSetf, hi]) (skip_mem_successors (.inl hi) _) hctrl
  | skipGe hi hack =>
    exact hgoOn _ _ (by rw [hi]; simp) (by rw [Instr.isSetf, hi]) (skip_mem_successors (.inr (.inl hi)) _) hctrl
  | skipLe hi hack =>
    exact hgoOn _ _ (by rw [hi]; simp) (by rw [Instr.isSetf, hi]) (skip_mem_successors (.inr (.inr hi)) _) hctrl
  | start => exact h.of_rest hctrl rfl h.held (fun hq => ⟨hq, rfl⟩) rfl (show (0x01 : Code) ≠ 0x60 by decide)
  | @hit g hi hreq hg =>
    have hbit := wf_gateBit s.binding.ok (gateLookup_mem hg).1
    exact { h with
      ctrl := hctrl
      latch := fun hq => by cases hq
      gate := fun _ hGB => h.request hreq ⟨g, hg, hGB.1, by
        rw [← hGB.2]
        exact (Nat.mod_eq_of_lt (show g.bit < 2 ^ 5 from hbit)).symm⟩ }
  | miss hi => exact { h with ctrl := hctrl, request := fun hq => by cases hq }

/-- The acts of other agents that leave the bit keep it (R78). -/
theorem BitInv.agent (h : BitInv b a n v s) (ha : a % 4 = 0) (hn : UnderNone b.data a n) {x : Act} (hx : x ≠ .edge)
    (hok : LeavesBit a n s x) : BitInv b a n v (actOf x s) := by
  have hctrl := h.ctrl.sameBlock (sameBlock_agent hx s)
  obtain rfl := h.binding
  cases x with
  | edge => exact absurd rfl hx
  | setRst level | setStart level | setAck level => exact { h with ctrl := hctrl }
  | gateRequest id =>
    rw [actOf, requestGate_eq] at hctrl ⊢
    refine { h with ctrl := hctrl, request := ?_ }
    show Ports.gateReq (if s.ports.gateReq = true then _ else _) = true → _
    split
    · exact h.request
    · rintro - ⟨g, hg, hat⟩
      refine hok ⟨g, ?_, hat⟩
      rw [← hg, gateLookup, gateLookup]
      simp
  | applyPosted c => exact { h with ctrl := hctrl, held := h.held.applyOldest ha c }
  | settle S => exact { h with ctrl := hctrl, held := h.held.settle s.binding.ok ha hn S }
  | status S w =>
    have hset := h.held.setCurrent s.binding.ok ha hn S w
    exact { h with ctrl := hctrl, held := ⟨hset.stored, hset.posted⟩ }
  | otherWrite y w =>
    exact { h with
      ctrl := hctrl
      held := ⟨hok.trans h.held.stored, fun p hp => h.held.posted p (by rwa [actOf, applyWrite_posted] at hp)⟩ }
  | poke y w => exact { h with ctrl := hctrl, held := ⟨hok.trans h.held.stored, h.held.posted⟩ }

/-- Every step of a run that leaves the bit keeps it. -/
theorem BitInv.step (h : BitInv b a n v s) (ha : a % 4 = 0) (hn : UnderNone b.data a n)
    (hok : NextAct (LeavesBit a n) s) (hst : Machine.step s = .next t) : BitInv b a n v t := by
  have hedge : ∀ r, BitInv b a n v r → BitInv b a n v (actOf .edge r) := by
    intro r hr
    cases hrst : r.ports.rst with
    | true =>
      rw [actOf_edge_reset hrst]
      exact hr.of_rest (controlInv_blockReset r) rfl hr.held (fun hq => ⟨hq, rfl⟩) rfl
        (show (0x00 : Code) ≠ 0x60 by decide)
    | false =>
      obtain ⟨i, hd⟩ := Option.isSome_iff_exists.1 hr.ctrl.listed
      rw [actOf_edge_decoded hrst hd]
      exact hr.blockMove ha hn hd (blockMove_moveOf i r)
  rcases step_cases hst with ⟨-, rfl⟩ | ⟨x, rest, hs, rfl⟩
  · exact hedge s h
  · have hpop : BitInv b a n v { s with sched := rest } := { h with ctrl := { h.ctrl with } }
    by_cases hx : x = .edge
    · rw [hx]; exact hedge _ hpop
    · refine hpop.agent ha hn hx ?_
      have hleaves := hok x rest hs
      cases x <;> exact hleaves

end

/-- Settles O54. -/
theorem doneGuaranteesItsTable : Obligations.DoneGuaranteesItsTable := by
  intro s t hs
  refine ⟨fun h hdn hposted => doneGuarantee_of_run hs h hdn hposted, fun a n ha hn hreq h => ?_⟩
  have hreset := hs.boot.blockJustReset
  have hstart : BitInv s.binding a n ((readWord s.env.regs a).getLsbD n) s := {
    binding := rfl
    ctrl := by rw [← hreset]; exact controlInv_blockReset s
    held := ⟨rfl, fun p hp => by rw [hs.boot.drained] at hp; cases hp⟩
    latch := fun hq => by rw [← hreset] at hq; cases hq
    request := hreq
    gate := fun hq => by rw [← hreset] at hq; cases hq }
  have hend := reachesUnder_invariant (BitInv s.binding a n ((readWord s.env.regs a).getLsbD n))
    (fun x y hx hI hst => hI.step ha hn hx.2 hst) h hstart
  exact hend.held.stored

end Sys2Proof.Machine
end

section
/-! PROOFS. The reference environment: writes applied at once and counted reads let every wait step find what it awaits, so
the run completes (20_memory R80, 70_reset_and_hazards R254). -/

namespace Sys2Proof.Machine

/-! ### Status fields on their way -/

/-- Every status field shows what its driver asks for, as far as the field holds it, or has a countdown running (R80). -/
def Settling (B : BindingData) (e : Env) : Prop :=
  ∀ S, current B e S = cut (descOf B S.field) (target B e S) ∨ (timerOf e.timers S).cnt ≠ none

section
variable {B : BindingData} {e : Env}

/-- With finite latencies an applied write keeps it (R80 (d)). -/
theorem Settling.applyWrite (h : Settling B e) (hB : B.wf = true) (hlat : ∀ S, (timerOf e.timers S).lat ≠ none)
    {p : PostedWrite} (hp : p.addr % 4 = 0) : Settling B (applyWrite B e p) := by
  intro S
  have hcnt := driverWriteStartsTheCountdown B e p S
  have hcur := current_applyWrite (e := e) hB hp S
  dsimp only at hcnt
  by_cases hmoved : target B (Machine.applyWrite B e p) S ≠ target B e S ∧
      target B (Machine.applyWrite B e p) S ≠ current B (Machine.applyWrite B e p) S
  · rw [if_pos hmoved] at hcnt
    exact .inr (hcnt ▸ hlat S)
  · rw [if_neg hmoved] at hcnt
    by_cases htar : target B (Machine.applyWrite B e p) S = target B e S
    · rw [hcnt, hcur, htar]; exact h S
    · have hshown : target B (Machine.applyWrite B e p) S = current B (Machine.applyWrite B e p) S :=
        by_contra fun hne => hmoved ⟨htar, hne⟩
      rw [hshown]
      exact .inl (cut_current hB _ S).symm

/-- What a read does to a status field at its address, with its countdown (R80 (e)). -/
theorem afterRead_cases (t c : Word) (k : Option Nat) :
    (k = none ∧ afterRead t (c, k) = (c, none)) ∨ (k = some 0 ∧ afterRead t (c, k) = (t, none)) ∨
      ∃ j, k = some (j + 1) ∧ afterRead t (c, k) = (c, some j) := by
  match k with
  | none => exact .inl ⟨rfl, rfl⟩
  | some 0 => exact .inr (.inl ⟨rfl, rfl⟩)
  | some (j + 1) => exact .inr (.inr ⟨j, rfl, rfl⟩)

/-- A read keeps it (R80 (e)). -/
theorem Settling.tick (h : Settling B e) (hB : B.wf = true) (a : Nat) : Settling B (tick B a e) := by
  intro S
  rw [target_tick hB]
  by_cases ha : (descOf B S.field).addr = a
  · have hpair := tick_status hB a e S ha
    rcases afterRead_cases (cut (descOf B S.field) (target B e S)) (current B e S) (timerOf e.timers S).cnt with
      ⟨hk, ht⟩ | ⟨-, ht⟩ | ⟨j, -, ht⟩ <;> rw [ht, Prod.mk.injEq] at hpair
    · rw [hpair.1]; exact .inl ((h S).resolve_right fun hn => hn hk)
    · exact .inl hpair.1
    · exact .inr (by rw [hpair.2]; simp)
  · obtain ⟨hc, hk⟩ := Prod.mk.inj (tick_status_ne hB a e S ha)
    rw [hc, hk]; exact h S

/-- With nothing posted a read keeps it. -/
theorem Settling.serveRead (h : Settling B e) (hB : B.wf = true) (hnil : e.posted = []) (a : Nat) :
    Settling B (serveRead B a e) := by
  rw [serveRead_of_empty B a e hnil]
  exact Settling.tick (e := notePwr B a e) (fun S => h S) hB a

/-- A field of one run of ones from its position holds 1. -/
theorem cut_one {F : Descriptor} (hF : contiguousAt F.mask F.pos = true) : cut F 1 = 1 := by
  simp only [contiguousAt, Bool.and_eq_true, decide_eq_true_eq] at hF
  obtain ⟨⟨hne, hrun⟩, -⟩ := hF
  generalize hr : F.mask >>> F.pos.toNat = run at hne hrun
  have hbit : run.getLsbD 0 = true := by
    by_contra hfalse
    have heven : run.toNat % 2 = 0 := by
      simpa [BitVec.getLsbD, Nat.testBit_zero] using hfalse
    refine hne (BitVec.eq_of_toNat_eq ?_)
    have hsucc : (run + 1).toNat = run.toNat + 1 := by
      have hlt := run.isLt
      rw [BitVec.toNat_add, Nat.mod_eq_of_lt (show run.toNat + (1 : Word).toNat < 2 ^ 32 by
        show run.toNat + 1 < 2 ^ 32; omega)]
      rfl
    have hland : run.toNat &&& (run.toNat + 1) = run.toNat := by
      refine Nat.eq_of_testBit_eq fun j => ?_
      rw [Nat.testBit_and]
      cases j with
      | zero => simp [Nat.testBit_zero, heven]
      | succ j =>
        rw [Nat.testBit_succ, Nat.testBit_succ, show (run.toNat + 1) / 2 = run.toNat / 2 by omega, Bool.and_self]
    rw [← hland, ← hsucc, ← BitVec.toNat_and, hrun]
  have hpos : F.mask.getLsbD F.pos.toNat = true := by
    rw [← hr, BitVec.getLsbD_ushiftRight] at hbit
    simpa using hbit
  have hone : ∀ k : BitPos, ((1 : Word) <<< k.toNat) >>> k.toNat = 1 := by decide
  refine cut_of_fits F 1 ((fits_iff F 1).2 ⟨?_, hone F.pos⟩)
  apply BitVec.eq_of_getLsbD_eq
  intro k hk
  rw [BitVec.getLsbD_and, BitVec.getLsbD_shiftLeft, BitVec.getLsbD_not, show (1 : Word) = 1#32 from rfl, BitVec.getLsbD_one]
  rcases lt_trichotomy k F.pos.toNat with hlt | rfl | hgt
  · simp [hlt]
  · simp [hpos]
  · have hne : k - F.pos.toNat ≠ 0 := by omega
    simp [hne]

end

/-! ### The reference run -/

/-- What one outcome of a step does to the environment. -/
theorem BlockMove.env {i : Instr} {s t : State} (h : BlockMove i s t) :
    t.env = s.env ∨ (∃ a, t.env = Machine.serveRead s.bind a s.env) ∨
      ∃ F V c, i.form = .setf F V c ∧
        t.env = acceptWrite s.bind ⟨(resolve s F).addr, ins (resolve s F) s.T (valOf s.bind V)⟩ s.env := by
  cases h with
  | still | start | hit | miss => exact .inl rfl
  | @writeHalf F V c hi => exact .inr (.inr ⟨F, V, c, hi, setfWrite_env _ _ _ _ _⟩)
  | _ => exact .inr (.inl ⟨_, rfl⟩)

/-- What the reference run keeps until DONE. -/
structure RefInv (b : Binding) (v0 : FieldId → Word) (i : Instr) (s : State) : Prop where
  run : RunInv b v0 False i s
  idle : s.sched = []
  ack : s.ports.busAck = true
  immediate : s.env.posting = false
  settling : Settling b.data s.env
  finite : ∀ S, (timerOf s.env.timers S).lat ≠ none

section
variable {b : Binding} {v0 : FieldId → Word} {i : Instr} {s t : State}

/-- The block's own step in the reference run. -/
theorem RefInv.blockMove (h : RefInv b v0 i s) (hst : step s = .next t) :
    ∃ j, decode s.ST = some j ∧ (j = i ∨ j = .halt) ∧ t = moveOf j s := by
  rw [step_of_empty h.idle] at hst
  have hcode : ∃ j, decode s.ST = some j ∧ (j = i ∨ j = .halt) := by
    rcases h.run.place with hp | ⟨hp, -⟩
    · exact ⟨i, by rw [hp, decode_encode], .inl rfl⟩
    · exact ⟨.halt, by rw [hp]; rfl, .inr rfl⟩
  obtain ⟨j, hd, hj⟩ := hcode
  rw [actOf_edge_decoded h.run.rst hd] at hst
  exact ⟨j, hd, hj, (Host.Outcome.next.inj hst).symm⟩

/-- Each step before DONE keeps the reference run's invariant. -/
theorem RefInv.step (h : RefInv b v0 i s) (hv : StartValues b.data v0) (hi : i ≠ .g1) (hst : Machine.step s = .next t) :
    ∃ n, RefInv b v0 n t := by
  obtain ⟨n, hn⟩ := h.run.step hv False.elim (fun hg => absurd hg hi)
    (fun a rest ha => by rw [h.idle] at ha; cases ha) hst
  obtain ⟨j, -, hj, ht⟩ := h.blockMove hst
  have hm : BlockMove j s t := ht ▸ blockMove_moveOf j s
  have hkeeps := (stepTo_of_step hst).envKeeps
  obtain rfl := h.run.binding
  have hnil := h.run.immediate h.immediate
  refine ⟨n, hn, step_sched h.idle hst, ?_, hkeeps.posting.trans h.immediate, ?_, fun S => ?_⟩
  · rw [StepTo.block_ports hm]; exact h.ack
  · rcases hm.env with he | ⟨a, he⟩ | ⟨F, V, c, hf, he⟩ <;> rw [he]
    · exact h.settling
    · exact h.settling.serveRead s.binding.ok hnil a
    · rw [acceptWrite_immediate _ _ h.immediate, drain_of_empty _ _ _ hnil]
      refine h.settling.applyWrite s.binding.ok h.finite ?_
      cases F with
      | field g => exact (wf_addr s.binding.ok g).1
      | gate =>
        have hg1 : j = .g1 := by cases j <;> first | rfl | cases hf
        rcases hj with hj | hj
        · exact absurd (hj.symm.trans hg1) hi
        · rw [hj] at hg1; cases hg1
  · rw [hkeeps.lat S]; exact h.finite S

/-- Each WAIT step awaits of a status field the value that its driver was last asked to hold (R100). -/
theorem wait_row {f : FieldId} {V : ValSel} {c : Code} (hi : i.form = .wait (.field f) V c) :
    ∃ S : StatusId, f = S.field ∧ (V = .zero ∨ V = .one ∨ (S = .sysclkSws ∧ V = .swsPll)) ∧
      (span i (driver S)).2 = some (if S = .sysclkSws then .swPll else V) ∧ (S = .sysclkSws → V = .swsPll) := by
  have hrows : ∀ i ∈ Instr.all, ∀ S ∈ StatusId.all, ∀ V ∈ Instr.awaits i S,
      (V = .zero ∨ V = .one ∨ (S = .sysclkSws ∧ V = .swsPll)) ∧
      (span i (driver S)).2 = some (if S = .sysclkSws then .swPll else V) ∧ (S = .sysclkSws → V = .swsPll) := by decide
  have hstatus : ∃ S : StatusId, f = S.field := by
    cases i <;> cases hi
    exacts [⟨.hsiRdy, rfl⟩, ⟨.bkpWpdis, rfl⟩, ⟨.lseOn, rfl⟩, ⟨.lsesysFlag, rfl⟩, ⟨.hsi48Rdy, rfl⟩, ⟨.pllRdy, rfl⟩,
      ⟨.pllRdy, rfl⟩, ⟨.sysclkSws, rfl⟩]
  obtain ⟨S, rfl⟩ := hstatus
  exact ⟨S, rfl, hrows i (Instr.mem_all i) S (StatusId.mem_all S) V (by simp [Instr.awaits, hi])⟩

/-- In a WAIT step of the reference run the awaited value is what the status field is on its way to. -/
theorem RefInv.target (h : RefInv b v0 i s) {S : StatusId} {V : ValSel} {c : Code}
    (hi : i.form = .wait (.field S.field) V c) (hfits : fits b.data.fields.sysclkSws b.data.vSwsPll = true) :
    cut (descOf b.data S.field) (target b.data s.env S) = valOf b.data V := by
  obtain ⟨R, hR, hV, hspan, hsws⟩ := wait_row hi
  obtain rfl := StatusId.field_injective hR
  have hstored : fieldVal b.data s.env.regs (driver S) = valOf b.data (if S = .sysclkSws then .swPll else V) := by
    have hl := (h.run.sound.inv.last _ (driver_owned S)).2 fun p hp => by rw [h.run.immediate h.immediate] at hp; cases hp
    rw [LastAsked, if_neg (driver_ne_flashWs S), hspan] at hl
    exact hl
  have htarget : Machine.target b.data s.env S = valOf b.data V := by
    by_cases hS : S = .sysclkSws
    · rw [if_pos hS] at hstored
      rw [hsws hS]
      subst hS
      exact if_pos hstored
    · rw [if_neg hS] at hstored
      rw [← hstored]
      cases S with
      | sysclkSws => exact absurd rfl hS
      | _ => rfl
  rw [htarget]
  rcases hV with rfl | rfl | ⟨rfl, rfl⟩
  · simp [valOf, cut, fld, ins]
  · exact cut_one (wf_contiguous b.ok _ (by cases S <;> simp [StatusId.field]))
  · exact cut_of_fits _ _ hfits

theorem moveOf_wait {F : FieldRef} {V : ValSel} {c : Code} (hi : i.form = .wait F V c) : moveOf i s = wait F V c s := by
  cases i <;> cases hi <;> rfl

/-- A poll of the reference run returns the awaited value or brings the countdown nearer to its end. -/
theorem RefInv.poll (h : RefInv b v0 i s) (hat : s.ST = encode i) {S : StatusId} {V : ValSel} {c : Code}
    (hi : i.form = .wait (.field S.field) V c) (hfits : fits b.data.fields.sysclkSws b.data.vSwsPll = true)
    (hpoll : b.data.pollMax = 0) (hst : Machine.step s = .next t) :
    ∃ d, t.trace = s.trace ++ [.read (descOf b.data S.field).addr d] ∧
      (fld (descOf b.data S.field) d = valOf b.data V ∨
        ∃ k, (timerOf s.env.timers S).cnt = some (k + 1) ∧ (timerOf t.env.timers S).cnt = some k) := by
  have htarget := h.target hi hfits
  have hsettling := h.settling S
  have hnil := h.run.immediate h.immediate
  obtain ⟨j, hd, -, ht⟩ := h.blockMove hst
  rw [hat, decode_encode] at hd
  cases hd
  obtain rfl := h.run.binding
  have hmove : t.trace = (memRead (descOf s.bind S.field).addr s).trace ∧
      t.env = (memRead (descOf s.bind S.field).addr s).env := by
    rw [ht, moveOf_wait hi]
    rcases wait_cases (.field S.field) V c s with
      ⟨ha, -⟩ | ⟨-, -, hw⟩ | ⟨-, -, -, hw⟩ | ⟨-, -, hp, -, -⟩ | ⟨-, -, hp, -, -⟩
    · rw [h.ack] at ha; cases ha
    · rw [hw]; exact ⟨rfl, rfl⟩
    · rw [hw]; exact ⟨rfl, rfl⟩
    · exact absurd hpoll hp
    · exact absurd hpoll hp
  obtain ⟨htrace, henv⟩ := hmove
  refine ⟨(memRead (descOf s.bind S.field).addr s).T, htrace, ?_⟩
  rw [memRead_env, serveRead_of_empty _ _ _ hnil] at henv
  rw [memRead_T, serveRead_of_empty _ _ _ hnil, fld_answer_status s.binding.ok, henv]
  have hpair := tick_status s.binding.ok (descOf s.bind S.field).addr
    (notePwr s.bind (descOf s.bind S.field).addr s.env) S rfl
  rw [show Machine.target s.bind (notePwr s.bind (descOf s.bind S.field).addr s.env) S =
      Machine.target s.bind s.env S from rfl,
    show s.bind = s.binding.data from rfl, htarget] at hpair
  rcases afterRead_cases (valOf s.binding.data V) (current s.binding.data s.env S) (timerOf s.env.timers S).cnt with
    ⟨hk, hr⟩ | ⟨-, hr⟩ | ⟨k, hk, hr⟩
  all_goals
    replace hpair := hpair.trans hr
    rw [Prod.mk.injEq] at hpair
  · refine .inl (hpair.1.trans ?_)
    rw [hsettling.resolve_right fun hn => hn hk]; exact htarget
  · exact .inl hpair.1
  · exact .inr ⟨k, hk, hpair.2⟩

/-! ### Its liveness premises -/

/-- Before DONE the reference run keeps its invariant, and it does not come back from DONE. -/
theorem ref_or_done {s : State} (hv : StartValues s.bind v0) (h : RefInv s.binding v0 .idle s) (k : Nat) :
    (∃ i, RefInv s.binding v0 i (stateAfter k s)) ∨
      ((stateAfter k s).ST = 0x1F ∨ (stateAfter k s).ST = 0x60) ∧ (stateAfter k s).ports.rst = false := by
  induction k with
  | zero => exact .inl ⟨.idle, h⟩
  | succ k ih =>
    have hst := step_stateAfter k s
    have hsched := stateAfter_sched h.idle k
    generalize stateAfter k s = r at ih hst hsched
    generalize stateAfter (k + 1) s = t at hst ⊢
    by_cases hpast : (r.ST = 0x1F ∨ r.ST = 0x60) ∧ r.ports.rst = false
    · obtain ⟨hST, hrst⟩ := hpast
      refine .inr ?_
      rw [step_of_empty hsched] at hst
      have hmove : ∀ j, (j = .done ∨ j = .g1) → decode r.ST = some j →
          (t.ST = 0x1F ∨ t.ST = 0x60) ∧ t.ports.rst = false := by
        intro j hj hd
        rw [actOf_edge_decoded hrst hd] at hst
        have hm : BlockMove j r t := Host.Outcome.next.inj hst ▸ blockMove_moveOf j r
        refine ⟨?_, by rw [StepTo.block_ports hm]; exact hrst⟩
        rcases hm.ST with hs | hs | ⟨-, -, -, hw, -⟩
        · rw [hs]; exact hST
        · rcases hj with rfl | rfl
          · exact .inr (by simpa [Instr.successors] using hs)
          · exact .inl (by simpa [Instr.successors, Instr.form] using hs)
        · rcases hj with rfl | rfl <;> cases hw
      rcases hST with hST | hST
      · exact hmove .done (.inl rfl) (by rw [hST]; rfl)
      · exact hmove .g1 (.inr rfl) (by rw [hST]; rfl)
    · obtain ⟨i, hi⟩ := ih.resolve_right hpast
      refine .inl (hi.step hv (fun hg => ?_) hst)
      subst hg
      rcases hi.run.place with hp | ⟨-, -, hw⟩
      · exact hpast ⟨.inr hp, hi.run.rst⟩
      · cases hw

/-- The reference run stays in no WAIT step without a read of the awaited value. -/
theorem live_of_ref {s : State} (hv : StartValues s.bind v0) (h : RefInv s.binding v0 .idle s)
    (hfits : fits s.bind.fields.sysclkSws s.bind.vSwsPll = true) (hpoll : s.bind.pollMax = 0) (i : Instr) : Live i s := by
  intro f V c hi n hstay
  obtain ⟨S, rfl, -⟩ := wait_row hi
  have hhere : ∀ k, n ≤ k → RefInv s.binding v0 i (stateAfter k s) := fun k hk => by
    have hat := hstay k hk
    have hdec := decode_encode i
    rcases ref_or_done hv h k with ⟨j, hj⟩ | ⟨hp | hp, -⟩
    · rcases hj.run.place with hp | ⟨hp, -, -⟩
      · rw [← hat, hp, decode_encode] at hdec
        cases hdec; exact hj
      · rw [← hat, hp] at hdec
        cases hdec; cases hi
    · rw [← hat, hp] at hdec
      cases hdec; cases hi
    · rw [← hat, hp] at hdec
      cases hdec; cases hi
  have hcount : ∀ c m, n ≤ m → (∀ k, (timerOf (stateAfter m s).env.timers S).cnt = some k → k ≤ c) →
      ∃ k d, n ≤ k ∧ (stateAfter (k + 1) s).trace = (stateAfter k s).trace ++ [.read (descOf s.bind S.field).addr d] ∧
        fld (descOf s.bind S.field) d = valOf s.bind V := by
    intro c
    induction c with
    | zero =>
      intro m hm hle
      obtain ⟨d, htrace, hd | ⟨k, hk, -⟩⟩ := (hhere m hm).poll (hstay m hm) hi hfits hpoll (step_stateAfter m s)
      · exact ⟨m, d, hm, htrace, hd⟩
      · exact absurd (hle _ hk) (by omega)
    | succ c ih =>
      intro m hm hle
      obtain ⟨d, htrace, hd | ⟨k, hk, hk'⟩⟩ := (hhere m hm).poll (hstay m hm) hi hfits hpoll (step_stateAfter m s)
      · exact ⟨m, d, hm, htrace, hd⟩
      · refine ih (m + 1) (by omega) fun k' hk'' => ?_
        rw [hk'] at hk''; cases hk''
        have := hle _ hk
        omega
  refine hcount ((timerOf (stateAfter n s).env.timers S).cnt.getD 0) n le_rfl fun k hk => ?_
  rw [hk]; exact le_rfl

/-- With no other agent the ports' levels but the gate request stay as they are. -/
theorem ports_stateAfter {s : State} (hs : s.sched = []) (hrst : s.ports.rst = false) (hack : s.ports.busAck = true)
    (k : Nat) :
    (stateAfter k s).ports.rst = false ∧ (stateAfter k s).ports.busAck = true := by
  induction k with
  | zero => exact ⟨hrst, hack⟩
  | succ k ih =>
    have hst := step_stateAfter k s
    have hsched := stateAfter_sched hs k
    generalize stateAfter k s = r at ih hst hsched
    generalize stateAfter (k + 1) s = t at hst ⊢
    rw [step_of_empty hsched] at hst
    cases hst
    cases hd : decode r.ST with
    | none => rw [actOf_edge_illegal ih.1 hd]; exact ih
    | some j =>
      rw [actOf_edge_decoded ih.1 hd, StepTo.block_ports (blockMove_moveOf j r)]
      exact ih

/-- Settles O57: the reference run meets the nine premises of R79. -/
theorem referenceRunCompletes : Obligations.ReferenceRunCompletes := by
  intro s hboot hstart hsettled hposting hsched hrun hack hpoll hlat hfits
  have hreset := hboot.blockJustReset
  have hv := startValues hboot
  have hinit : RefInv s.binding (fieldVal s.bind s.env.regs) .idle s := {
    run := runInv_start hboot hstart (.inr hposting)
    idle := hsched
    ack := hack
    immediate := hposting
    settling := fun S => .inl (by rw [← hsettled S]; exact (cut_current s.binding.ok s.env S).symm)
    finite := hlat }
  have hlive := live_of_ref hv hinit hfits hpoll
  have hbus : LiveBus s := fun n _ => by
    obtain ⟨h1, h2⟩ := ports_stateAfter hsched hboot.resetLow hack n
    exact ⟨n, le_rfl, .inl (stateAfter_sched hsched n), h1, h2⟩
  obtain ⟨k, hST, hDN⟩ := livePremisesGiveDone s (by rw [← hreset]; rfl) (by rw [← hreset]; rfl) hboot.resetLow hrun
    hpoll hboot.switchNotPll hboot.statusNotPll (fun a ha => by rw [hsched] at ha; cases ha)
    ⟨hlive _, hlive _, hlive _, hlive _, hlive _, hlive _, hlive _, hlive _, hbus⟩
  exact ⟨stateAfter k s, ⟨k, runFor_stateAfter k s⟩, hST, hDN⟩

end

end Sys2Proof.Machine
end

section
/-! PROOFS. Serving one gate request twice leaves the registers as serving it once does (43_clock_gate_port R194). -/

namespace Sys2Proof.Machine

/-- The write of a gate request for the bits `x` of the bank register at `A`, after a read in an environment (R192). -/
def gateWrite (B : BindingData) (A : Nat) (x : Word) (e : Env) : PostedWrite := ⟨A, answer B e A ||| x⟩

/-- What that write leaves in its register. -/
def gateWord (B : BindingData) (A : Nat) (x : Word) (e : Env) : Word := storedWord B e (gateWrite B A x e)

/-- A gate request served: its write is accepted. -/
def gateServed (B : BindingData) (A : Nat) (x : Word) (e : Env) : Env := acceptWrite B (gateWrite B A x e) e

section
variable {B : BindingData} {A : Nat} {x : Word} {e e' : Env}

/-! ### Writes outside the RCC block -/

/-- The fields that a write can be kept from lie in the RCC block (R30, R75, R76). -/
theorem guarded_rcc {p : PostedWrite} {f : FieldId} (h : Guarded B e p f) : blockColumn f = .rcc := by
  rcases h with hf | ⟨-, hf⟩ | ⟨hf, -⟩
  · obtain ⟨S, rfl⟩ := status_of_mem_envFields hf
    have hS := (mem_envFields_iff B S).1 hf
    cases S <;> first | rfl | simp [isEcho] at hS
  · have hrows : ∀ f ∈ FieldId.all, f ∈ backupFields ∨ f = .lsesysFlag → blockColumn f = .rcc := by decide
    refine hrows f (FieldId.mem_all f) ?_
    simp only [backupDomain, Bool.or_eq_true, Bool.and_eq_true, decide_eq_true_eq] at hf
    exact hf.imp_right And.left
  · rw [hf]; rfl

/-- A write outside the RCC block is stored as it is. -/
theorem storedWord_outside_rcc (hb : BlocksAgree B) {p : PostedWrite} (hp : blockOf B p.addr ≠ .rcc) :
    storedWord B e p = p.data := by
  have hkept : keptMask B e p = 0 := by
    apply BitVec.eq_of_getLsbD_eq
    intro n hn
    cases hbit : (keptMask B e p).getLsbD n with
    | false => simp
    | true =>
      obtain ⟨f, ha, -, hg⟩ := guarded_of_kept hbit
      exact absurd (by rw [← ha, hb.1 f, guarded_rcc hg]) hp
  simpa only [BitVec.and_allOnes] using storedWord_written B e p (BitVec.allOnes 32) (by rw [hkept]; exact BitVec.and_zero)

/-- Writes outside the RCC block, one after the other, leave at each aligned address what was there or what they carry. -/
theorem readWord_applyAll_congr (hb : BlocksAgree B) {a : Nat} (ha : a % 4 = 0) (l : List PostedWrite)
    (hl : ∀ p ∈ l, p.addr % 4 = 0 ∧ blockOf B p.addr ≠ .rcc) {e e' : Env} (h : readWord e.regs a = readWord e'.regs a) :
    readWord (l.foldl (applyWrite B) e).regs a = readWord (l.foldl (applyWrite B) e').regs a := by
  induction l generalizing e e' with
  | nil => exact h
  | cons p l ih =>
    obtain ⟨hal, hp⟩ := hl p (by simp)
    refine ih (fun q hq => hl q (by simp [hq])) ?_
    rw [applyWrite_regs, applyWrite_regs, storedWord_outside_rcc hb hp, storedWord_outside_rcc hb hp]
    by_cases hpa : p.addr = a
    · rw [hpa, readWord_writeWord_self, readWord_writeWord_self]
    · have hapart := aligned_apart hal ha hpa
      rw [readWord_writeWord_ne _ _ _ _ hapart, readWord_writeWord_ne _ _ _ _ hapart, h]

/-- They leave a register of the RCC block, and what the status fields show. -/
theorem applyAll_rcc (hB : B.wf = true) {a : Nat} (ha : a % 4 = 0) (hrcc : blockOf B a = .rcc) (l : List PostedWrite)
    (hl : ∀ p ∈ l, p.addr % 4 = 0 ∧ blockOf B p.addr ≠ .rcc) (e : Env) :
    readWord (l.foldl (applyWrite B) e).regs a = readWord e.regs a ∧
      ∀ S, current B (l.foldl (applyWrite B) e) S = current B e S := by
  induction l generalizing e with
  | nil => exact ⟨rfl, fun _ => rfl⟩
  | cons p l ih =>
    obtain ⟨hal, hp⟩ := hl p (by simp)
    obtain ⟨hw, hc⟩ := ih (fun q hq => hl q (by simp [hq])) (applyWrite B e p)
    refine ⟨hw.trans ?_, fun S => (hc S).trans (current_applyWrite hB hal S)⟩
    rw [applyWrite_regs]
    exact readWord_writeWord_ne _ _ _ _ (aligned_apart hal ha fun hpa => hp (by rw [hpa]; exact hrcc))

/-! ### The register of a gate request -/

/-- What a well-formed binding and log entry 16 say of a gate request's register and bit. -/
structure GateAt (B : BindingData) (A : Nat) (x : Word) : Prop where
  wf : B.wf = true
  blocks : BlocksAgree B
  aligned : A % 4 = 0
  rcc : blockOf B A = .rcc
  apart : ∀ f, f ≠ .pwrclkEn → (descOf B f).addr = A → (descOf B f).mask &&& x = 0

/-- The overlay of echo fields leaves the bits under none of them. -/
theorem getLsbD_answer_stored {n : Nat}
    (hn : ∀ S, isEcho B S = true → (descOf B S.field).addr = A → (descOf B S.field).mask.getLsbD n = false) :
    (answer B e A).getLsbD n = (readWord e.regs A).getLsbD n := by
  unfold answer
  refine List.foldlRecOn (motive := fun w : Word => w.getLsbD n = (readWord e.regs A).getLsbD n) _ _ rfl fun w hw S _ => ?_
  unfold overlay
  split
  · next hS => rw [getLsbD_ins_outside (hn S hS.1 hS.2)]; exact hw
  · exact hw

/-- A gate request presents the configuration bits as they are stored. -/
theorem GateAt.unbroken (h : GateAt B A x) (heq : readWord e.regs A = readWord e'.regs A) :
    pllCfgBroken B e.regs (gateWrite B A x e') = false := by
  refine Bool.eq_false_iff.2 fun hb => ?_
  simp only [pllCfgBroken, Bool.and_eq_true, decide_eq_true_eq] at hb
  obtain ⟨⟨ha, hne⟩, -⟩ := hb
  replace ha : (descOf B .pllCfg).addr = A := ha.symm
  refine hne ((xor_and_eq_zero_iff _ _ _).2 ?_)
  have hstored : fld (descOf B .pllCfg) (answer B e' A) = fieldVal B e'.regs .pllCfg := by
    rw [← ha]
    refine fld_answer_stored h.wf e' fun S _ => descOf_ne h.wf (by cases S <;> simp [StatusId.field]) ?_
    refine Bool.eq_false_iff.2 fun hm => ?_
    obtain ⟨⟨-, hf⟩ | ⟨-, hf⟩, -⟩ := (mayAlias_iff B _ _).1 hm <;> cases hf
  have hmask := and_mask_of_fld (wf_maskFromPos h.wf .pllCfg) (hstored.trans (by rw [fieldVal, ha]))
  rw [show (gateWrite B A x e').addr = A from rfl, heq]
  exact (or_and_of_disjoint (h.apart .pllCfg (by decide) ha)).symm ▸ hmask.symm

/-- The bits of the register that a gate request's write leaves (R75, R77). -/
def GateKept (B : BindingData) (A : Nat) (e : Env) (n : Nat) : Prop :=
  (maskAt B A (envFields B)).getLsbD n = true ∨
    (current B e .bkpWpdis = 0 ∧ (maskAt B A backupFields).getLsbD n = true)

theorem GateAt.kept_iff (h : GateAt B A x) (heq : readWord e.regs A = readWord e'.regs A) (n : Nat) :
    (keptMask B e (gateWrite B A x e')).getLsbD n = true ↔ GateKept B A e n := by
  rw [getLsbD_keptMask, h.unbroken heq]
  simp [GateKept, gateWrite]

/-- The write leaves the same word in every environment that agrees on the register and on the protection. -/
theorem GateAt.storedWord_congr (h : GateAt B A x) (heq : readWord e.regs A = readWord e'.regs A)
    (hcur : current B e .bkpWpdis = current B e' .bkpWpdis) : storedWord B e (gateWrite B A x e') = gateWord B A x e' := by
  have hkept : keptMask B e (gateWrite B A x e') = keptMask B e' (gateWrite B A x e') := by
    apply BitVec.eq_of_getLsbD_eq
    intro n _
    rw [Bool.eq_iff_iff, h.kept_iff heq, h.kept_iff rfl, GateKept, GateKept, hcur]
  rw [gateWord, storedWord, storedWord, hkept, show (gateWrite B A x e').addr = A from rfl, heq]

/-- One bit of the word that the write leaves. -/
theorem GateAt.getLsbD_gateWord (h : GateAt B A x) {n : Nat} (hn : n < 32) :
    (GateKept B A e n → (gateWord B A x e).getLsbD n = (readWord e.regs A).getLsbD n) ∧
    (¬ GateKept B A e n → (gateWord B A x e).getLsbD n = ((answer B e A).getLsbD n || x.getLsbD n)) := by
  have hword : (gateWord B A x e).getLsbD n =
      ((readWord e.regs A).getLsbD n && (keptMask B e (gateWrite B A x e)).getLsbD n ||
        ((answer B e A).getLsbD n || x.getLsbD n) && !(keptMask B e (gateWrite B A x e)).getLsbD n) := by
    rw [gateWord, storedWord, BitVec.getLsbD_or, BitVec.getLsbD_and, BitVec.getLsbD_and, BitVec.getLsbD_not,
      show (gateWrite B A x e).addr = A from rfl,
      show (gateWrite B A x e).data.getLsbD n = ((answer B e A).getLsbD n || x.getLsbD n) from BitVec.getLsbD_or]
    simp only [hn, decide_true, Bool.true_and]
  have hk := h.kept_iff (e := e) rfl n
  rw [hword]
  refine ⟨fun hg => ?_, fun hg => ?_⟩
  · rw [hk.2 hg]; simp
  · rw [Bool.eq_false_iff.2 fun hq => hg (hk.1 hq)]; simp

/-- The bits that the request sets are under none of the fields that a write is kept from. -/
theorem GateAt.not_kept (h : GateAt B A x) {n : Nat} (hn : x.getLsbD n = true) : ¬ GateKept B A e n := by
  have hfree : ∀ fs : List FieldId, FieldId.pwrclkEn ∉ fs → (maskAt B A fs).getLsbD n = true → False := by
    intro fs hfs hbit
    rw [getLsbD_maskAt, List.any_eq_true] at hbit
    obtain ⟨f, hf, hbit⟩ := hbit
    simp only [Bool.and_eq_true, decide_eq_true_eq] at hbit
    have hzero : ((descOf B f).mask &&& x).getLsbD n = true := by rw [BitVec.getLsbD_and, hbit.2, hn]; rfl
    rw [h.apart f (fun hq => hfs (hq ▸ hf)) hbit.1] at hzero
    simp at hzero
  rintro (hbit | ⟨-, hbit⟩)
  · exact hfree _ (owned_of_not_status (by decide)) hbit
  · exact hfree _ (by decide) hbit

/-- The write sets the request's bits (R192). -/
theorem GateAt.gateWord_set (h : GateAt B A x) {n : Nat} (hn : n < 32) (hx : x.getLsbD n = true) :
    (gateWord B A x e).getLsbD n = true := by
  rw [(h.getLsbD_gateWord hn).2 (h.not_kept hx), hx, Bool.or_true]

/-! ### Between the two services -/

/-- The environment after the first write is applied and the register is read again. -/
def gateAgain (B : BindingData) (A : Nat) (x : Word) (e : Env) : Env :=
  tick B A (notePwr B A (applyWrite B e (gateWrite B A x e)))

/-- A read's countdowns change no bit of the word but those of the environment's fields. -/
theorem getLsbD_tick {a : Nat} (hB : B.wf = true) (ha : a % 4 = 0) (r : Nat) {n : Nat}
    (hn : (maskAt B a (envFields B)).getLsbD n = false) (e : Env) :
    (readWord (tick B r e).regs a).getLsbD n = (readWord e.regs a).getLsbD n := by
  refine foldl_same (fun e => (readWord e.regs a).getLsbD n) _ (fun e S => ?_) _ e
  rcases tickOne_cases B r e S with hq | ⟨k, -, -, hq⟩ | ⟨-, -, hq⟩ <;> rw [hq]
  rw [settle_regs, setCurrent_regs]
  split
  · rfl
  · next hS =>
    by_cases hSa : (descOf B S.field).addr = a
    · have hout : (descOf B S.field).mask.getLsbD n = false := Bool.eq_false_iff.2 fun hq => by
        have hin := mask_sub_maskAt B ((mem_envFields_iff B S).2 (Bool.eq_false_iff.2 hS)) hq
        rw [hSa, hn] at hin; cases hin
      rw [hSa, readWord_writeWord_self, getLsbD_ins_outside hout]
    · rw [readWord_writeWord_ne _ _ _ _ (aligned_apart (wf_addr hB _).1 ha hSa)]

/-- An echo field at the register shows the same before and after: what the first write stores is what was shown (R37,
R80 (c)). -/
theorem GateAt.echo_again (h : GateAt B A x) {S : StatusId} (hS : isEcho B S = true) (hSA : (descOf B S.field).addr = A)
    (hopen : current B e .bkpWpdis ≠ 0) : current B (gateAgain B A x e) S = current B e S := by
  have hwf := h.wf
  have hsame : current B (applyWrite B e (gateWrite B A x e)) S = current B e S := current_applyWrite hwf h.aligned S
  have hdriver : descOf B (driver S) = descOf B S.field ∧
      target B (applyWrite B e (gateWrite B A x e)) S = fieldVal B (applyWrite B e (gateWrite B A x e)).regs (driver S) := by
    cases S <;> first | exact ⟨rfl, rfl⟩ | cases hS | exact ⟨(of_decide_eq_true hS).symm, rfl⟩
  have hne : driver S ≠ .pwrclkEn ∧ driver S ≠ .pllCfg := by cases S <;> simp [driver]
  have htarget : target B (applyWrite B e (gateWrite B A x e)) S = current B e S := by
    have haddr : (descOf B (driver S)).addr = (gateWrite B A x e).addr := by rw [hdriver.1]; exact hSA
    rw [hdriver.2, fieldVal_applyWrite_open hwf haddr]
    · rw [← fld_answer_echo hwf e hS, hSA, ← hdriver.1]
      exact fld_congr _ _ _ (or_and_of_disjoint (h.apart _ hne.1 haddr))
    · rintro (henv | ⟨hc, -⟩ | ⟨hcfg, -⟩)
      · exact driver_owned S henv
      · exact hopen hc
      · exact hne.2 hcfg
  have hpair := tick_status hwf A (notePwr B A (applyWrite B e (gateWrite B A x e))) S hSA
  rw [show target B (notePwr B A (applyWrite B e (gateWrite B A x e))) S = _ from htarget,
    show current B (notePwr B A (applyWrite B e (gateWrite B A x e))) S = _ from hsame, cut_current hwf] at hpair
  rcases afterRead_cases (current B e S) (current B e S)
      (timerOf (notePwr B A (applyWrite B e (gateWrite B A x e))).timers S).cnt with ⟨-, hr⟩ | ⟨-, hr⟩ | ⟨k, -, hr⟩ <;>
    exact (Prod.mk.inj (hpair.trans hr)).1

/-- The protection is the same at both services: its flag lives in the PWR block (R75). -/
theorem GateAt.bkpWpdis_again (h : GateAt B A x) : current B (gateAgain B A x e) .bkpWpdis = current B e .bkpWpdis := by
  have hne : (descOf B StatusId.bkpWpdis.field).addr ≠ A := fun ha => by
    have hb := h.blocks.1 .bkpWpdis
    rw [show (descOf B .bkpWpdis).addr = A from ha, h.rcc] at hb; cases hb
  exact (Prod.mk.inj (tick_status_ne h.wf A _ .bkpWpdis hne)).1.trans (current_applyWrite h.wf h.aligned .bkpWpdis)

/-- Serving the request again leaves its register as it was, but for the bits of the environment's fields (R194). -/
theorem GateAt.gateWord_again (h : GateAt B A x) {n : Nat} (hn : n < 32)
    (hsame : (readWord (gateAgain B A x e).regs A).getLsbD n = (gateWord B A x e).getLsbD n) :
    (gateWord B A x (gateAgain B A x e)).getLsbD n = (gateWord B A x e).getLsbD n := by
  have hkept : GateKept B A (gateAgain B A x e) n ↔ GateKept B A e n := by rw [GateKept, GateKept, h.bkpWpdis_again]
  by_cases hg : GateKept B A e n
  · rw [(h.getLsbD_gateWord hn).1 (hkept.2 hg), hsame]
  · have hfirst := (h.getLsbD_gateWord (e := e) hn).2 hg
    rw [(h.getLsbD_gateWord hn).2 (fun hq => hg (hkept.1 hq))]
    by_cases hecho : ∃ S, isEcho B S = true ∧ (descOf B S.field).addr = A ∧ (descOf B S.field).mask.getLsbD n = true
    · obtain ⟨S, hS, hSA, hbit⟩ := hecho
      have hopen : current B e .bkpWpdis ≠ 0 := fun hc => hg (.inr ⟨hc, ?_⟩)
      · have hfld : fld (descOf B S.field) (answer B (gateAgain B A x e) A) = fld (descOf B S.field) (answer B e A) := by
          rw [← hSA, fld_answer_echo h.wf _ hS, fld_answer_echo h.wf _ hS, hSA, h.echo_again hS hSA hopen]
        have hmask := and_mask_of_fld (wf_maskFromPos h.wf _) hfld
        have hbits := congrArg (fun w : Word => w.getLsbD n) hmask
        simp only [BitVec.getLsbD_and, hbit, Bool.and_true] at hbits
        rw [hbits, hfirst]
      · have hdomain : ∃ f ∈ backupFields, descOf B f = descOf B S.field := by
          cases S with
          | lseOn => exact ⟨.lseOn, by decide, rfl⟩
          | lsesysFlag => exact ⟨.lsesysEn, by decide, (of_decide_eq_true hS).symm⟩
          | bkpWpdis =>
            have hb := h.blocks.1 .bkpWpdis
            rw [show (descOf B .bkpWpdis).addr = A from hSA, h.rcc] at hb; cases hb
          | _ => cases hS
        obtain ⟨f, hf, hdesc⟩ := hdomain
        have hin := mask_sub_maskAt B hf (hdesc ▸ hbit)
        rwa [hdesc, hSA] at hin
    · have hplain : ∀ S, isEcho B S = true → (descOf B S.field).addr = A → (descOf B S.field).mask.getLsbD n = false :=
        fun S hS hSA => Bool.eq_false_iff.2 fun hq => hecho ⟨S, hS, hSA, hq⟩
      rw [getLsbD_answer_stored hplain, hsame, hfirst, Bool.or_assoc, Bool.or_self]

/-- A driver that is a status field itself is that of the field (R80 (c)). -/
theorem driver_eq_field {S R : StatusId} (h : driver S = R.field) : S = R := by
  have hrows : ∀ S ∈ StatusId.all, ∀ R ∈ StatusId.all, driver S = R.field → S = R := by decide
  exact hrows S (StatusId.mem_all S) R (StatusId.mem_all R) h

/-- With no countdown running a gate request starts none: every driver it could move is moved to the value shown. -/
theorem GateAt.still (h : GateAt B A x) (hstill : NoCountdown e.timers) :
    NoCountdown (applyWrite B e (gateWrite B A x e)).timers := by
  intro S
  have hcnt := driverWriteStartsTheCountdown B e (gateWrite B A x e) S
  dsimp only at hcnt
  rw [hcnt, if_neg, hstill S]
  rintro ⟨hmoved, hother⟩
  have hwf := h.wf
  have hne : driver S ≠ .pwrclkEn := by cases S <;> simp [driver]
  have htarget : fieldVal B (applyWrite B e (gateWrite B A x e)).regs (driver S) ≠ fieldVal B e.regs (driver S) := by
    intro hq
    refine hmoved ?_
    cases S with
    | sysclkSws => exact if_congr (Iff.of_eq (congrArg (· = B.vSwPll) hq)) rfl (applyWrite_keeps _ _ _).swsInit
    | _ => exact hq
  have haddr : (descOf B (driver S)).addr = A := by_contra fun ha =>
    htarget (fieldVal_applyWrite_aligned hwf h.aligned ha)
  have hwritten : fieldVal B (applyWrite B e (gateWrite B A x e)).regs (driver S) =
      fld (descOf B (driver S)) (answer B e A) := by
    by_cases hg : Guarded B e (gateWrite B A x e) (driver S)
    · exact absurd (fieldVal_applyWrite_guarded (p := gateWrite B A x e) haddr hg) htarget
    · rw [fieldVal_applyWrite_open hwf (p := gateWrite B A x e) haddr hg]
      exact fld_congr _ _ _ (or_and_of_disjoint (h.apart _ hne haddr))
  cases hS : isEcho B S with
  | true =>
    have hdesc : descOf B (driver S) = descOf B S.field := by
      cases S <;> first | rfl | cases hS | exact (of_decide_eq_true hS).symm
    refine hother ?_
    rw [current_applyWrite hwf h.aligned, ← fld_answer_echo hwf e hS, ← hdesc, haddr, ← hwritten]
    cases S <;> first | rfl | cases hS
  | false =>
    refine htarget (hwritten.trans ?_)
    rw [← haddr]
    refine fld_answer_stored hwf e fun R hR => descOf_ne hwf (fun hRS => ?_) (Bool.eq_false_iff.2 fun hm => ?_)
    · rw [driver_eq_field hRS.symm, hR] at hS; cases hS
    · obtain ⟨⟨-, hd⟩ | ⟨-, hd⟩, hb⟩ := (mayAlias_iff B _ _).1 hm
      · have hflag : S = .lsesysFlag := by cases S <;> first | rfl | cases hd
        rw [hflag] at hS
        exact absurd (show isEcho B .lsesysFlag = true from hb) (by rw [hS]; decide)
      · cases S <;> cases hd

/-! ### With POSTED drained -/

/-- The writes outside the scope of a gate request's register are outside the RCC block. -/
theorem GateAt.outside (h : GateAt B A x) (hal : ∀ p ∈ e.posted, p.addr % 4 = 0)
    (hscope : ∀ p ∈ e.posted, inScope B A p = false) : ∀ p ∈ e.posted, p.addr % 4 = 0 ∧ blockOf B p.addr ≠ .rcc := by
  intro p hp
  exact ⟨hal p hp, h.rcc ▸ block_ne_of_not_inScope (hscope p hp)⟩

/-- The register and every other word once POSTED has drained after a gate request. -/
theorem GateAt.flush_gateServed (h : GateAt B A x) (hal : ∀ p ∈ e.posted, p.addr % 4 = 0)
    (hscope : ∀ p ∈ e.posted, inScope B A p = false) :
    readWord (flush B (gateServed B A x e)).regs A = gateWord B A x e ∧
      ∀ a, a % 4 = 0 → a ≠ A → readWord (flush B (gateServed B A x e)).regs a = readWord (flush B e).regs a := by
  have hout := h.outside hal hscope
  have hrest := applyAll_rcc h.wf h.aligned h.rcc e.posted hout { e with posted := [] }
  cases hp : e.posting with
  | true =>
    have hflush : flush B (gateServed B A x e) = applyWrite B (flush B e) (gateWrite B A x e) := by
      rw [gateServed, acceptWrite_posting B _ hp, flush, List.foldl_append]; rfl
    rw [hflush, applyWrite_regs]
    refine ⟨?_, fun a ha hne => ?_⟩
    · exact (readWord_writeWord_self _ _ _).trans (h.storedWord_congr hrest.1 (hrest.2 .bkpWpdis))
    · exact readWord_writeWord_ne _ _ _ _ (aligned_apart h.aligned ha (Ne.symm hne))
  | false =>
    have hserved : gateServed B A x e = applyWrite B e (gateWrite B A x e) := by
      rw [gateServed, acceptWrite_immediate B _ hp, show (gateWrite B A x e).addr = A from rfl,
        drain_of_none_in_scope B A e hscope]
    rw [hserved, flush, applyWrite_posted]
    refine ⟨?_, fun a ha hne => ?_⟩
    · rw [(applyAll_rcc h.wf h.aligned h.rcc e.posted hout _).1]
      show readWord (applyWrite B e (gateWrite B A x e)).regs A = _
      rw [applyWrite_regs]
      exact readWord_writeWord_self _ _ _
    · refine readWord_applyAll_congr h.blocks ha e.posted hout ?_
      show readWord (applyWrite B e (gateWrite B A x e)).regs a = _
      rw [applyWrite_regs]
      exact readWord_writeWord_ne _ _ _ _ (aligned_apart h.aligned ha (Ne.symm hne))

/-- The read of the second service drains the first one's write (R70 (a)). -/
theorem serveRead_gateServed (hscope : ∀ p ∈ e.posted, inScope B A p = false) :
    serveRead B A (gateServed B A x e) = gateAgain B A x e := by
  have hdrain : drain B A (gateServed B A x e) = applyWrite B e (gateWrite B A x e) := by
    cases hp : e.posting with
    | true =>
      rw [gateServed, acceptWrite_posting B _ hp]
      refine (drain_append_self B e (gateWrite B A x e)).trans ?_
      rw [show (gateWrite B A x e).addr = A from rfl, drain_of_none_in_scope B A e hscope]
    | false =>
      rw [gateServed, acceptWrite_immediate B _ hp, show (gateWrite B A x e).addr = A from rfl,
        drain_of_none_in_scope B A e hscope]
      exact drain_of_none_in_scope B A _ (by rw [applyWrite_posted]; exact hscope)
  rw [serveRead, hdrain, gateAgain]

theorem gateAgain_posted : (gateAgain B A x e).posted = e.posted := by simp [gateAgain]

/-- Outside the register nothing changes between the two services. -/
theorem GateAt.readWord_again (h : GateAt B A x) {a : Nat} (ha : a % 4 = 0) (hne : a ≠ A) :
    readWord (gateAgain B A x e).regs a = readWord e.regs a := by
  have happly : readWord (applyWrite B e (gateWrite B A x e)).regs a = readWord e.regs a := by
    rw [applyWrite_regs]
    exact readWord_writeWord_ne _ _ _ _ (aligned_apart h.aligned ha (Ne.symm hne))
  have hapart := aligned_apart h.aligned ha (Ne.symm hne)
  rw [← happly, gateAgain]
  unfold readWord
  rw [tick_readByte _ _ _ (a + 3) (by omega), tick_readByte _ _ _ (a + 2) (by omega), tick_readByte _ _ _ (a + 1) (by omega),
    tick_readByte _ _ _ a (by omega)]
  rfl

/-- Once drained, every word but the status bits is after two services what it is after one (R194). -/
theorem GateAt.flush_twice (h : GateAt B A x) (hal : ∀ p ∈ e.posted, p.addr % 4 = 0)
    (hscope : ∀ p ∈ e.posted, inScope B A p = false) {a : Nat} (ha : a % 4 = 0) {n : Nat} (hn : n < 32)
    (hfree : (maskAt B a (envFields B)).getLsbD n = false ∨ NoCountdown e.timers) :
    (readWord (flush B (gateServed B A x (gateAgain B A x e))).regs a).getLsbD n =
      (readWord (flush B (gateServed B A x e)).regs a).getLsbD n := by
  obtain ⟨hreg1, hword1⟩ := h.flush_gateServed hal hscope
  obtain ⟨hreg2, hword2⟩ := h.flush_gateServed (e := gateAgain B A x e) (by rw [gateAgain_posted]; exact hal)
    (by rw [gateAgain_posted]; exact hscope)
  by_cases hA : a = A
  · subst hA
    rw [hreg1, hreg2]
    have hwritten : (readWord (notePwr B a (applyWrite B e (gateWrite B a x e))).regs a).getLsbD n =
        (gateWord B a x e).getLsbD n := by
      show (readWord (applyWrite B e (gateWrite B a x e)).regs a).getLsbD n = _
      rw [applyWrite_regs]
      exact congrArg (fun w : Word => w.getLsbD n) (readWord_writeWord_self _ _ _)
    refine h.gateWord_again hn (Eq.trans ?_ hwritten)
    rcases hfree with hfree | hstill
    · exact getLsbD_tick h.wf h.aligned a hfree _
    · rw [gateAgain, tick_still B a (notePwr B a (applyWrite B e (gateWrite B a x e))) (h.still hstill)]
  · rw [hword1 a ha hA, hword2 a ha hA, flush, flush, gateAgain_posted]
    refine congrArg (fun w : Word => w.getLsbD n) (readWord_applyAll_congr h.blocks ha e.posted (h.outside hal hscope) ?_)
    exact h.readWord_again ha hA

end

/-! ### The steps that serve a request -/

/-- Bytes of words that read alike are alike. -/
theorem readByte_of_readWord {m m' : Memory} (h : ∀ a, a % 4 = 0 → readWord m a = readWord m' a) (y : Nat) :
    readByte m y = readByte m' y := by
  have hbyte : ∀ (m : Memory) (a i : Nat), i < 4 → readByte m (a + i) = (readWord m a).extractLsb' (8 * i) 8 := by
    intro m a i hi
    apply BitVec.eq_of_getLsbD_eq
    intro j hj
    rw [BitVec.getLsbD_extractLsb', decide_eq_true hj, Bool.true_and]
    unfold readWord
    simp only [BitVec.getLsbD_append]
    interval_cases i <;> split_ifs <;> first | omega | (congr 1; omega)
  have hy : y = y / 4 * 4 + y % 4 := by omega
  rw [hy, hbyte m _ _ (by omega), hbyte m' _ _ (by omega), h _ (by omega)]

/-- The block in G1 for a row of the gate table (R191). -/
def enterGate (g : GateEntry) (s : State) : State :=
  { s with GA := s.bind.bankAddr.get g.bank, GB := BitVec.ofNat 5 g.bit, PH := false, ST := 0x60 }

/-- Three steps from DONE serve a gate request that hits: to G1, its read half, its write half (R191, R192). -/
theorem runFor_gate {s : State} {g : GateEntry} (hsched : s.sched = []) (hrst : s.ports.rst = false)
    (hack : s.ports.busAck = true) (hST : s.ST = 0x1F) (hreq : s.ports.gateReq = true)
    (hg : gateLookup s.bind s.ports.gateId = some g) :
    ∃ t, runFor 3 s = .next t ∧ t.ST = 0x1F ∧ t.HIT = true ∧ t.binding = s.binding ∧ t.sched = [] ∧
      t.ports = { s.ports with gateReq := false } ∧
      t.env = gateServed s.bind (s.bind.bankAddr.get g.bank) ((1 : Word) <<< g.bit)
        (serveRead s.bind (s.bind.bankAddr.get g.bank) s.env) := by
  have hmem := (gateLookup_mem hg).1
  have hbit : (BitVec.ofNat 5 g.bit).toNat = g.bit :=
    Nat.mod_eq_of_lt (show g.bit < 2 ^ 5 from wf_gateBit s.binding.ok hmem)
  have hstep : ∀ {r : State} {i : Instr}, r.sched = [] → r.ports.rst = false → decode r.ST = some i →
      step r = exec i r := fun hs hr hd => by rw [step_of_empty hs, actOf_edge_decoded hr hd, exec_eq]
  have h1 : step s = .next (enterGate g s) := (hstep hsched hrst (by rw [hST]; rfl : decode s.ST = some .done)).trans
    ((doneServesGateRequests s).2.1 g hreq hg)
  have haddr := (wf_bankAddr s.binding.ok g.bank).2
  have h2 : step (enterGate g s) = .next { memRead (s.bind.bankAddr.get g.bank) (enterGate g s) with PH := true } :=
    (hstep (r := enterGate g s) hsched hrst rfl).trans ((gateStepSetsItsBit (enterGate g s) hack haddr).1 rfl)
  have h3 := (hstep (r := { memRead (s.bind.bankAddr.get g.bank) (enterGate g s) with PH := true }) hsched hrst rfl).trans
    ((gateStepSetsItsBit { memRead (s.bind.bankAddr.get g.bank) (enterGate g s) with PH := true } hack haddr).2 rfl)
  refine ⟨_, (runFor_succ 2 h1).trans ((runFor_succ 1 h2).trans (runFor_succ 0 h3)), rfl, rfl, rfl, hsched, rfl, ?_⟩
  show acceptWrite s.bind ⟨s.bind.bankAddr.get g.bank, _ ||| (1 : Word) <<< (BitVec.ofNat 5 g.bit).toNat⟩ _ = _
  rw [hbit]
  rfl

/-- Applying what is posted keeps what every operation of the environment keeps. -/
theorem flush_keeps (B : BindingData) (e : Env) : EnvKeeps e (flush B e) :=
  .trans (b := { e with posted := [] }) ⟨rfl, rfl, fun _ => rfl, id, id, id, id, id⟩
    (EnvKeeps.foldl _ (applyWrite_keeps B) _ _)

/-- Settles O34. -/
theorem gateRequestIsIdempotent : Obligations.GateRequestIsIdempotent := by
  intro s g hsched hrst hack hST hreq hg hblocks hgates hwf hal
  have hmem := (gateLookup_mem hg).1
  obtain ⟨t, ht, htST, htHIT, htbind, htsched, htports, htenv⟩ := runFor_gate hsched hrst hack hST hreq hg
  obtain ⟨u, hu, huST, huHIT, hubind, -, -, huenv⟩ :=
    runFor_gate (s := { t with ports := { t.ports with gateReq := true } }) (g := g) htsched (by rw [htports]; exact hrst)
      (by rw [htports]; exact hack) htST rfl (by rw [htports, State.bind, htbind]; exact hg)
  refine ⟨t, u, ht, hu, htST, huST, htHIT, huHIT, ?_⟩
  have hgate : GateAt s.bind (s.bind.bankAddr.get g.bank) ((1 : Word) <<< g.bit) :=
    ⟨s.binding.ok, hblocks, (wf_bankAddr s.binding.ok g.bank).1, hblocks.2 g.bank, fun f hf ha => hgates g hmem f hf ha⟩
  have hscope : ∀ p ∈ (serveRead s.bind (s.bind.bankAddr.get g.bank) s.env).posted,
      p.addr % 4 = 0 ∧ inScope s.bind (s.bind.bankAddr.get g.bank) p = false := fun p hp => by
    rw [serveRead_posted] at hp
    obtain ⟨hp, hout⟩ := List.mem_filter.1 hp
    exact ⟨hal p hp, by simpa using hout⟩
  have hbind : State.bind { t with ports := { t.ports with gateReq := true } } = s.bind := congrArg Binding.data htbind
  rw [hbind] at huenv
  have hwft : memoryWf t.env.regs = true := by
    rw [htenv]; exact (acceptWrite_keeps _ _ _).wf ((serveRead_keeps _ _ _).wf hwf)
  have hwfu : memoryWf u.env.regs = true := by
    rw [huenv]; exact (acceptWrite_keeps _ _ _).wf ((serveRead_keeps _ _ _).wf hwft)
  replace huenv := huenv.trans (congrArg _ (congrArg (serveRead _ _) htenv))
  rw [serveRead_gateServed fun p hp => (hscope p hp).2] at huenv
  have htwice : ∀ {a n : Nat}, a % 4 = 0 → n < 32 → _ → _ := fun {a n} ha hn =>
    hgate.flush_twice (fun p hp => (hscope p hp).1) (fun p hp => (hscope p hp).2) (a := a) ha (n := n) hn
  rw [← htenv, ← huenv] at htwice
  intro once twice
  refine ⟨fun a ha => ?_, fun hnil hstill => ?_, ?_⟩
  · apply BitVec.eq_of_getLsbD_eq
    intro n hn
    rw [BitVec.getLsbD_and, BitVec.getLsbD_and, BitVec.getLsbD_not, decide_eq_true hn, Bool.true_and]
    cases hmask : (maskAt s.bind a (envFields s.bind)).getLsbD n with
    | true => simp
    | false => rw [htwice ha hn (.inl hmask)]
  · have hquiet : NoCountdown (serveRead s.bind (s.bind.bankAddr.get g.bank) s.env).timers := by
      rw [serveRead_of_empty _ _ _ hnil, tick_still _ _ (notePwr s.bind (s.bind.bankAddr.get g.bank) s.env) hstill]
      exact hstill
    refine memory_ext _ _ ((flush_keeps _ _).wf hwfu) ((flush_keeps _ _).wf hwft) (readByte_of_readWord fun a ha => ?_)
    exact BitVec.eq_of_getLsbD_eq fun n hn => htwice ha hn (.inr hquiet)
  · have hbit := wf_gateBit s.binding.ok hmem
    show (readWord (flush s.bind t.env).regs (s.bind.bankAddr.get g.bank)).getLsbD g.bit = true
    rw [htenv, (hgate.flush_gateServed (fun p hp => (hscope p hp).1) fun p hp => (hscope p hp).2).1]
    refine hgate.gateWord_set hbit ?_
    rw [BitVec.getLsbD_shiftLeft, Nat.sub_self, decide_eq_true hbit]
    simp

end Sys2Proof.Machine
end
